-- ==== Sys2Proof/Word.lean ====
section
/-! DEFINITION. The port words (20_memory.md R64) and the two small containers indexed by a 2-bit DOM field:
one copy of something per clock domain, and one per bridge. -/

namespace Sys2Proof

/-- A command word (30_encoding.md R80). -/
abbrev Word32 := BitVec 32

/-- An operand or result word (30_encoding.md R80). -/
abbrev Word64 := BitVec 64

/-- The DOM field: a domain d, or the driven domain b of a bridge (30_encoding.md R81). -/
abbrev DomId := BitVec 2

/-- The IDX field: a source s or a handler h (30_encoding.md R81). -/
abbrev Idx := BitVec 8

/-- One copy for each of the four domain numbers a DOM field can name (00_scope.md R8: N_DOM is 2 to 4). The copies at or
above N_DOM are no state of the machine: no command reaches them (log 6). -/
structure PerDomain (α : Type) where
  d0 : α
  d1 : α
  d2 : α
  d3 : α
deriving DecidableEq, Repr

/-- The copy of domain `d`. -/
def PerDomain.get {α : Type} (p : PerDomain α) (d : DomId) : α :=
  if d = 0#2 then p.d0 else if d = 1#2 then p.d1 else if d = 2#2 then p.d2 else p.d3

/-- `p` with the copy of domain `d` replaced. -/
def PerDomain.set {α : Type} (p : PerDomain α) (d : DomId) (v : α) : PerDomain α :=
  if d = 0#2 then { p with d0 := v } else if d = 1#2 then { p with d1 := v }
  else if d = 2#2 then { p with d2 := v } else { p with d3 := v }

/-- The container whose copy of domain `d` is `f d`. -/
def PerDomain.ofFn {α : Type} (f : DomId → α) : PerDomain α :=
  { d0 := f 0#2, d1 := f 1#2, d2 := f 2#2, d3 := f 3#2 }

/-- The same value in every domain. -/
def PerDomain.all {α : Type} (v : α) : PerDomain α := { d0 := v, d1 := v, d2 := v, d3 := v }

/-- One copy for each bridge, named by its driven domain b from 1 to 3 (10_state.md, Per-bridge state). There is no bridge 0. -/
structure PerBridge (α : Type) where
  b1 : α
  b2 : α
  b3 : α
deriving DecidableEq, Repr

/-- The copy of bridge `b`; `none0` stands for the bridge 0 that does not exist. -/
def PerBridge.get {α : Type} (p : PerBridge α) (none0 : α) (b : DomId) : α :=
  if b = 1#2 then p.b1 else if b = 2#2 then p.b2 else if b = 3#2 then p.b3 else none0

/-- `p` with the copy of bridge `b` replaced; there is no bridge 0 to replace. -/
def PerBridge.set {α : Type} (p : PerBridge α) (b : DomId) (v : α) : PerBridge α :=
  if b = 1#2 then { p with b1 := v } else if b = 2#2 then { p with b2 := v }
  else if b = 3#2 then { p with b3 := v } else p

/-- The container whose copy of bridge `b` is `f b`. -/
def PerBridge.ofFn {α : Type} (f : DomId → α) : PerBridge α :=
  { b1 := f 1#2, b2 := f 2#2, b3 := f 3#2 }

/-- The same value in every bridge. -/
def PerBridge.all {α : Type} (v : α) : PerBridge α := { b1 := v, b2 := v, b3 := v }

end Sys2Proof
end

