-- ==== Sys2Proof/Config.lean ====
section
/-! DEFINITION. The parameters of 00_scope.md R8, the two derived tick values, and the one free value. -/

namespace Sys2Proof

/-- When SET_IRQ records irq_clk (00_scope.md R8, `IRQ_CLK_POLICY`; D14). -/
inductive IrqClkPolicy where
  | everyRise
  | firstRise
deriving DecidableEq, Repr

/-- When STEAL shifts the signal ticks (00_scope.md R8, `STEAL_SHIFT_POLICY`; D29). -/
inductive StealShiftPolicy where
  | always
  | ifWindowOpen
deriving DecidableEq, Repr

/-- What RESET does to the alarm entries (00_scope.md R8, `RESET_ALARM_POLICY`; D34). -/
inductive ResetAlarmPolicy where
  | cancel
  | keep
deriving DecidableEq, Repr

/-- The parameters of 00_scope.md R8, but for SNAP_LAYOUT (a byte layout, out of the spec's scope by R7 (e): log 8).
The legal values are `configLegal` in Machine/Ops.lean. -/
structure Config where
  /-- TICK_W: width in bits of every tick value. -/
  tickW : Nat
  /-- N_DOM: number of clock domains. -/
  nDom : Nat
  /-- N_SRC: interrupt sources per domain. -/
  nSrc : Nat
  /-- N_ALARM: alarm entries per domain. -/
  nAlarm : Nat
  /-- FIXED_DETECT_DELAY: dispatch delay in ticks. -/
  detectDelay : Nat
  /-- MAX_BATCH: largest input of the conversion table. -/
  maxBatch : Nat
  /-- HWM[d]: high-water mark of domain d. -/
  hwm : PerDomain Nat
  /-- OVF_SUB[d]: amount subtracted by overflow prevention in domain d. -/
  ovfSub : PerDomain Nat
  /-- RESET_CLK: clock value loaded by RESET. -/
  resetClk : Nat
  /-- IRQ_CLK_POLICY. -/
  irqClkPolicy : IrqClkPolicy
  /-- STEAL_SHIFT_POLICY. -/
  stealShiftPolicy : StealShiftPolicy
  /-- RESET_ALARM_POLICY. -/
  resetAlarmPolicy : ResetAlarmPolicy
  /-- SNAP_VERSION: snapshot module version, 16 bits. -/
  snapVersion : BitVec 16
deriving DecidableEq, Repr

/-- INF, the "infinite" due tick (00_scope.md R8). -/
def Config.inf (c : Config) : Nat := 2 ^ c.tickW - 1

/-- CLK_MAX, the largest value a clock or signal tick may hold (00_scope.md R8). -/
def Config.clkMax (c : Config) : Nat := c.inf - 1

/-- The test configuration TC1 (00_scope.md R8): every default, HWM[d] = 1000 and OVF_SUB[d] = 500. -/
def Config.tc1 : Config :=
  { tickW := 32, nDom := 2, nSrc := 16, nAlarm := 20, detectDelay := 2, maxBatch := 4096
    hwm := PerDomain.all 1000, ovfSub := PerDomain.all 500, resetClk := 0
    irqClkPolicy := .everyRise, stealShiftPolicy := .always, resetAlarmPolicy := .cancel
    snapVersion := 1#16 }

/-- FREE VALUE (log 9): what an 8-bit field of a snapshot header (46_snapshot_and_control.md R261) holds when the parameter it
stands for does not fit it. Only N_SRC = 256 is such a parameter. No body: nothing can be proved of it. -/
opaque Config.oversizeHeader : Nat → BitVec 8

end Sys2Proof
end

