-- ==== Sys2Proof/Syntax.lean ====
section
/-! DEFINITION. The command set IA-CMD-1 (30_encoding.md R85): one constructor per row of the opcode map, holding the fields
of the command word and the operand words that the command uses. The pseudo-instructions (R90) are a type of their own. -/

namespace Sys2Proof

/-- One constructor per row of 30_encoding.md R85. `d` is DOM, `b` is DOM of a bridge command, `src` and `h` are IDX, `t`, `tok`,
`ratio`, `n` and `start` are operand word A and `count` is operand word B, each as presented: the width checks of R83 are made
when the command runs, because they depend on the configuration. -/
inductive Instr where
  | nop
  | setIrq (d : DomId) (src : Idx) (on : Bool) (t : Word64)
  | setNmi (d : DomId) (src : Idx) (on : Bool) (t : Word64)
  | triggerReset (d : DomId)
  | ackReset (d : DomId)
  | triggerTrap (d : DomId) (tok : Word64)
  | ackTrap (d : DomId)
  | checkPending (d : DomId)
  | ackNmi (d : DomId)
  | triggerMonitor (d : DomId)
  | ackMonitor (d : DomId)
  | triggerDma (d : DomId)
  | ackDma (d : DomId)
  | readCounts (d : DomId)
  | readSigclk (d : DomId)
  | readSrc (d : DomId) (src : Idx)
  | checkIrqDelay (d : DomId) (br ie : Bool) (t : Word64)
  | checkNmiDelay (d : DomId) (br : Bool) (t : Word64)
  | steal (d : DomId) (start count : Word64)
  | readSteal (d : DomId)
  | alarmSchedule (d : DomId) (h : Idx) (t : Word64)
  | alarmCancel (d : DomId) (h : Idx)
  | alarmNextDue (d : DomId)
  | alarmServeNext (d : DomId)
  | alarmRead (d : DomId) (h : Idx)
  | bridgeSetRatio (b : DomId) (ratio : Word64)
  | bridgeAdvance (b : DomId) (n : Word64)
  | bridgeLookup (b : DomId) (n : Word64)
  | bridgeRead (b : DomId)
  | clkAdvance (d : DomId) (n : Word64)
  | clkRead (d : DomId)
  | preventOverflow (d : DomId)
  | snapSave
  | snapLoad
deriving DecidableEq, Repr

/-- A command as the port presents it (30_encoding.md R80): the command word and the two operand words. -/
structure CmdWords where
  word : Word32
  a : Word64
  b : Word64
deriving DecidableEq, Repr

/-- The pseudo-instructions of 30_encoding.md R90. -/
inductive Pseudo where
  | irqOn (d : DomId) (src : Idx) (t : Word64)
  | irqOff (d : DomId) (src : Idx) (t : Word64)
  | nmiOn (d : DomId) (src : Idx) (t : Word64)
  | nmiOff (d : DomId) (src : Idx) (t : Word64)
  | alarmUnset (d : DomId) (h : Idx)
  | clkTick (d : DomId)
  | checkIrq (d : DomId) (t : Word64)
  | checkNmi (d : DomId) (t : Word64)
deriving DecidableEq, Repr

end Sys2Proof
end

