-- ==== Sys2Proof/Machine/State.lean ====
section
/-! DEFINITION. The state of the block (10_state.md), its ports (20_memory.md R64), the reasons a step can stop, and the power-on
state (10_state.md R44). Ticks and counts are natural numbers, as 00_scope.md R9 has them; their widths are bounds kept by every
step (log 5). -/

namespace Sys2Proof.Machine

/-- The kinds of 00_scope.md R18, in the bit order of 10_state.md R27. -/
inductive Kind where
  | nmi
  | irq
  | reset
  | trap
  | monitor
  | dma
deriving DecidableEq, Repr

/-- The status codes of 60_exceptions.md R300; codes 9 to 15 are never returned, so they have no constructor. -/
inductive Status where
  | ok
  | consistency
  | configRejected
  | snapshotRejected
  | range
  | notDue
  | illegal
  | tickOverflow
  | noRatio
deriving DecidableEq, Repr

/-- A FIRE event (30_encoding.md R84): domain, handler, offset. -/
structure Fire where
  d : DomId
  h : Idx
  off : Word64
deriving DecidableEq, Repr

/-- One domain's fields of a snapshot record (46_snapshot_and_control.md R261), in the record's order. -/
structure SnapDomain where
  clk : Nat
  pend : BitVec 8
  nirq : Nat
  nnmi : Nat
  irqClk : Nat
  nmiClk : Nat
  trapTok : BitVec 32
  src : List (BitVec 2)
  due : List Nat
deriving DecidableEq, Repr

/-- A snapshot record (46_snapshot_and_control.md R261): the header, the domains in order from 0, the carries in order from
bridge 1. -/
structure SnapRecord where
  version : BitVec 16
  nDom : BitVec 8
  nSrc : BitVec 8
  nAlarm : BitVec 8
  tickW : BitVec 8
  domains : List SnapDomain
  carries : List (BitVec 16)
deriving DecidableEq, Repr

/-- What the snapshot port carries in: an image that is truncated (down to nothing at all) or malformed under SNAP_LAYOUT, or the
record it holds (93_implementation_defined.md I7; log 8). -/
inductive SnapImage where
  | malformed
  | record (r : SnapRecord)
deriving DecidableEq, Repr

/-- What a command returns (30_encoding.md R80, R84): the status, R0, R1, zero or one FIRE event, and the record SNAP_SAVE puts
on the snapshot port. -/
structure Response where
  status : Status
  r0 : Word64
  r1 : Word64
  fire : Option Fire
  snap : Option SnapRecord
deriving DecidableEq, Repr

/-- What a host can do to the block (30_encoding.md R80; 70_reset_and_hazards.md R340): present a command, with an image on the
snapshot port; assert `por`; pulse `rst[d]`. -/
inductive Input where
  | command (c : CmdWords) (image : SnapImage)
  | por
  | rst (d : DomId)
deriving DecidableEq, Repr

/-- An entry of a conversion table (10_state.md R35): integer part and fractional remainder. -/
structure TblEntry where
  ip : BitVec 32
  fp : BitVec 16
deriving DecidableEq, Repr

/-- The state of one clock domain (10_state.md R22 to R31, R37, R38). -/
structure Domain where
  /-- `clk[d]` (R22). -/
  clk : Nat
  /-- `src[d][s]` for s from 0 (R23): bit 0 NMI, bit 1 IRQ. -/
  src : List (BitVec 2)
  /-- `nirq[d]` (R24). -/
  nirq : Nat
  /-- `nnmi[d]` (R25). -/
  nnmi : Nat
  /-- `irq_clk[d]` (R26). -/
  irqClk : Nat
  /-- `nmi_clk[d]` (R26). -/
  nmiClk : Nat
  /-- `pend[d]` (R27), read through `readPend`. -/
  pend : BitVec 8
  /-- `trap_tok[d]` (R28). -/
  trapTok : BitVec 32
  /-- `steal_start[d]` (R29). -/
  stealStart : Nat
  /-- `steal_len[d]` (R29). -/
  stealLen : Nat
  /-- `due[d][h]` for h from 0 (R30); INF means cancelled. -/
  due : List Nat
  /-- `min_tick[d]` (R31). -/
  minTick : Nat
  /-- `min_id[d]` (R31): a handler number, or NONE = 0xFF. -/
  minId : BitVec 8
  /-- `cerr[d]` (R37). -/
  cerr : Bool
  /-- `fault[d]` (R38). -/
  fault : Bool
deriving DecidableEq, Repr

/-- The state of one bridge (10_state.md R33 to R36). -/
structure Bridge where
  /-- `ratio_valid[b]` (R33). -/
  ratioValid : Bool
  /-- `ratio[b]` (R34), 16.16. -/
  ratio : BitVec 32
  /-- `tbl[b][n]` for n from 0 (R35); an entry not listed is (0, 0), as after power-on (log 7). -/
  tbl : List TblEntry
  /-- `carry[b]` (R36). -/
  carry : BitVec 16
deriving DecidableEq, Repr

/-- The state of the block and its ports. -/
structure State where
  /-- The parameters (00_scope.md R8): fixed before power-on, changed by no step (log 1). -/
  cfg : Config
  /-- The per-domain state, for every domain below N_DOM. -/
  domains : PerDomain Domain
  /-- The per-bridge state, for every bridge from 1 to N_DOM - 1. -/
  bridges : PerBridge Bridge
  /-- What the hosts will present next, first at the head (20_memory.md R69; log 3). -/
  inputs : List Input
  /-- The snapshot port, in: the image presented with the command being performed. -/
  snapIn : SnapImage
  /-- The response port: what the last input returned; none after power-on and after a reset pulse (log 4). -/
  resp : Option Response
deriving DecidableEq, Repr

/-- Why a step stops with a fault: never. No status stops the block and it has no halt or error mode (60_exceptions.md R307), so
there is no constructor; the tick-overflow fault of R302 is a status with a next state. -/
inductive Fault where
deriving DecidableEq, Repr

/-- Why the model has no next state. -/
inductive Refusal where
  /-- An instruction without a meaning; raised by `exec` alone, and by no arm of it now. Safe. -/
  | notModelled (mnemonic : String)
  /-- The parameters break a constraint of 00_scope.md R8, which says such a configuration is refused; raised by `step`. Safe. -/
  | illegalConfig
deriving DecidableEq, Repr

/-- A domain after power-on (10_state.md R44, power-on column; 70_reset_and_hazards.md R345). -/
def Domain.powerOn (c : Config) : Domain :=
  { clk := 0, src := List.replicate c.nSrc 0#2, nirq := 0, nnmi := 0, irqClk := 0, nmiClk := 0
    pend := 0#8, trapTok := 0#32, stealStart := 0, stealLen := 0
    due := List.replicate c.nAlarm c.inf, minTick := c.inf, minId := 0xFF#8
    cerr := false, fault := false }

/-- A bridge after power-on (10_state.md R44, power-on column; 70_reset_and_hazards.md R345). -/
def Bridge.powerOn : Bridge := { ratioValid := false, ratio := 0#32, tbl := [], carry := 0#16 }

/-- The block after power-on under the parameters `c`, with nothing presented on its ports. -/
def State.powerOn (c : Config) : State :=
  { cfg := c
    domains := PerDomain.all (Domain.powerOn c)
    bridges := PerBridge.all Bridge.powerOn
    inputs := [], snapIn := .malformed, resp := none }

/-- The machine right after power-on reset, under the spec's test configuration TC1 (log 1). -/
def State.reset : State := State.powerOn Config.tc1

end Sys2Proof.Machine
end

