-- ==== Sys2Proof/Machine/Flags.lean ====
section
/-! DEFINITION. The flag-like state: the pending word and its kinds (10_state.md R27), the per-source bits and their counts (R23 to R25),
the status codes (60_exceptions.md R300), and the dispatch-delay verdicts and windows (41_interrupt_line_set.md R112, R113;
44_cycle_stealer.md R222). -/

namespace Sys2Proof.Machine

/-- The bit of a kind in the pending word (10_state.md R27; D12). -/
def Kind.bit : Kind → Nat
  | .nmi => 0
  | .irq => 1
  | .reset => 2
  | .trap => 3
  | .monitor => 4
  | .dma => 5

/-- The pending word with only the bit of `k` set. -/
def Kind.mask (k : Kind) : BitVec 8 := 1#8 <<< k.bit

/-- The pending word as it reads: bits 7 and 6 are hardwired 0 (10_state.md R27; log 10). -/
def readPend (p : BitVec 8) : BitVec 8 := p &&& 0x3F#8

/-- Whether kind `k` is pending. -/
def isPending (p : BitVec 8) (k : Kind) : Bool := p.getLsbD k.bit

/-- `pend[k] <- 1`. -/
def raise (p : BitVec 8) (k : Kind) : BitVec 8 := p ||| k.mask

/-- `pend[k] <- 0`. -/
def lower (p : BitVec 8) (k : Kind) : BitVec 8 := p &&& ~~~k.mask

/-- The pending word after RESET: MONITOR kept, every other bit 0 (70_reset_and_hazards.md R343). -/
def pendAfterReset (p : BitVec 8) : BitVec 8 := p &&& 0x10#8

/-- The NMI bit of a source register (10_state.md R23). -/
def nmiBit (v : BitVec 2) : Bool := v.getLsbD 0

/-- The IRQ bit of a source register (10_state.md R23). -/
def irqBit (v : BitVec 2) : Bool := v.getLsbD 1

/-- A source register with its NMI bit set to `on`. -/
def withNmiBit (v : BitVec 2) (on : Bool) : BitVec 2 := if on then v ||| 1#2 else v &&& 2#2

/-- A source register with its IRQ bit set to `on`. -/
def withIrqBit (v : BitVec 2) (on : Bool) : BitVec 2 := if on then v ||| 2#2 else v &&& 1#2

/-- How many sources assert IRQ (the popcount of 10_state.md R39). -/
def countIrq (src : List (BitVec 2)) : Nat := src.countP irqBit

/-- How many sources assert NMI (the popcount of 10_state.md R39). -/
def countNmi (src : List (BitVec 2)) : Nat := src.countP nmiBit

/-- The 4-bit status code (60_exceptions.md R300). -/
def Status.code : Status → BitVec 4
  | .ok => 0#4
  | .consistency => 1#4
  | .configRejected => 2#4
  | .snapshotRejected => 3#4
  | .range => 4#4
  | .notDue => 5#4
  | .illegal => 6#4
  | .tickOverflow => 7#4
  | .noRatio => 8#4

/-- The extra tick of a taken same-page branch (41_interrupt_line_set.md R112). -/
def branchTick (br : Bool) : Nat := if br then 1 else 0

/-- `t >= sig + FIXED_DETECT_DELAY + BR`, exact (41_interrupt_line_set.md R112, R113). -/
def delayElapsed (c : Config) (sig : Nat) (br : Bool) (t : Nat) : Bool :=
  decide (sig + c.detectDelay + branchTick br ≤ t)

/-- A verdict on the R0 port: 1 or 0. -/
def verdict (v : Bool) : Word64 := if v then 1#64 else 0#64

/-- A kind's dispatch window is open at `start` (44_cycle_stealer.md R222): the kind is pending and its delay from the signal tick
`sig` has not run out. -/
def windowOpen (c : Config) (D : Domain) (k : Kind) (sig start : Nat) : Bool :=
  isPending D.pend k && decide (start < sig + c.detectDelay)

/-- Whether STEAL shifts the signal tick of kind `k` (44_cycle_stealer.md R221). -/
def shiftsSignal (c : Config) (D : Domain) (k : Kind) (sig start : Nat) : Bool :=
  match c.stealShiftPolicy with
  | .always => true
  | .ifWindowOpen => windowOpen c D k sig start

end Sys2Proof.Machine
end

