-- ==== Sys2Proof/Machine/Ops.lean ====
section
/-! DEFINITION. The named operations the meanings share: reading and writing one domain or bridge, ending a command with a status
(00_scope.md R12, R13; 60_exceptions.md R301, R302), the tick helpers of 00_scope.md R14, the alarm table (42_alarm_queue.md
R160), the conversion table (43_clock_domain_bridge.md R190, R191), and the legal configurations (00_scope.md R8). -/

namespace Sys2Proof.Machine

/-- What a meaning answers. -/
abbrev Result := Host.Outcome State Fault Refusal

/-- The state of domain `d`. -/
def State.dom (s : State) (d : DomId) : Domain := s.domains.get d

/-- `s` with the state of domain `d` replaced. -/
def State.setDom (s : State) (d : DomId) (D : Domain) : State := { s with domains := s.domains.set d D }

/-- The state of bridge `b`; there is no bridge 0. -/
def State.bridge (s : State) (b : DomId) : Bridge := s.bridges.get Bridge.powerOn b

/-- `s` with the state of bridge `b` replaced. -/
def State.setBridge (s : State) (b : DomId) (B : Bridge) : State := { s with bridges := s.bridges.set b B }

/-! ### Ending a command -/

/-- The one shared operation by which every command ends (60_exceptions.md R300): it drives the response port. -/
def endWith (s : State) (r : Response) : State := { s with resp := some r }

/-- End with OK and the results R0 and R1 (00_scope.md R12). -/
def answer (s : State) (r0 r1 : Word64) : State :=
  endWith s { status := .ok, r0 := r0, r1 := r1, fire := none, snap := none }

/-- End with OK, no result driven: R0 and R1 are 0 (00_scope.md R12). -/
def done (s : State) : State := answer s 0#64 0#64

/-- `reject c` (00_scope.md R13): `s` is the state before the command, R0 and R1 are 0, no event is emitted. -/
def reject (s : State) (st : Status) : State :=
  endWith s { status := st, r0 := 0#64, r1 := 0#64, fire := none, snap := none }

/-- `fault TICK_OVERFLOW` in domain `d` (60_exceptions.md R302): the command is rejected as a whole and `fault[d] <- 1`. -/
def faultTick (s : State) (d : DomId) : State :=
  reject (s.setDom d { s.dom d with fault := true }) .tickOverflow

/-- `report CONSISTENCY` in domain `d` (60_exceptions.md R301): `cerr[d] <- 1`, and the command's own writes, already in `s`, stand. -/
def reportConsistency (s : State) (d : DomId) (r0 r1 : Word64) : State :=
  endWith (s.setDom d { s.dom d with cerr := true })
    { status := .consistency, r0 := r0, r1 := r1, fire := none, snap := none }

/-- The command's own rule, run only where the checks of 30_encoding.md R86 pass; RANGE otherwise (60_exceptions.md R304). -/
def inRange (ok : Bool) (s : State) (own : State) : Result :=
  .next (if ok then own else reject s .range)

/-! ### Ticks (00_scope.md R14) -/

/-- `sat_sub`: floored at zero. -/
def satSub (a b : Nat) : Nat := if b ≤ a then a - b else 0

/-- `chk`: the tick, where it is at most CLK_MAX. -/
def chk (c : Config) (v : Nat) : Option Nat := if v ≤ c.clkMax then some v else none

/-- `steal_end(d)`. -/
def stealEnd (D : Domain) : Nat := D.stealStart + D.stealLen

/-- `sig_tick(d, t)` (41_interrupt_line_set.md R104). -/
def sigTick (D : Domain) (t : Nat) : Nat := if t < stealEnd D then stealEnd D - 1 else t

/-! ### Sources -/

/-- `src[d][s]`; every source below N_SRC is listed (log 12). -/
def Domain.srcAt (D : Domain) (x : Idx) : BitVec 2 := D.src.getD x.toNat 0#2

/-- `src[d][s] <- v`. -/
def Domain.setSrc (D : Domain) (x : Idx) (v : BitVec 2) : Domain := { D with src := D.src.set x.toNat v }

/-! ### The alarm table (42_alarm_queue.md) -/

/-- NONE, the handler number of an empty queue (10_state.md R31). -/
def noHandler : BitVec 8 := 0xFF#8

/-- `due[d][h]`; every handler below N_ALARM is listed (log 12). -/
def Domain.dueAt (c : Config) (D : Domain) (h : Idx) : Nat := D.due.getD h.toNat c.inf

/-- `due[d][h] <- t`. -/
def Domain.setDue (D : Domain) (h : Idx) (t : Nat) : Domain := { D with due := D.due.set h.toNat t }

/-- The least h with `due[h] = m`, of a table that holds `m`. -/
def leastHolder (due : List Nat) (m : Nat) : Nat := due.findIdx (fun t => t == m)

/-- `rescan(d)` (42_alarm_queue.md R160). -/
def rescan (c : Config) (D : Domain) : Domain :=
  match D.due.min? with
  | none => { D with minTick := c.inf, minId := noHandler }
  | some m =>
    if m = c.inf then { D with minTick := c.inf, minId := noHandler }
    else { D with minTick := m, minId := BitVec.ofNat 8 (leastHolder D.due m) }

/-- The queue's writes of ALARM_SCHEDULE (42_alarm_queue.md R161). -/
def scheduleAlarm (c : Config) (D : Domain) (h : Idx) (t : Nat) : Domain :=
  if t < D.minTick then { D.setDue h t with minTick := t, minId := h }
  else if h = D.minId then rescan c (D.setDue h t)
  else D.setDue h t

/-- The queue's writes of ALARM_CANCEL (42_alarm_queue.md R162). -/
def cancelAlarm (c : Config) (D : Domain) (h : Idx) : Domain :=
  if h = D.minId then rescan c (D.setDue h c.inf) else D.setDue h c.inf

/-! ### The conversion table (43_clock_domain_bridge.md) -/

/-- Entry n of the table of ratio `r` (R190). -/
def tblEntryFor (r : Nat) (n : Nat) : TblEntry :=
  { ip := BitVec.ofNat 32 (n * r / 65536), fp := BitVec.ofNat 16 (n * r % 65536) }

/-- The whole table of ratio `r`, for n from 0 to MAX_BATCH (R190). -/
def buildTable (maxBatch : Nat) (r : BitVec 32) : List TblEntry :=
  (List.range (maxBatch + 1)).map (tblEntryFor r.toNat)

/-- `tbl[b][n]`; an entry not listed is (0, 0), as after power-on (log 7). -/
def Bridge.entry (B : Bridge) (n : Nat) : TblEntry := B.tbl.getD n { ip := 0#32, fp := 0#16 }

/-- The loop of BRIDGE_ADVANCE (R191): `rem` ticks left, the driven total so far, the carry so far. Every turn takes at least one
tick, so `rem` turns are enough fuel (log 13). -/
def advanceLoop (B : Bridge) (maxBatch : Nat) : (fuel rem total carry : Nat) → Nat × Nat
  | 0, _, total, carry => (total, carry)
  | fuel + 1, rem, total, carry =>
    if rem = 0 then (total, carry)
    else
      let k := min rem maxBatch
      let e := B.entry k
      let c1 := carry + e.fp.toNat
      if 65536 ≤ c1 then advanceLoop B maxBatch fuel (rem - k) (total + e.ip.toNat + 1) (c1 - 65536)
      else advanceLoop B maxBatch fuel (rem - k) (total + e.ip.toNat) c1

/-! ### The legal configurations -/

/-- The legal values of HWM[d] and OVF_SUB[d] in one domain (00_scope.md R8). -/
def rebaseLegal (c : Config) (d : DomId) : Bool :=
  decide (1 ≤ c.hwm.get d) && decide (c.hwm.get d ≤ c.clkMax) && decide (1 ≤ c.ovfSub.get d)
    && decide (c.ovfSub.get d ≤ c.hwm.get d)

/-- Every constraint of the "legal values" column of 00_scope.md R8; the enumerations and SNAP_VERSION are legal by their type. -/
def configLegal (c : Config) : Bool :=
  decide (16 ≤ c.tickW) && (decide (c.tickW ≤ 48)
    && (decide (2 ≤ c.nDom) && (decide (c.nDom ≤ 4)
    && (decide (1 ≤ c.nSrc) && (decide (c.nSrc ≤ 256)
    && (decide (1 ≤ c.nAlarm) && (decide (c.nAlarm ≤ 255)
    && (decide (c.detectDelay ≤ 15)
    && (decide (1 ≤ c.maxBatch) && (decide (c.maxBatch ≤ 65535)
    && (rebaseLegal c 0#2 && (rebaseLegal c 1#2
    && ((decide (c.nDom ≤ 2) || rebaseLegal c 2#2) && ((decide (c.nDom ≤ 3) || rebaseLegal c 3#2)
    && decide (c.resetClk ≤ c.clkMax)))))))))))))))

end Sys2Proof.Machine
end

