-- ==== Sys2Proof/Machine/Operands.lean ====
section
/-! DEFINITION. The fields and operand forms of a command (30_encoding.md R83, R86): which values are in range, and the number each
is read as. -/

namespace Sys2Proof.Machine

/-- `DOM < N_DOM` (60_exceptions.md R304). -/
def domainOk (c : Config) (d : DomId) : Bool := decide (d.toNat < c.nDom)

/-- `1 <= DOM < N_DOM`, for a bridge command (60_exceptions.md R304). -/
def bridgeOk (c : Config) (b : DomId) : Bool := decide (1 ≤ b.toNat) && decide (b.toNat < c.nDom)

/-- `IDX < N_SRC` (60_exceptions.md R304). -/
def sourceOk (c : Config) (x : Idx) : Bool := decide (x.toNat < c.nSrc)

/-- `IDX < N_ALARM` (60_exceptions.md R304). -/
def handlerOk (c : Config) (h : Idx) : Bool := decide (h.toNat < c.nAlarm)

/-- No bit set at or above bit TICK_W: a tick, start, count or delta operand (30_encoding.md R83). -/
def tickOk (c : Config) (v : Word64) : Bool := decide (v.toNat < 2 ^ c.tickW)

/-- Bits 63:32 are 0: a ratio or token operand (30_encoding.md R83). -/
def wordOk (v : Word64) : Bool := decide (v.toNat < 2 ^ 32)

/-- At most MAX_BATCH: a table index (30_encoding.md R83). -/
def indexOk (c : Config) (v : Word64) : Bool := decide (v.toNat ≤ c.maxBatch)

/-- A tick, start, count, delta or index operand as a number, unsigned (30_encoding.md R83). -/
abbrev operandNat (v : Word64) : Nat := v.toNat

/-- `A[31:0]`: a token, or the bits of a ratio (30_encoding.md R83). -/
def low32 (v : Word64) : BitVec 32 := v.setWidth 32

/-- A tick or count on a 64-bit result word (30_encoding.md R84; log 14). -/
def resultNat (n : Nat) : Word64 := BitVec.ofNat 64 n

/-- A bit field on a 64-bit result word, zero-extended (30_encoding.md R84). -/
def resultBits {w : Nat} (v : BitVec w) : Word64 := v.setWidth 64

end Sys2Proof.Machine
end

