-- ==== Sys2Proof/Machine/Alarm.lean ====
section
/-! DEFINITION. The AlarmQueue commands (42_alarm_queue.md). -/

namespace Sys2Proof.Machine

/-- ALARM_SCHEDULE (R161). -/
def execAlarmSchedule (d : DomId) (h : Idx) (t : Word64) (s : State) : Result :=
  inRange (domainOk s.cfg d && handlerOk s.cfg h && tickOk s.cfg t) s
    (done (s.setDom d (scheduleAlarm s.cfg (s.dom d) h (operandNat t))))

/-- ALARM_CANCEL (R162). -/
def execAlarmCancel (d : DomId) (h : Idx) (s : State) : Result :=
  inRange (domainOk s.cfg d && handlerOk s.cfg h) s (done (s.setDom d (cancelAlarm s.cfg (s.dom d) h)))

/-- ALARM_NEXT_DUE (R163). -/
def execAlarmNextDue (d : DomId) (s : State) : Result :=
  inRange (domainOk s.cfg d) s (answer s (resultNat (s.dom d).minTick) (resultBits (s.dom d).minId))

/-- The own rule of ALARM_SERVE_NEXT (R164): CONSISTENCY on an empty queue, NOT_DUE before the head's tick, else FIRE. -/
def serveNext (s : State) (d : DomId) : State :=
  let D := s.dom d
  if D.minId = noHandler then reportConsistency s d (resultBits noHandler) 0#64
  else if D.clk < D.minTick then reject s .notDue
  else
    let off := resultNat (D.clk - D.minTick)
    endWith s { status := .ok, r0 := resultBits D.minId, r1 := off
                fire := some { d := d, h := D.minId, off := off }, snap := none }

/-- ALARM_SERVE_NEXT (R164). -/
def execAlarmServeNext (d : DomId) (s : State) : Result :=
  inRange (domainOk s.cfg d) s (serveNext s d)

/-- ALARM_READ (R165). -/
def execAlarmRead (d : DomId) (h : Idx) (s : State) : Result :=
  inRange (domainOk s.cfg d && handlerOk s.cfg h) s (answer s (resultNat ((s.dom d).dueAt s.cfg h)) 0#64)

end Sys2Proof.Machine
end

