-- ==== Sys2Proof/Machine/BridgeUnit.lean ====
section
/-! DEFINITION. The ClockDomainBridge commands (43_clock_domain_bridge.md). A bridge moves no clock (R196). -/

namespace Sys2Proof.Machine

/-- BRIDGE_SET_RATIO (R190): the ratio is signed, and one that is not positive is refused; the carry is kept. -/
def execBridgeSetRatio (b : DomId) (ratio : Word64) (s : State) : Result :=
  inRange (bridgeOk s.cfg b && wordOk ratio) s
    (if (low32 ratio).toInt ≤ 0 then reject s .configRejected
     else done (s.setBridge b { s.bridge b with ratioValid := true, ratio := low32 ratio
                                                tbl := buildTable s.cfg.maxBatch (low32 ratio) }))

/-- BRIDGE_ADVANCE (R191). -/
def execBridgeAdvance (b : DomId) (n : Word64) (s : State) : Result :=
  inRange (bridgeOk s.cfg b && tickOk s.cfg n) s
    (if (s.bridge b).ratioValid then
      let B := s.bridge b
      let out := advanceLoop B s.cfg.maxBatch (operandNat n) (operandNat n) 0 B.carry.toNat
      answer (s.setBridge b { B with carry := BitVec.ofNat 16 out.2 }) (resultNat out.1) (resultNat out.2)
     else reject s .noRatio)

/-- BRIDGE_LOOKUP (R193). -/
def execBridgeLookup (b : DomId) (n : Word64) (s : State) : Result :=
  inRange (bridgeOk s.cfg b && indexOk s.cfg n) s
    (if (s.bridge b).ratioValid then
      answer s (resultBits ((s.bridge b).entry (operandNat n)).ip) (resultBits ((s.bridge b).entry (operandNat n)).fp)
     else reject s .noRatio)

/-- BRIDGE_READ (R194). -/
def execBridgeRead (b : DomId) (s : State) : Result :=
  inRange (bridgeOk s.cfg b) s (answer s (resultBits (s.bridge b).ratio) (resultBits (s.bridge b).carry))

end Sys2Proof.Machine
end

