-- ==== Sys2Proof/Machine/Clock.lean ====
section
/-! DEFINITION. The clock counter and overflow prevention (45_clock_and_overflow.md). -/

namespace Sys2Proof.Machine

/-- CLK_ADVANCE (R240). -/
def execClkAdvance (d : DomId) (n : Word64) (s : State) : Result :=
  inRange (domainOk s.cfg d && tickOk s.cfg n) s
    (match chk s.cfg ((s.dom d).clk + operandNat n) with
     | none => faultTick s d
     | some v => done (s.setDom d { s.dom d with clk := v }))

/-- CLK_READ (R241). -/
def execClkRead (d : DomId) (s : State) : Result :=
  inRange (domainOk s.cfg d) s (answer s (resultNat (s.dom d).clk) 0#64)

/-- A due tick after subtracting `a`: a cancelled entry stays cancelled (R242). -/
def rebaseDue (c : Config) (a t : Nat) : Nat := if t = c.inf then t else satSub t a

/-- The writes of a rebase by `a` (R242): steal_len and min_id are unchanged. -/
def rebase (c : Config) (D : Domain) (a : Nat) : Domain :=
  { D with clk := D.clk - a
           due := D.due.map (rebaseDue c a)
           minTick := if D.minId = noHandler then D.minTick else satSub D.minTick a
           irqClk := satSub D.irqClk a
           nmiClk := satSub D.nmiClk a
           stealStart := satSub D.stealStart a }

/-- PREVENT_OVERFLOW (R242): a no-op at or below the high-water mark. -/
def execPreventOverflow (d : DomId) (s : State) : Result :=
  inRange (domainOk s.cfg d) s
    (if (s.dom d).clk ≤ s.cfg.hwm.get d then done s
     else answer (s.setDom d (rebase s.cfg (s.dom d) (s.cfg.ovfSub.get d))) (resultNat (s.cfg.ovfSub.get d)) 0#64)

end Sys2Proof.Machine
end

