-- ==== Sys2Proof/Machine/LineSet.lean ====
section
/-! DEFINITION. The InterruptLineSet commands (41_interrupt_line_set.md): lines, requests, the pending query, the delay checks and the
state reads. -/

namespace Sys2Proof.Machine

/-! ### Line commands (R101 to R106) -/

/-- The writes of an IRQ rise, but for irq_clk (R102). -/
def assertIrq (D : Domain) (x : Idx) : Domain :=
  { D.setSrc x (withIrqBit (D.srcAt x) true) with nirq := D.nirq + 1, pend := raise D.pend .irq }

/-- Whether an IRQ rise records irq_clk (R102; D14). -/
def recordsIrq (c : Config) (D : Domain) : Bool :=
  match c.irqClkPolicy with
  | .everyRise => true
  | .firstRise => decide (D.nirq = 0)

/-- SET_IRQ, assertion (R101, R102, R104). -/
def setIrqOn (s : State) (d : DomId) (x : Idx) (t : Nat) : State :=
  let D := s.dom d
  if irqBit (D.srcAt x) then done s
  else if recordsIrq s.cfg D then
    match chk s.cfg (sigTick D t) with
    | none => faultTick s d
    | some v => done (s.setDom d { assertIrq D x with irqClk := v })
  else done (s.setDom d (assertIrq D x))

/-- SET_IRQ, de-assertion (R101, R102), with the clamp of R103. -/
def setIrqOff (s : State) (d : DomId) (x : Idx) : State :=
  let D := s.dom d
  let D1 := D.setSrc x (withIrqBit (D.srcAt x) false)
  if irqBit (D.srcAt x) then
    if D.nirq = 0 then reportConsistency (s.setDom d { D1 with pend := lower D.pend .irq }) d 0#64 0#64
    else done (s.setDom d { D1 with nirq := D.nirq - 1
                                    pend := if D.nirq - 1 = 0 then lower D.pend .irq else D.pend })
  else done s

/-- SET_IRQ (R102). -/
def execSetIrq (d : DomId) (x : Idx) (on : Bool) (t : Word64) (s : State) : Result :=
  inRange (domainOk s.cfg d && sourceOk s.cfg x && tickOk s.cfg t) s
    (if on then setIrqOn s d x (operandNat t) else setIrqOff s d x)

/-- The writes of an NMI rise, but for the edge (R105). -/
def assertNmi (D : Domain) (x : Idx) : Domain :=
  { D.setSrc x (withNmiBit (D.srcAt x) true) with nnmi := D.nnmi + 1 }

/-- A new edge on the wired-OR NMI line (R105; D16). -/
def newNmiEdge (D : Domain) : Bool := decide (D.nnmi = 0) && !isPending D.pend .nmi

/-- SET_NMI, assertion (R101, R104, R105). -/
def setNmiOn (s : State) (d : DomId) (x : Idx) (t : Nat) : State :=
  let D := s.dom d
  if nmiBit (D.srcAt x) then done s
  else if newNmiEdge D then
    match chk s.cfg (sigTick D t) with
    | none => faultTick s d
    | some v => done (s.setDom d { assertNmi D x with nmiClk := v, pend := raise D.pend .nmi })
  else done (s.setDom d (assertNmi D x))

/-- The pending word after a release at tick `t` that leaves `n` sources asserting NMI (R106): the edge is withdrawn only by the
last release, in its own tick. -/
def pendAfterRelease (D : Domain) (n t : Nat) : BitVec 8 :=
  if n = 0 ∧ isPending D.pend .nmi ∧ t = D.nmiClk then lower D.pend .nmi else D.pend

/-- SET_NMI, de-assertion (R101, R106), with the clamp of R103. -/
def setNmiOff (s : State) (d : DomId) (x : Idx) (t : Nat) : State :=
  let D := s.dom d
  let D1 := D.setSrc x (withNmiBit (D.srcAt x) false)
  if nmiBit (D.srcAt x) then
    if D.nnmi = 0 then reportConsistency (s.setDom d { D1 with pend := pendAfterRelease D 0 t }) d 0#64 0#64
    else done (s.setDom d { D1 with nnmi := D.nnmi - 1, pend := pendAfterRelease D (D.nnmi - 1) t })
  else done s

/-- SET_NMI (R105, R106). -/
def execSetNmi (d : DomId) (x : Idx) (on : Bool) (t : Word64) (s : State) : Result :=
  inRange (domainOk s.cfg d && sourceOk s.cfg x && tickOk s.cfg t) s
    (if on then setNmiOn s d x (operandNat t) else setNmiOff s d x (operandNat t))

/-! ### Requests and acknowledgements (R107 to R110, R114 to R118) -/

/-- Set the bit of kind `k` in domain `d`. -/
def raiseKind (s : State) (d : DomId) (k : Kind) : State :=
  s.setDom d { s.dom d with pend := raise (s.dom d).pend k }

/-- Clear the bit of kind `k` in domain `d`. -/
def lowerKind (s : State) (d : DomId) (k : Kind) : State :=
  s.setDom d { s.dom d with pend := lower (s.dom d).pend k }

/-- TRIGGER_RESET (R107). -/
def execTriggerReset (d : DomId) (s : State) : Result :=
  inRange (domainOk s.cfg d) s (done (raiseKind s d .reset))

/-- ACK_RESET (R108). -/
def execAckReset (d : DomId) (s : State) : Result :=
  inRange (domainOk s.cfg d) s (done (lowerKind s d .reset))

/-- TRIGGER_TRAP (R109). -/
def execTriggerTrap (d : DomId) (tok : Word64) (s : State) : Result :=
  inRange (domainOk s.cfg d && wordOk tok) s
    (done (s.setDom d { s.dom d with pend := raise (s.dom d).pend .trap, trapTok := low32 tok }))

/-- ACK_TRAP (R110): the token is returned and kept. -/
def execAckTrap (d : DomId) (s : State) : Result :=
  inRange (domainOk s.cfg d) s (answer (lowerKind s d .trap) (resultBits (s.dom d).trapTok) 0#64)

/-- ACK_NMI (R114). -/
def execAckNmi (d : DomId) (s : State) : Result :=
  inRange (domainOk s.cfg d) s (done (lowerKind s d .nmi))

/-- TRIGGER_MONITOR (R115). -/
def execTriggerMonitor (d : DomId) (s : State) : Result :=
  inRange (domainOk s.cfg d) s (done (raiseKind s d .monitor))

/-- ACK_MONITOR (R116). -/
def execAckMonitor (d : DomId) (s : State) : Result :=
  inRange (domainOk s.cfg d) s (done (lowerKind s d .monitor))

/-- TRIGGER_DMA (R117). -/
def execTriggerDma (d : DomId) (s : State) : Result :=
  inRange (domainOk s.cfg d) s (done (raiseKind s d .dma))

/-- ACK_DMA (R118). -/
def execAckDma (d : DomId) (s : State) : Result :=
  inRange (domainOk s.cfg d) s (done (lowerKind s d .dma))

/-! ### Queries (R111 to R113, R119 to R121) -/

/-- CHECK_PENDING (R111). -/
def execCheckPending (d : DomId) (s : State) : Result :=
  inRange (domainOk s.cfg d) s (answer s (resultBits (readPend (s.dom d).pend)) 0#64)

/-- CHECK_IRQ_DELAY (R112): the pending word is not looked at. -/
def execCheckIrqDelay (d : DomId) (br ie : Bool) (t : Word64) (s : State) : Result :=
  inRange (domainOk s.cfg d && tickOk s.cfg t) s
    (answer s (verdict (!ie && delayElapsed s.cfg (s.dom d).irqClk br (operandNat t))) 0#64)

/-- CHECK_NMI_DELAY (R113): the pending word is not looked at. -/
def execCheckNmiDelay (d : DomId) (br : Bool) (t : Word64) (s : State) : Result :=
  inRange (domainOk s.cfg d && tickOk s.cfg t) s
    (answer s (verdict (delayElapsed s.cfg (s.dom d).nmiClk br (operandNat t))) 0#64)

/-- READ_COUNTS (R119). -/
def execReadCounts (d : DomId) (s : State) : Result :=
  inRange (domainOk s.cfg d) s (answer s (resultNat (s.dom d).nirq) (resultNat (s.dom d).nnmi))

/-- READ_SIGCLK (R120). -/
def execReadSigclk (d : DomId) (s : State) : Result :=
  inRange (domainOk s.cfg d) s (answer s (resultNat (s.dom d).irqClk) (resultNat (s.dom d).nmiClk))

/-- READ_SRC (R121). -/
def execReadSrc (d : DomId) (x : Idx) (s : State) : Result :=
  inRange (domainOk s.cfg d && sourceOk s.cfg x) s (answer s (resultBits ((s.dom d).srcAt x)) 0#64)

end Sys2Proof.Machine
end

