-- ==== Sys2Proof/Machine/Snapshot.lean ====
section
/-! DEFINITION. NOP and the snapshot commands (46_snapshot_and_control.md). The record is the abstract one of R261 (log 8). -/

namespace Sys2Proof.Machine

/-- NOP (R260). -/
def execNop (s : State) : Result := .next (done s)

/-- A parameter in an 8-bit header field (R261): its value where it fits, else a free value (log 9). -/
def header8 (v : Nat) : BitVec 8 := if v < 256 then BitVec.ofNat 8 v else Config.oversizeHeader v

/-- One domain's fields of the record (R261). -/
def snapDomain (D : Domain) : SnapDomain :=
  { clk := D.clk, pend := readPend D.pend, nirq := D.nirq, nnmi := D.nnmi, irqClk := D.irqClk
    nmiClk := D.nmiClk, trapTok := D.trapTok, src := D.src, due := D.due }

/-- The domain numbers below `n`, in order. -/
def domainIds (n : Nat) : List DomId := (List.range n).map (fun k => BitVec.ofNat 2 k)

/-- The snapshot record of the block (R261, R262): domains 0 to N_DOM - 1, bridges 1 to N_DOM - 1. -/
def snapshot (s : State) : SnapRecord :=
  { version := s.cfg.snapVersion
    nDom := header8 s.cfg.nDom, nSrc := header8 s.cfg.nSrc
    nAlarm := header8 s.cfg.nAlarm, tickW := header8 s.cfg.tickW
    domains := (domainIds s.cfg.nDom).map (fun d => snapDomain (s.dom d))
    carries := ((domainIds s.cfg.nDom).drop 1).map (fun b => (s.bridge b).carry) }

/-- SNAP_SAVE (R262). -/
def execSnapSave (s : State) : Result :=
  .next (endWith s { status := .ok, r0 := 0#64, r1 := 0#64, fire := none, snap := some (snapshot s) })

/-- The record has the fields that R261 gives it, each in its width; a record that has not is no image of a record (log 8). -/
def recordFits (c : Config) (r : SnapRecord) : Bool :=
  decide (r.domains.length = c.nDom) && decide (r.carries.length = c.nDom - 1)
    && r.domains.all (fun rd =>
        decide (rd.src.length = c.nSrc) && decide (rd.due.length = c.nAlarm) && rd.due.all (fun t => decide (t ≤ c.inf)))

/-- The version and configuration checks of SNAP_LOAD (R263). -/
def headerMatches (c : Config) (r : SnapRecord) : Bool :=
  decide (r.version = c.snapVersion) && decide (r.nDom = header8 c.nDom) && decide (r.nSrc = header8 c.nSrc)
    && decide (r.nAlarm = header8 c.nAlarm) && decide (r.tickW = header8 c.tickW)

/-- The consistency checks of SNAP_LOAD for one domain (R263). -/
def domainConsistent (c : Config) (rd : SnapDomain) : Bool :=
  decide (rd.nirq = countIrq rd.src) && decide (rd.nnmi = countNmi rd.src)
    && (isPending rd.pend .irq == decide (0 < rd.nirq)) && decide (rd.pend &&& 0xC0#8 = 0#8)
    && decide (rd.clk ≤ c.clkMax) && decide (rd.irqClk ≤ c.clkMax) && decide (rd.nmiClk ≤ c.clkMax)

/-- Every check of SNAP_LOAD, in its order (R263). -/
def recordAccepted (c : Config) (r : SnapRecord) : Bool :=
  recordFits c r && headerMatches c r && r.domains.all (domainConsistent c)

/-- A domain after a load (R263): the record's fields, the minimum rescanned, the steal record cleared. -/
def loadDomain (c : Config) (D : Domain) (rd : SnapDomain) : Domain :=
  rescan c { D with clk := rd.clk, pend := rd.pend, nirq := rd.nirq, nnmi := rd.nnmi, irqClk := rd.irqClk
                    nmiClk := rd.nmiClk, trapTok := rd.trapTok, src := rd.src, due := rd.due
                    stealStart := 0, stealLen := 0 }

/-- The writes of SNAP_LOAD (R263): every domain and every carry the record holds. -/
def loadRecord (s : State) (r : SnapRecord) : State :=
  { s with
    domains := PerDomain.ofFn (fun d =>
      match r.domains[d.toNat]? with
      | some rd => loadDomain s.cfg (s.dom d) rd
      | none => s.dom d)
    bridges := PerBridge.ofFn (fun b =>
      match r.carries[b.toNat - 1]? with
      | some v => { s.bridge b with carry := v }
      | none => s.bridge b) }

/-- SNAP_LOAD (R263). -/
def execSnapLoad (s : State) : Result :=
  .next (match s.snapIn with
    | .malformed => reject s .snapshotRejected
    | .record r => if recordAccepted s.cfg r then done (loadRecord s r) else reject s .snapshotRejected)

end Sys2Proof.Machine
end

