-- ==== Sys2Proof/Machine/Stealer.lean ====
section
/-! DEFINITION. The CycleStealer commands (44_cycle_stealer.md). -/

namespace Sys2Proof.Machine

/-- `chk` of the signal tick, made only where it is shifted (R221). -/
def chkSignal (c : Config) (D : Domain) (k : Kind) (sig start count : Nat) : Option Nat :=
  if shiftsSignal c D k sig start then chk c (sig + count - 1) else some sig

/-- The steal record after a steal (R221): one that starts where the last one ended continues it. -/
def mergedSteal (D : Domain) (start count : Nat) : Nat × Nat :=
  if start = stealEnd D then (D.stealStart, D.stealLen + count) else (start, count)

/-- The writes of a STEAL of `count > 0` ticks, where no `chk` faults (R221). -/
def stealWrites (c : Config) (D : Domain) (start count : Nat) : Option Domain :=
  match chk c (D.clk + count), chkSignal c D .irq D.irqClk start count, chkSignal c D .nmi D.nmiClk start count,
      chk c ((mergedSteal D start count).1 + (mergedSteal D start count).2) with
  | some clk, some irq, some nmi, some _ =>
    some { D with clk := clk, irqClk := irq, nmiClk := nmi
                  stealStart := (mergedSteal D start count).1, stealLen := (mergedSteal D start count).2 }
  | _, _, _, _ => none

/-- The own rule of STEAL (R221): a count of 0 is a no-op, and a `chk` that faults rejects the whole command. -/
def stealCycles (s : State) (d : DomId) (start count : Nat) : State :=
  if count = 0 then done s
  else
    match stealWrites s.cfg (s.dom d) start count with
    | none => faultTick s d
    | some D => done (s.setDom d D)

/-- STEAL (R221). -/
def execSteal (d : DomId) (start count : Word64) (s : State) : Result :=
  inRange (domainOk s.cfg d && tickOk s.cfg start && tickOk s.cfg count) s
    (stealCycles s d (operandNat start) (operandNat count))

/-- READ_STEAL (R223). -/
def execReadSteal (d : DomId) (s : State) : Result :=
  inRange (domainOk s.cfg d) s (answer s (resultNat (s.dom d).stealStart) (resultNat (s.dom d).stealLen))

end Sys2Proof.Machine
end

