-- ==== Sys2Proof/Machine/Dispatch.lean ====
section
/-! DEFINITION. One arm per command of 30_encoding.md R85, each a direct call of its meaning. -/

namespace Sys2Proof.Machine

def exec (i : Instr) (s : State) : Host.Outcome State Fault Refusal :=
  match i with
  | .nop => Sys2Proof.Machine.execNop s
  | .setIrq d x on t => Sys2Proof.Machine.execSetIrq d x on t s
  | .setNmi d x on t => Sys2Proof.Machine.execSetNmi d x on t s
  | .triggerReset d => Sys2Proof.Machine.execTriggerReset d s
  | .ackReset d => Sys2Proof.Machine.execAckReset d s
  | .triggerTrap d tok => Sys2Proof.Machine.execTriggerTrap d tok s
  | .ackTrap d => Sys2Proof.Machine.execAckTrap d s
  | .checkPending d => Sys2Proof.Machine.execCheckPending d s
  | .ackNmi d => Sys2Proof.Machine.execAckNmi d s
  | .triggerMonitor d => Sys2Proof.Machine.execTriggerMonitor d s
  | .ackMonitor d => Sys2Proof.Machine.execAckMonitor d s
  | .triggerDma d => Sys2Proof.Machine.execTriggerDma d s
  | .ackDma d => Sys2Proof.Machine.execAckDma d s
  | .readCounts d => Sys2Proof.Machine.execReadCounts d s
  | .readSigclk d => Sys2Proof.Machine.execReadSigclk d s
  | .readSrc d x => Sys2Proof.Machine.execReadSrc d x s
  | .checkIrqDelay d br ie t => Sys2Proof.Machine.execCheckIrqDelay d br ie t s
  | .checkNmiDelay d br t => Sys2Proof.Machine.execCheckNmiDelay d br t s
  | .steal d start count => Sys2Proof.Machine.execSteal d start count s
  | .readSteal d => Sys2Proof.Machine.execReadSteal d s
  | .alarmSchedule d h t => Sys2Proof.Machine.execAlarmSchedule d h t s
  | .alarmCancel d h => Sys2Proof.Machine.execAlarmCancel d h s
  | .alarmNextDue d => Sys2Proof.Machine.execAlarmNextDue d s
  | .alarmServeNext d => Sys2Proof.Machine.execAlarmServeNext d s
  | .alarmRead d h => Sys2Proof.Machine.execAlarmRead d h s
  | .bridgeSetRatio b ratio => Sys2Proof.Machine.execBridgeSetRatio b ratio s
  | .bridgeAdvance b n => Sys2Proof.Machine.execBridgeAdvance b n s
  | .bridgeLookup b n => Sys2Proof.Machine.execBridgeLookup b n s
  | .bridgeRead b => Sys2Proof.Machine.execBridgeRead b s
  | .clkAdvance d n => Sys2Proof.Machine.execClkAdvance d n s
  | .clkRead d => Sys2Proof.Machine.execClkRead d s
  | .preventOverflow d => Sys2Proof.Machine.execPreventOverflow d s
  | .snapSave => Sys2Proof.Machine.execSnapSave s
  | .snapLoad => Sys2Proof.Machine.execSnapLoad s

end Sys2Proof.Machine
end

