-- ==== Sys2Proof/Decode.lean ====
section
/-! DEFINITION. Decoding a command word (30_encoding.md R81, R85, R86; total, rejecting by name), and after it the encoder, the
expansion of the pseudo-instructions and the assembly syntax. -/

namespace Sys2Proof

/-- OP, bits 31:26 (30_encoding.md R81). -/
def opField (w : Word32) : BitVec 6 := w.extractLsb' 26 6

/-- DOM, bits 25:24 (30_encoding.md R81). -/
def domField (w : Word32) : DomId := w.extractLsb' 24 2

/-- IDX, bits 23:16 (30_encoding.md R81). -/
def idxField (w : Word32) : Idx := w.extractLsb' 16 8

/-- F1, bit 1 (30_encoding.md R81). -/
def f1Field (w : Word32) : Bool := w.getLsbD 1

/-- F0, bit 0 (30_encoding.md R81). -/
def f0Field (w : Word32) : Bool := w.getLsbD 0

/-- Why a command word is ILLEGAL (60_exceptions.md R303): its OP has no row, or a field its command does not use is not 0. -/
inductive DecodeError where
  | unassignedOpcode (op : BitVec 6)
  | unusedFieldSet (op : BitVec 6)
deriving DecidableEq, Repr

/-- The test `(w AND mask) = match` of 30_encoding.md R86 for one row of the opcode map. -/
def decodeRow (w mask pattern : Word32) (i : Instr) : Except DecodeError Instr :=
  if w &&& mask = pattern then .ok i else .error (.unusedFieldSet (opField w))

/-- The opcode map of 30_encoding.md R85, row by row: OP, match and mask as the table prints them. -/
def decode (c : CmdWords) : Except DecodeError Instr :=
  let w := c.word
  let d := domField w
  let x := idxField w
  let f0 := f0Field w
  let f1 := f1Field w
  match (opField w).toNat with
  | 0x00 => decodeRow w 0xFFFFFFFF#32 0x00000000#32 .nop
  | 0x01 => decodeRow w 0xFC00FFFE#32 0x04000000#32 (.setIrq d x f0 c.a)
  | 0x02 => decodeRow w 0xFC00FFFE#32 0x08000000#32 (.setNmi d x f0 c.a)
  | 0x03 => decodeRow w 0xFCFFFFFF#32 0x0C000000#32 (.triggerReset d)
  | 0x04 => decodeRow w 0xFCFFFFFF#32 0x10000000#32 (.ackReset d)
  | 0x05 => decodeRow w 0xFCFFFFFF#32 0x14000000#32 (.triggerTrap d c.a)
  | 0x06 => decodeRow w 0xFCFFFFFF#32 0x18000000#32 (.ackTrap d)
  | 0x07 => decodeRow w 0xFCFFFFFF#32 0x1C000000#32 (.checkPending d)
  | 0x08 => decodeRow w 0xFCFFFFFF#32 0x20000000#32 (.ackNmi d)
  | 0x09 => decodeRow w 0xFCFFFFFF#32 0x24000000#32 (.triggerMonitor d)
  | 0x0A => decodeRow w 0xFCFFFFFF#32 0x28000000#32 (.ackMonitor d)
  | 0x0B => decodeRow w 0xFCFFFFFF#32 0x2C000000#32 (.triggerDma d)
  | 0x0C => decodeRow w 0xFCFFFFFF#32 0x30000000#32 (.ackDma d)
  | 0x0D => decodeRow w 0xFCFFFFFF#32 0x34000000#32 (.readCounts d)
  | 0x0E => decodeRow w 0xFCFFFFFF#32 0x38000000#32 (.readSigclk d)
  | 0x0F => decodeRow w 0xFC00FFFF#32 0x3C000000#32 (.readSrc d x)
  | 0x10 => decodeRow w 0xFCFFFFFC#32 0x40000000#32 (.checkIrqDelay d f0 f1 c.a)
  | 0x11 => decodeRow w 0xFCFFFFFE#32 0x44000000#32 (.checkNmiDelay d f0 c.a)
  | 0x12 => decodeRow w 0xFCFFFFFF#32 0x48000000#32 (.steal d c.a c.b)
  | 0x13 => decodeRow w 0xFCFFFFFF#32 0x4C000000#32 (.readSteal d)
  | 0x18 => decodeRow w 0xFC00FFFF#32 0x60000000#32 (.alarmSchedule d x c.a)
  | 0x19 => decodeRow w 0xFC00FFFF#32 0x64000000#32 (.alarmCancel d x)
  | 0x1A => decodeRow w 0xFCFFFFFF#32 0x68000000#32 (.alarmNextDue d)
  | 0x1B => decodeRow w 0xFCFFFFFF#32 0x6C000000#32 (.alarmServeNext d)
  | 0x1C => decodeRow w 0xFC00FFFF#32 0x70000000#32 (.alarmRead d x)
  | 0x20 => decodeRow w 0xFCFFFFFF#32 0x80000000#32 (.bridgeSetRatio d c.a)
  | 0x21 => decodeRow w 0xFCFFFFFF#32 0x84000000#32 (.bridgeAdvance d c.a)
  | 0x22 => decodeRow w 0xFCFFFFFF#32 0x88000000#32 (.bridgeLookup d c.a)
  | 0x23 => decodeRow w 0xFCFFFFFF#32 0x8C000000#32 (.bridgeRead d)
  | 0x28 => decodeRow w 0xFCFFFFFF#32 0xA0000000#32 (.clkAdvance d c.a)
  | 0x29 => decodeRow w 0xFCFFFFFF#32 0xA4000000#32 (.clkRead d)
  | 0x2A => decodeRow w 0xFCFFFFFF#32 0xA8000000#32 (.preventOverflow d)
  | 0x30 => decodeRow w 0xFFFFFFFF#32 0xC0000000#32 .snapSave
  | 0x31 => decodeRow w 0xFFFFFFFF#32 0xC4000000#32 .snapLoad
  | _ => .error (.unassignedOpcode (opField w))

/-- A command carried as one number: the command word in bits 31:0, A in bits 95:32, B in bits 159:96. -/
def wordsOfNat (n : Nat) : CmdWords :=
  { word := BitVec.ofNat 32 n, a := BitVec.ofNat 64 (n >>> 32), b := BitVec.ofNat 64 (n >>> 96) }

/-- The instruction the decoder reads from the `nbits` low bits of `w`, every bit above them being 0. -/
def decodeTableWord (nbits w : Nat) : Option Instr :=
  match decode (wordsOfNat (w % 2 ^ nbits)) with
  | .ok i => some i
  | .error _ => none

/-- The pattern string of 30_encoding.md R81: OP, DOM, IDX, fourteen reserved zeros, F1, F0. -/
def commandWord (op : BitVec 6) (d : DomId) (x : Idx) (f1 f0 : Bool) : Word32 :=
  op ++ d ++ x ++ 0#14 ++ BitVec.ofBool f1 ++ BitVec.ofBool f0

/-- The command word of an instruction (30_encoding.md R85, R89); an unused field is 0 (R82). -/
def encodeWord : Instr → Word32
  | .nop => commandWord 0x00#6 0 0 false false
  | .setIrq d x on _ => commandWord 0x01#6 d x false on
  | .setNmi d x on _ => commandWord 0x02#6 d x false on
  | .triggerReset d => commandWord 0x03#6 d 0 false false
  | .ackReset d => commandWord 0x04#6 d 0 false false
  | .triggerTrap d _ => commandWord 0x05#6 d 0 false false
  | .ackTrap d => commandWord 0x06#6 d 0 false false
  | .checkPending d => commandWord 0x07#6 d 0 false false
  | .ackNmi d => commandWord 0x08#6 d 0 false false
  | .triggerMonitor d => commandWord 0x09#6 d 0 false false
  | .ackMonitor d => commandWord 0x0A#6 d 0 false false
  | .triggerDma d => commandWord 0x0B#6 d 0 false false
  | .ackDma d => commandWord 0x0C#6 d 0 false false
  | .readCounts d => commandWord 0x0D#6 d 0 false false
  | .readSigclk d => commandWord 0x0E#6 d 0 false false
  | .readSrc d x => commandWord 0x0F#6 d x false false
  | .checkIrqDelay d br ie _ => commandWord 0x10#6 d 0 ie br
  | .checkNmiDelay d br _ => commandWord 0x11#6 d 0 false br
  | .steal d _ _ => commandWord 0x12#6 d 0 false false
  | .readSteal d => commandWord 0x13#6 d 0 false false
  | .alarmSchedule d h _ => commandWord 0x18#6 d h false false
  | .alarmCancel d h => commandWord 0x19#6 d h false false
  | .alarmNextDue d => commandWord 0x1A#6 d 0 false false
  | .alarmServeNext d => commandWord 0x1B#6 d 0 false false
  | .alarmRead d h => commandWord 0x1C#6 d h false false
  | .bridgeSetRatio b _ => commandWord 0x20#6 b 0 false false
  | .bridgeAdvance b _ => commandWord 0x21#6 b 0 false false
  | .bridgeLookup b _ => commandWord 0x22#6 b 0 false false
  | .bridgeRead b => commandWord 0x23#6 b 0 false false
  | .clkAdvance d _ => commandWord 0x28#6 d 0 false false
  | .clkRead d => commandWord 0x29#6 d 0 false false
  | .preventOverflow d => commandWord 0x2A#6 d 0 false false
  | .snapSave => commandWord 0x30#6 0 0 false false
  | .snapLoad => commandWord 0x31#6 0 0 false false

/-- Operand word A of an instruction; absent, it assembles as 0 (30_encoding.md R89). -/
def operandA : Instr → Word64
  | .setIrq _ _ _ t | .setNmi _ _ _ t | .triggerTrap _ t | .checkIrqDelay _ _ _ t | .checkNmiDelay _ _ t
  | .steal _ t _ | .alarmSchedule _ _ t | .bridgeSetRatio _ t | .bridgeAdvance _ t | .bridgeLookup _ t
  | .clkAdvance _ t => t
  | .nop | .triggerReset _ | .ackReset _ | .ackTrap _ | .checkPending _ | .ackNmi _ | .triggerMonitor _
  | .ackMonitor _ | .triggerDma _ | .ackDma _ | .readCounts _ | .readSigclk _ | .readSrc _ _ | .readSteal _
  | .alarmCancel _ _ | .alarmNextDue _ | .alarmServeNext _ | .alarmRead _ _ | .bridgeRead _ | .clkRead _
  | .preventOverflow _ | .snapSave | .snapLoad => 0

/-- Operand word B of an instruction: only STEAL has one (30_encoding.md R83); absent, it assembles as 0 (R89). -/
def operandB : Instr → Word64
  | .steal _ _ count => count
  | .nop | .setIrq _ _ _ _ | .setNmi _ _ _ _ | .triggerReset _ | .ackReset _ | .triggerTrap _ _ | .ackTrap _
  | .checkPending _ | .ackNmi _ | .triggerMonitor _ | .ackMonitor _ | .triggerDma _ | .ackDma _ | .readCounts _
  | .readSigclk _ | .readSrc _ _ | .checkIrqDelay _ _ _ _ | .checkNmiDelay _ _ _ | .readSteal _
  | .alarmSchedule _ _ _ | .alarmCancel _ _ | .alarmNextDue _ | .alarmServeNext _ | .alarmRead _ _
  | .bridgeSetRatio _ _ | .bridgeAdvance _ _ | .bridgeLookup _ _ | .bridgeRead _ | .clkAdvance _ _ | .clkRead _
  | .preventOverflow _ | .snapSave | .snapLoad => 0

/-- The words of an instruction. -/
def encode (i : Instr) : CmdWords := { word := encodeWord i, a := operandA i, b := operandB i }

/-- The expansion of a pseudo-instruction (30_encoding.md R90). -/
def Pseudo.expand : Pseudo → Instr
  | .irqOn d s t => .setIrq d s true t
  | .irqOff d s t => .setIrq d s false t
  | .nmiOn d s t => .setNmi d s true t
  | .nmiOff d s t => .setNmi d s false t
  | .alarmUnset d h => .alarmCancel d h
  | .clkTick d => .clkAdvance d 1#64
  | .checkIrq d t => .checkIrqDelay d false false t
  | .checkNmi d t => .checkNmiDelay d false t

/-- `d<n>`, `s<n>`, `h<n>` and value operands of the assembly syntax (30_encoding.md R89), values in decimal. -/
def asmDom (d : DomId) : String := "d" ++ toString d.toNat

def asmSrc (s : Idx) : String := "s" ++ toString s.toNat

def asmHandler (h : Idx) : String := "h" ++ toString h.toNat

def asmValue (v : Word64) : String := toString v.toNat

/-- A flag keyword with its comma, where the flag is 1 (30_encoding.md R89). -/
def asmFlag (keyword : String) (f : Bool) : String := if f then ", " ++ keyword else ""

def asmLevel (on : Bool) : String := if on then "on" else "off"

/-- The assembly line of an instruction (30_encoding.md R89). -/
def asmText : Instr → String
  | .nop => "nop"
  | .setIrq d s on t => "set_irq " ++ asmDom d ++ ", " ++ asmSrc s ++ ", " ++ asmLevel on ++ ", " ++ asmValue t
  | .setNmi d s on t => "set_nmi " ++ asmDom d ++ ", " ++ asmSrc s ++ ", " ++ asmLevel on ++ ", " ++ asmValue t
  | .triggerReset d => "trigger_reset " ++ asmDom d
  | .ackReset d => "ack_reset " ++ asmDom d
  | .triggerTrap d tok => "trigger_trap " ++ asmDom d ++ ", " ++ asmValue tok
  | .ackTrap d => "ack_trap " ++ asmDom d
  | .checkPending d => "check_pending " ++ asmDom d
  | .ackNmi d => "ack_nmi " ++ asmDom d
  | .triggerMonitor d => "trigger_monitor " ++ asmDom d
  | .ackMonitor d => "ack_monitor " ++ asmDom d
  | .triggerDma d => "trigger_dma " ++ asmDom d
  | .ackDma d => "ack_dma " ++ asmDom d
  | .readCounts d => "read_counts " ++ asmDom d
  | .readSigclk d => "read_sigclk " ++ asmDom d
  | .readSrc d s => "read_src " ++ asmDom d ++ ", " ++ asmSrc s
  | .checkIrqDelay d br ie t =>
      "check_irq_delay " ++ asmDom d ++ ", " ++ asmValue t ++ asmFlag "br" br ++ asmFlag "ie" ie
  | .checkNmiDelay d br t => "check_nmi_delay " ++ asmDom d ++ ", " ++ asmValue t ++ asmFlag "br" br
  | .steal d start count => "steal " ++ asmDom d ++ ", " ++ asmValue start ++ ", " ++ asmValue count
  | .readSteal d => "read_steal " ++ asmDom d
  | .alarmSchedule d h t => "alarm_schedule " ++ asmDom d ++ ", " ++ asmHandler h ++ ", " ++ asmValue t
  | .alarmCancel d h => "alarm_cancel " ++ asmDom d ++ ", " ++ asmHandler h
  | .alarmNextDue d => "alarm_next_due " ++ asmDom d
  | .alarmServeNext d => "alarm_serve_next " ++ asmDom d
  | .alarmRead d h => "alarm_read " ++ asmDom d ++ ", " ++ asmHandler h
  | .bridgeSetRatio b r => "bridge_set_ratio " ++ asmDom b ++ ", " ++ asmValue r
  | .bridgeAdvance b n => "bridge_advance " ++ asmDom b ++ ", " ++ asmValue n
  | .bridgeLookup b n => "bridge_lookup " ++ asmDom b ++ ", " ++ asmValue n
  | .bridgeRead b => "bridge_read " ++ asmDom b
  | .clkAdvance d n => "clk_advance " ++ asmDom d ++ ", " ++ asmValue n
  | .clkRead d => "clk_read " ++ asmDom d
  | .preventOverflow d => "prevent_overflow " ++ asmDom d
  | .snapSave => "snap_save"
  | .snapLoad => "snap_load"

end Sys2Proof
end

