-- ==== Sys2Proof/Machine/Inputs.lean ====
section
/-! DEFINITION. Taking the next input from the hosts (30_encoding.md R80): accepting a command, an illegal word, and the two reset
inputs (70_reset_and_hazards.md R340). -/

namespace Sys2Proof.Machine

/-- The state in which an accepted command runs: its input is gone from the queue, and its image stands on the snapshot port. -/
def acceptCommand (s : State) (image : SnapImage) (rest : List Input) : State :=
  { s with inputs := rest, snapIn := image }

/-- An illegal word (60_exceptions.md R303): ILLEGAL, and nothing else. -/
def illegalWord (s : State) : State := reject s .illegal

/-- `por` (70_reset_and_hazards.md R340, R345): every element at its power-on value; the parameters stand, and so do the inputs still
to come. -/
def powerOnReset (s : State) (rest : List Input) : State := { State.powerOn s.cfg with inputs := rest }

/-- A domain after its RESET (10_state.md R44, last column; R341 to R344). -/
def resetDomain (c : Config) (D : Domain) : Domain :=
  { D with clk := c.resetClk, src := List.replicate c.nSrc 0#2, nirq := 0, nnmi := 0, irqClk := 0, nmiClk := 0
           pend := pendAfterReset D.pend, trapTok := 0#32, stealStart := 0, stealLen := 0
           due := match c.resetAlarmPolicy with
                  | .cancel => List.replicate c.nAlarm c.inf
                  | .keep => D.due
           minTick := match c.resetAlarmPolicy with
                      | .cancel => c.inf
                      | .keep => D.minTick
           minId := match c.resetAlarmPolicy with
                    | .cancel => noHandler
                    | .keep => D.minId }

/-- `rst[d]` (70_reset_and_hazards.md R340): domain d alone, and no status; there is no such input at or above N_DOM (log 6). -/
def pulseReset (s : State) (d : DomId) (rest : List Input) : State :=
  if d.toNat < s.cfg.nDom then
    { s.setDom d (resetDomain s.cfg (s.dom d)) with inputs := rest, resp := none }
  else { s with inputs := rest }

end Sys2Proof.Machine
end

