-- ==== Sys2Proof/Machine/Step.lean ====
section
/-! DEFINITION. One step of the block: the next input of the hosts, performed to completion (00_scope.md R16). -/

namespace Sys2Proof.Machine

/-- One step. A configuration that breaks 00_scope.md R8 is refused. With no input presented the block holds its state
(60_exceptions.md R324). An undecodable word answers ILLEGAL (R303); any other command runs. -/
def step (s : State) : Host.Outcome State Fault Refusal :=
  if configLegal s.cfg then
    match s.inputs with
    | [] => .next s
    | .por :: rest => .next (powerOnReset s rest)
    | .rst d :: rest => .next (pulseReset s d rest)
    | .command c image :: rest =>
      match decode c with
      | .error _ => .next (illegalWord (acceptCommand s image rest))
      | .ok i => exec i (acceptCommand s image rest)
  else .refused .illegalConfig

/-- `s` with one command, carried as the number `w` of `nbits` bits, presented before all other inputs; the snapshot port keeps the
image it shows (log 3). -/
def State.withFetchWord (s : State) (nbits w : Nat) : State :=
  { s with inputs := .command (wordsOfNat (w % 2 ^ nbits)) s.snapIn :: s.inputs }

end Sys2Proof.Machine
end

