-- ==== Sys2Proof/WellFormed.lean ====
section
/-! DEFINITION. Which commands are in range under a configuration: the conditions of 60_exceptions.md R304, negated, instruction by
instruction. An instruction that is not well formed is a legal word whose command answers RANGE. -/

namespace Sys2Proof

/-- The domain a command names, and whether it names it as a bridge (30_encoding.md R86: OP 0x20 to 0x23). -/
inductive Target where
  | whole
  | domain (d : DomId)
  | bridge (b : DomId)
deriving DecidableEq, Repr

/-- What a command's DOM field names (30_encoding.md R85). -/
def Instr.target : Instr → Target
  | .nop | .snapSave | .snapLoad => .whole
  | .setIrq d _ _ _ | .setNmi d _ _ _ | .triggerReset d | .ackReset d | .triggerTrap d _ | .ackTrap d
  | .checkPending d | .ackNmi d | .triggerMonitor d | .ackMonitor d | .triggerDma d | .ackDma d
  | .readCounts d | .readSigclk d | .readSrc d _ | .checkIrqDelay d _ _ _ | .checkNmiDelay d _ _
  | .steal d _ _ | .readSteal d | .alarmSchedule d _ _ | .alarmCancel d _ | .alarmNextDue d
  | .alarmServeNext d | .alarmRead d _ | .clkAdvance d _ | .clkRead d | .preventOverflow d => .domain d
  | .bridgeSetRatio b _ | .bridgeAdvance b _ | .bridgeLookup b _ | .bridgeRead b => .bridge b

/-- DOM below N_DOM, and at least 1 for a bridge command (60_exceptions.md R304). -/
def Target.inRange (c : Config) : Target → Bool
  | .whole => true
  | .domain d => decide (d.toNat < c.nDom)
  | .bridge b => decide (1 ≤ b.toNat) && decide (b.toNat < c.nDom)

/-- IDX below N_SRC or N_ALARM, for the commands that take a source or a handler (60_exceptions.md R304). -/
def Instr.idxInRange (c : Config) : Instr → Bool
  | .setIrq _ src _ _ | .setNmi _ src _ _ | .readSrc _ src => decide (src.toNat < c.nSrc)
  | .alarmSchedule _ h _ | .alarmCancel _ h | .alarmRead _ h => decide (h.toNat < c.nAlarm)
  | .nop | .triggerReset _ | .ackReset _ | .triggerTrap _ _ | .ackTrap _ | .checkPending _ | .ackNmi _
  | .triggerMonitor _ | .ackMonitor _ | .triggerDma _ | .ackDma _ | .readCounts _ | .readSigclk _
  | .checkIrqDelay _ _ _ _ | .checkNmiDelay _ _ _ | .steal _ _ _ | .readSteal _ | .alarmNextDue _
  | .alarmServeNext _ | .bridgeSetRatio _ _ | .bridgeAdvance _ _ | .bridgeLookup _ _ | .bridgeRead _
  | .clkAdvance _ _ | .clkRead _ | .preventOverflow _ | .snapSave | .snapLoad => true

/-- The operand widths of 30_encoding.md R83, for the commands that read an operand. -/
def Instr.operandsInRange (c : Config) : Instr → Bool
  | .setIrq _ _ _ t | .setNmi _ _ _ t | .checkIrqDelay _ _ _ t | .checkNmiDelay _ _ t
  | .alarmSchedule _ _ t => decide (t.toNat < 2 ^ c.tickW)
  | .clkAdvance _ n | .bridgeAdvance _ n => decide (n.toNat < 2 ^ c.tickW)
  | .steal _ start count => decide (start.toNat < 2 ^ c.tickW) && decide (count.toNat < 2 ^ c.tickW)
  | .triggerTrap _ w | .bridgeSetRatio _ w => decide (w.toNat < 2 ^ 32)
  | .bridgeLookup _ n => decide (n.toNat ≤ c.maxBatch)
  | .nop | .triggerReset _ | .ackReset _ | .ackTrap _ | .checkPending _ | .ackNmi _ | .triggerMonitor _
  | .ackMonitor _ | .triggerDma _ | .ackDma _ | .readCounts _ | .readSigclk _ | .readSrc _ _ | .readSteal _
  | .alarmCancel _ _ | .alarmNextDue _ | .alarmServeNext _ | .alarmRead _ _ | .bridgeRead _ | .clkRead _
  | .preventOverflow _ | .snapSave | .snapLoad => true

/-- In range: no condition of 60_exceptions.md R304 holds. -/
def Instr.wellFormed (c : Config) (i : Instr) : Bool :=
  i.target.inRange c && i.idxInRange c && i.operandsInRange c

end Sys2Proof
end

