-- ==== Sys2Proof/Safety.lean ====
section
/-! DEFINITION. What counts as a good state and a good run, in the terms the statements use: the invariants of 10_state.md, the states a
host can bring the block to, the state a command ends in, and the tables of 60_exceptions.md R306 and 30_encoding.md R85 written as data. -/

namespace Sys2Proof.Machine

/-! ### Invariants (10_state.md) -/

/-- 10_state.md R39: the counts are the popcounts of the source bits. -/
abbrev CountsMatch (D : Domain) : Prop := D.nirq = countIrq D.src ∧ D.nnmi = countNmi D.src

/-- 10_state.md R40: the IRQ bit is pending exactly when a source asserts IRQ. -/
abbrev IrqBitMatches (D : Domain) : Prop := isPending D.pend .irq = decide (0 < D.nirq)

/-- 10_state.md R27: bits 7 and 6 of the pending word are never written. -/
abbrev PendReserved (D : Domain) : Prop := D.pend &&& 0xC0#8 = 0#8

/-- 10_state.md R22, R26, R29: the legal values of the clock, the signal ticks and the steal record. -/
abbrev TickBounds (c : Config) (D : Domain) : Prop :=
  D.clk ≤ c.clkMax ∧ D.irqClk ≤ c.clkMax ∧ D.nmiClk ≤ c.clkMax ∧ stealEnd D ≤ c.clkMax

/-- 10_state.md R23, R30: one register per source, one due tick of TICK_W bits per handler. -/
abbrev TablesSized (c : Config) (D : Domain) : Prop :=
  D.src.length = c.nSrc ∧ D.due.length = c.nAlarm ∧ ∀ t ∈ D.due, t ≤ c.inf

/-- 10_state.md R31, R41: either nothing is scheduled and the minimum is (INF, NONE), or the minimum is the least due tick and
`min_id` names an entry that holds it. -/
abbrev MinTracked (c : Config) (D : Domain) : Prop :=
  (D.minId = noHandler ∧ D.minTick = c.inf ∧ ∀ t ∈ D.due, t = c.inf)
    ∨ (D.minId ≠ noHandler ∧ D.minTick ≠ c.inf ∧ D.due[D.minId.toNat]? = some D.minTick
        ∧ ∀ t ∈ D.due, D.minTick ≤ t)

/-- Everything that holds of a domain in every state a run reaches. -/
abbrev DomainInv (c : Config) (D : Domain) : Prop :=
  CountsMatch D ∧ IrqBitMatches D ∧ PendReserved D ∧ TickBounds c D ∧ TablesSized c D ∧ MinTracked c D

/-- 10_state.md R33 to R35, R42: before a ratio is accepted the bridge holds none and its table is all zero; after, the ratio is from 1
to 0x7FFFFFFF and the table is its table. -/
abbrev BridgeInv (c : Config) (B : Bridge) : Prop :=
  (B.ratioValid = false → B.ratio = 0#32 ∧ B.tbl = [])
    ∧ (B.ratioValid = true → 1 ≤ B.ratio.toNat ∧ B.ratio.toNat < 2 ^ 31 ∧ B.tbl = buildTable c.maxBatch B.ratio)

/-- The invariant of the block: a legal configuration, every domain and bridge it has in order, and the copies it does not have as
after power-on (log 6). -/
def Inv (s : State) : Prop :=
  configLegal s.cfg = true
    ∧ (∀ d : DomId, d.toNat < s.cfg.nDom → DomainInv s.cfg (s.dom d))
    ∧ (∀ b : DomId, 1 ≤ b.toNat → b.toNat < s.cfg.nDom → BridgeInv s.cfg (s.bridge b))
    ∧ (∀ d : DomId, s.cfg.nDom ≤ d.toNat → s.dom d = Domain.powerOn s.cfg ∧ s.bridge d = Bridge.powerOn)

/-- The states the hosts can bring the block to: power-on under a legal configuration, then any inputs whatever, at any time
(20_memory.md R69). -/
inductive Reachable : State → Prop where
  | powerOn (c : Config) (h : configLegal c = true) : Reachable (State.powerOn c)
  | present (s : State) (ins : List Input) (h : Reachable s) : Reachable { s with inputs := ins }
  | step (s t : State) (h : Reachable s) (hs : step s = .next t) : Reachable t

/-! ### How a command ends -/

/-- The response of a command that ends with OK and the results R0 and R1. -/
def okResponse (r0 r1 : Word64) : Response := { status := .ok, r0 := r0, r1 := r1, fire := none, snap := none }

/-- The response of a rejected command (00_scope.md R13). -/
def rejectResponse (st : Status) : Response := { status := st, r0 := 0#64, r1 := 0#64, fire := none, snap := none }

/-- `s` with the response `r` on the response port and nothing else changed. -/
def State.showing (s : State) (r : Response) : State := { s with resp := some r }

/-- The commands of 20_memory.md R65 that write no state. -/
def writesNoState : Instr → Bool
  | .nop | .checkPending _ | .checkIrqDelay _ _ _ _ | .checkNmiDelay _ _ _ | .readCounts _ | .readSigclk _ | .readSrc _ _
  | .readSteal _ | .alarmNextDue _ | .alarmRead _ _ | .bridgeLookup _ _ | .bridgeRead _ | .clkRead _ | .snapSave => true
  | .setIrq _ _ _ _ | .setNmi _ _ _ _ | .triggerReset _ | .ackReset _ | .triggerTrap _ _ | .ackTrap _ | .ackNmi _
  | .triggerMonitor _ | .ackMonitor _ | .triggerDma _ | .ackDma _ | .steal _ _ _ | .alarmSchedule _ _ _ | .alarmCancel _ _
  | .alarmServeNext _ | .bridgeSetRatio _ _ | .bridgeAdvance _ _ | .clkAdvance _ _ | .preventOverflow _ | .snapLoad => false

/-- The status codes each command can return: the table of 60_exceptions.md R306, less ILLEGAL, which a word that decodes to a command
never returns. -/
def statusesOf : Instr → List Status
  | .nop | .snapSave => [.ok]
  | .snapLoad => [.ok, .snapshotRejected]
  | .setIrq _ _ _ _ | .setNmi _ _ _ _ => [.ok, .range, .consistency, .tickOverflow]
  | .triggerReset _ | .ackReset _ | .triggerTrap _ _ | .ackTrap _ | .checkPending _ | .ackNmi _ | .triggerMonitor _
  | .ackMonitor _ | .triggerDma _ | .ackDma _ | .readCounts _ | .readSigclk _ | .readSrc _ _ | .checkIrqDelay _ _ _ _
  | .checkNmiDelay _ _ _ | .readSteal _ => [.ok, .range]
  | .steal _ _ _ | .clkAdvance _ _ => [.ok, .range, .tickOverflow]
  | .alarmSchedule _ _ _ | .alarmCancel _ _ | .alarmNextDue _ | .alarmRead _ _ | .clkRead _ | .preventOverflow _
  | .bridgeRead _ => [.ok, .range]
  | .alarmServeNext _ => [.ok, .range, .consistency, .notDue]
  | .bridgeSetRatio _ _ => [.ok, .range, .configRejected]
  | .bridgeAdvance _ _ | .bridgeLookup _ _ => [.ok, .range, .noRatio]

/-! ### The overflow duty (70_reset_and_hazards.md R351) -/

/-- How far a command can move the clock of domain `d`. -/
def clockGrowth (d : DomId) : Instr → Nat
  | .steal e _ n | .clkAdvance e n => if e = d then n.toNat else 0
  | .nop | .setIrq _ _ _ _ | .setNmi _ _ _ _ | .triggerReset _ | .ackReset _ | .triggerTrap _ _ | .ackTrap _ | .checkPending _
  | .ackNmi _ | .triggerMonitor _ | .ackMonitor _ | .triggerDma _ | .ackDma _ | .readCounts _ | .readSigclk _ | .readSrc _ _
  | .checkIrqDelay _ _ _ _ | .checkNmiDelay _ _ _ | .readSteal _ | .alarmSchedule _ _ _ | .alarmCancel _ _ | .alarmNextDue _
  | .alarmServeNext _ | .alarmRead _ _ | .bridgeSetRatio _ _ | .bridgeAdvance _ _ | .bridgeLookup _ _ | .bridgeRead _ | .clkRead _
  | .preventOverflow _ | .snapSave | .snapLoad => 0

/-- Every tick operand that a command of domain `d` can store is at most `limit`; a due tick of INF is a cancel and no tick. -/
def ticksWithin (c : Config) (d : DomId) (limit : Nat) : Instr → Bool
  | .setIrq e _ _ t | .setNmi e _ _ t | .steal e t _ => decide (e ≠ d) || decide (t.toNat ≤ limit)
  | .alarmSchedule e _ t => decide (e ≠ d) || (decide (t.toNat = c.inf) || decide (t.toNat ≤ limit))
  | .nop | .triggerReset _ | .ackReset _ | .triggerTrap _ _ | .ackTrap _ | .checkPending _ | .ackNmi _ | .triggerMonitor _
  | .ackMonitor _ | .triggerDma _ | .ackDma _ | .readCounts _ | .readSigclk _ | .readSrc _ _ | .checkIrqDelay _ _ _ _
  | .checkNmiDelay _ _ _ | .readSteal _ | .alarmCancel _ _ | .alarmNextDue _ | .alarmServeNext _ | .alarmRead _ _
  | .bridgeSetRatio _ _ | .bridgeAdvance _ _ | .bridgeLookup _ _ | .bridgeRead _ | .clkAdvance _ _ | .clkRead _
  | .preventOverflow _ | .snapSave | .snapLoad => true

/-- Both signal ticks and every live due tick lie at most `g` after the clock. -/
abbrev TicksNearClock (c : Config) (g : Nat) (D : Domain) : Prop :=
  D.irqClk ≤ D.clk + g ∧ D.nmiClk ≤ D.clk + g ∧ ∀ t ∈ D.due, t = c.inf ∨ t ≤ D.clk + g

/-- Domain `d` between two rebases of a host that keeps the overflow duty with the growth `g`, of which `used` is spent. -/
abbrev WithinDuty (c : Config) (d : DomId) (g used : Nat) (D : Domain) : Prop :=
  D.clk ≤ c.hwm.get d + used ∧ TicksNearClock c g D ∧ stealEnd D ≤ D.clk + g

/-- A row of the opcode map: OP, match, mask (30_encoding.md R85). -/
structure OpcodeRow where
  op : BitVec 6
  pattern : Word32
  mask : Word32
deriving DecidableEq, Repr

/-- The masks of the opcode map (30_encoding.md R85): which fields of the word a command uses. -/
def maskDom : Word32 := 0xFCFFFFFF#32

def maskDomIdx : Word32 := 0xFC00FFFF#32

def maskDomIdxF0 : Word32 := 0xFC00FFFE#32

/-- The opcode map as data, written from 30_encoding.md R85 apart from the decoder. -/
def opcodeMap : List OpcodeRow :=
  [⟨0x00#6, 0x00000000#32, 0xFFFFFFFF#32⟩, ⟨0x01#6, 0x04000000#32, maskDomIdxF0⟩, ⟨0x02#6, 0x08000000#32, maskDomIdxF0⟩,
   ⟨0x03#6, 0x0C000000#32, maskDom⟩, ⟨0x04#6, 0x10000000#32, maskDom⟩, ⟨0x05#6, 0x14000000#32, maskDom⟩,
   ⟨0x06#6, 0x18000000#32, maskDom⟩, ⟨0x07#6, 0x1C000000#32, maskDom⟩, ⟨0x08#6, 0x20000000#32, maskDom⟩,
   ⟨0x09#6, 0x24000000#32, maskDom⟩, ⟨0x0A#6, 0x28000000#32, maskDom⟩, ⟨0x0B#6, 0x2C000000#32, maskDom⟩,
   ⟨0x0C#6, 0x30000000#32, maskDom⟩, ⟨0x0D#6, 0x34000000#32, maskDom⟩, ⟨0x0E#6, 0x38000000#32, maskDom⟩,
   ⟨0x0F#6, 0x3C000000#32, maskDomIdx⟩, ⟨0x10#6, 0x40000000#32, 0xFCFFFFFC#32⟩, ⟨0x11#6, 0x44000000#32, 0xFCFFFFFE#32⟩,
   ⟨0x12#6, 0x48000000#32, maskDom⟩, ⟨0x13#6, 0x4C000000#32, maskDom⟩]
  ++ [⟨0x18#6, 0x60000000#32, maskDomIdx⟩, ⟨0x19#6, 0x64000000#32, maskDomIdx⟩, ⟨0x1A#6, 0x68000000#32, maskDom⟩,
   ⟨0x1B#6, 0x6C000000#32, maskDom⟩, ⟨0x1C#6, 0x70000000#32, maskDomIdx⟩, ⟨0x20#6, 0x80000000#32, maskDom⟩,
   ⟨0x21#6, 0x84000000#32, maskDom⟩, ⟨0x22#6, 0x88000000#32, maskDom⟩, ⟨0x23#6, 0x8C000000#32, maskDom⟩,
   ⟨0x28#6, 0xA0000000#32, maskDom⟩, ⟨0x29#6, 0xA4000000#32, maskDom⟩, ⟨0x2A#6, 0xA8000000#32, maskDom⟩,
   ⟨0x30#6, 0xC0000000#32, 0xFFFFFFFF#32⟩, ⟨0x31#6, 0xC4000000#32, 0xFFFFFFFF#32⟩]

/-- A legal word (60_exceptions.md R303): some row has its OP, and it matches the row under the row's mask. -/
def legalWord (w : Word32) : Bool :=
  opcodeMap.any (fun r => decide (opField w = r.op) && decide (w &&& r.mask = r.pattern))

/-! ### Sequences of BRIDGE_ADVANCE (43_clock_domain_bridge.md R195) -/

/-- R0 of the last response. -/
def lastR0 (s : State) : Nat :=
  match s.resp with
  | some r => r.r0.toNat
  | none => 0

/-- BRIDGE_ADVANCE on bridge `b` for each count in turn: the sum of the results R0, and the last state. -/
def advanceAll (b : DomId) : List Word64 → State → Option (Nat × State)
  | [], s => some (0, s)
  | n :: ns, s =>
    match exec (.bridgeAdvance b n) s with
    | .next t =>
      match advanceAll b ns t with
      | some (m, u) => some (lastR0 t + m, u)
      | none => none
    | .fault _ => none
    | .refused _ => none

/-- The sum of the counts, as exact numbers. -/
def totalTicks (ns : List Word64) : Nat := (ns.map (fun n => n.toNat)).sum

end Sys2Proof.Machine
end

