-- ==== Sys2Proof/Certificates/Slice0/Obligations.lean ====
section
/-! DEFINITION. What is claimed of the model. Every clause `exec i s = .next (...)` gives the whole next state, so that it says both that
the command completes and that nothing else changes. -/

open Sys2Proof Sys2Proof.Machine

/-! ### Encoding and decoding -/

/-- 30_encoding.md R81 to R85: decoding the words of any command gives the command back. -/
def Obligations.DecodeOfEncode : Prop := ∀ i : Instr, decode (encode i) = .ok i

/-- 30_encoding.md R83, R85: a word has one meaning, and an operand word is either carried by the command or ignored. -/
def Obligations.EncodeOfDecode : Prop :=
  ∀ (c : CmdWords) (i : Instr), decode c = .ok i →
    (encode i).word = c.word
      ∧ ((encode i).a = c.a ∨ ∀ a, decode { c with a := a } = .ok i)
      ∧ ((encode i).b = c.b ∨ ∀ b, decode { c with b := b } = .ok i)

/-- 30_encoding.md R91: the worked encodings. -/
def Obligations.WorkedEncodingsDecode : Prop :=
  decode ⟨0x04030001#32, 100#64, 0#64⟩ = .ok (.setIrq 0#2 3#8 true 100#64)
    ∧ decode ⟨0x05000000#32, 7#64, 0#64⟩ = .ok (.setIrq 1#2 0#8 false 7#64)
    ∧ decode ⟨0x40000003#32, 102#64, 0#64⟩ = .ok (.checkIrqDelay 0#2 true true 102#64)
    ∧ decode ⟨0x61050000#32, 0x30#64, 0#64⟩ = .ok (.alarmSchedule 1#2 5#8 0x30#64)
    ∧ decode ⟨0x81000000#32, 0x18000#64, 0#64⟩ = .ok (.bridgeSetRatio 1#2 0x18000#64)
    ∧ (∀ a b, decode ⟨0x40010000#32, a, b⟩ = .error (.unusedFieldSet 0x10#6))
    ∧ (∀ a b, decode ⟨0x50000000#32, a, b⟩ = .error (.unassignedOpcode 0x14#6))

/-- 60_exceptions.md R303: the words the decoder refuses are exactly those that match no row of the opcode map, and such a word
answers ILLEGAL and changes nothing of the block; its image still passes over the snapshot port. -/
def Obligations.IllegalWordsRejected : Prop :=
  (∀ c : CmdWords, (∃ i, decode c = .ok i) ↔ legalWord c.word = true)
    ∧ ∀ (s : State) (c : CmdWords) (image : SnapImage) (rest : List Input),
        configLegal s.cfg = true → s.inputs = .command c image :: rest → legalWord c.word = false →
        step s = .next (State.showing { s with inputs := rest, snapIn := image } (rejectResponse .illegal))

/-! ### The step -/

/-- 00_scope.md R16, 30_encoding.md R80: a command that decodes runs to completion in one step. That the inputs stand in a queue of the
state, and that a word placed by `withFetchWord` runs at once in the state it was placed in, are the model's DESIGN CHOICE of log 3, not
words of R16 or R80. -/
def Obligations.StepRunsDecodedCommand : Prop :=
  (∀ (s : State) (c : CmdWords) (image : SnapImage) (rest : List Input) (i : Instr),
      configLegal s.cfg = true → s.inputs = .command c image :: rest → decode c = .ok i →
      step s = exec i { s with inputs := rest, snapIn := image })
    ∧ ∀ (s : State) (nbits w : Nat) (i : Instr),
        configLegal s.cfg = true → decodeTableWord nbits w = some i → step (s.withFetchWord nbits w) = exec i s

/-- 60_exceptions.md R324: with nothing presented the block holds its state. That a step may find nothing presented is the model's
form (log 3). -/
def Obligations.IdleHoldsState : Prop :=
  ∀ s : State, configLegal s.cfg = true → s.inputs = [] → step s = .next s

/-- 60_exceptions.md R307: every command answers a next state with a response; every step of a legally configured block answers a next
state that is legally configured and has the other inputs left; and there the next command runs by its own rule, whatever status the
last one ended with: its step is `exec` of it, or the reject ILLEGAL where its word decodes to none. -/
def Obligations.NoStatusStopsTheBlock : Prop :=
  (∀ (i : Instr) (s : State), ∃ t r, exec i s = .next t ∧ t.resp = some r ∧ t.cfg = s.cfg ∧ t.inputs = s.inputs)
    ∧ ∀ s : State, configLegal s.cfg = true → ∃ t, step s = .next t ∧ t.cfg = s.cfg ∧ t.inputs = s.inputs.tail
      ∧ ∀ (c : CmdWords) (image : SnapImage) (rest : List Input), t.inputs = .command c image :: rest →
          (∀ i, decode c = .ok i → step t = exec i { t with inputs := rest, snapIn := image })
            ∧ (∀ e, decode c = .error e →
                step t = .next (State.showing { t with inputs := rest, snapIn := image } (rejectResponse .illegal)))

/-- 00_scope.md R8: the legal values, parameter by parameter. That it is every step of a block configured otherwise that is refused, and
by the name `illegalConfig`, is the model's reading of log 2: R8 makes the check at configuration time. -/
def Obligations.IllegalConfigurationRefused : Prop :=
  (∀ c : Config, configLegal c = true ↔
      ((16 ≤ c.tickW ∧ c.tickW ≤ 48) ∧ (2 ≤ c.nDom ∧ c.nDom ≤ 4) ∧ (1 ≤ c.nSrc ∧ c.nSrc ≤ 256)
        ∧ (1 ≤ c.nAlarm ∧ c.nAlarm ≤ 255) ∧ c.detectDelay ≤ 15 ∧ (1 ≤ c.maxBatch ∧ c.maxBatch ≤ 65535)
        ∧ (∀ d : DomId, d.toNat < c.nDom →
            1 ≤ c.hwm.get d ∧ c.hwm.get d ≤ c.clkMax ∧ 1 ≤ c.ovfSub.get d ∧ c.ovfSub.get d ≤ c.hwm.get d)
        ∧ c.resetClk ≤ c.clkMax))
    ∧ ∀ s : State, configLegal s.cfg = false → step s = .refused .illegalConfig

/-! ### Reset -/

/-- 70_reset_and_hazards.md R345: after `por` every element has its power-on value, and the parameters stand. -/
def Obligations.PowerOnResetSetsEverything : Prop :=
  ∀ (s : State) (rest : List Input), configLegal s.cfg = true → s.inputs = .por :: rest →
    ∃ t, step s = .next t ∧ t.cfg = s.cfg
      ∧ (∀ d : DomId, d.toNat < s.cfg.nDom →
          (t.dom d).clk = 0 ∧ (t.dom d).nirq = 0 ∧ (t.dom d).nnmi = 0 ∧ (t.dom d).irqClk = 0 ∧ (t.dom d).nmiClk = 0
            ∧ (t.dom d).stealStart = 0 ∧ (t.dom d).stealLen = 0 ∧ (t.dom d).trapTok = 0#32 ∧ (t.dom d).pend = 0#8
            ∧ (∀ x : Idx, x.toNat < s.cfg.nSrc → (t.dom d).src[x.toNat]? = some 0#2)
            ∧ (∀ h : Idx, h.toNat < s.cfg.nAlarm → (t.dom d).due[h.toNat]? = some s.cfg.inf)
            ∧ (t.dom d).minTick = s.cfg.inf ∧ (t.dom d).minId = 0xFF#8
            ∧ (t.dom d).cerr = false ∧ (t.dom d).fault = false)
      ∧ ∀ b : DomId, 1 ≤ b.toNat → b.toNat < s.cfg.nDom →
          (t.bridge b).ratioValid = false ∧ (t.bridge b).ratio = 0#32 ∧ (t.bridge b).carry = 0#16
            ∧ ∀ n, n ≤ s.cfg.maxBatch → (t.bridge b).entry n = ⟨0#32, 0#16⟩

/-- 70_reset_and_hazards.md R341 to R344: what `rst[d]` loads, what it keeps, and that R39 and R40 hold right after it. -/
def Obligations.ResetOfOneDomain : Prop :=
  ∀ (s : State) (d : DomId) (rest : List Input),
    configLegal s.cfg = true → s.inputs = .rst d :: rest → d.toNat < s.cfg.nDom →
    ∃ t, step s = .next t ∧ t.cfg = s.cfg
      ∧ (t.dom d).clk = s.cfg.resetClk ∧ (t.dom d).irqClk = 0 ∧ (t.dom d).nmiClk = 0
      ∧ (t.dom d).stealStart = 0 ∧ (t.dom d).stealLen = 0
      ∧ (s.cfg.resetAlarmPolicy = .cancel →
          (∀ h : Idx, h.toNat < s.cfg.nAlarm → (t.dom d).due[h.toNat]? = some s.cfg.inf)
            ∧ (t.dom d).due.length = s.cfg.nAlarm ∧ (t.dom d).minTick = s.cfg.inf ∧ (t.dom d).minId = 0xFF#8)
      ∧ (s.cfg.resetAlarmPolicy = .keep →
          (t.dom d).due = (s.dom d).due ∧ (t.dom d).minTick = (s.dom d).minTick ∧ (t.dom d).minId = (s.dom d).minId)
      ∧ (t.dom d).pend = (s.dom d).pend &&& 0x10#8
      ∧ (∀ x : Idx, x.toNat < s.cfg.nSrc → (t.dom d).src[x.toNat]? = some 0#2)
      ∧ (t.dom d).nirq = 0 ∧ (t.dom d).nnmi = 0 ∧ (t.dom d).trapTok = 0#32
      ∧ CountsMatch (t.dom d) ∧ IrqBitMatches (t.dom d)
      ∧ (t.dom d).cerr = (s.dom d).cerr ∧ (t.dom d).fault = (s.dom d).fault
      ∧ (∀ e : DomId, e ≠ d → t.dom e = s.dom e) ∧ t.bridges = s.bridges

/-! ### Invariants -/

/-- Every command and every step keeps the invariant of the block: 10_state.md R39 to R42, the legal values of R22 to R36, the sizes of
the tables, and the reserved bits. The clause on copies the block does not have is the model's (log 6). -/
def Obligations.EveryStepKeepsInvariant : Prop :=
  ∀ s t : State, Inv s → step s = .next t → Inv t

/-- The invariant holds right after power-on under every legal configuration, and at the machine's reset state. -/
def Obligations.InvariantHoldsAtPowerOn : Prop :=
  (∀ c : Config, configLegal c = true → Inv (State.powerOn c)) ∧ Inv State.reset

/-- 10_state.md R39 to R42, as they stand, in every state the hosts can bring the block to, with the witness that R40's form for NMI
does not hold. -/
def Obligations.ReachableStatesAreConsistent : Prop :=
  (∀ s : State, Reachable s →
    (∀ d : DomId, d.toNat < s.cfg.nDom →
        (s.dom d).nirq = countIrq (s.dom d).src ∧ (s.dom d).nnmi = countNmi (s.dom d).src
          ∧ ((s.dom d).pend.getLsbD 1 = true ↔ 0 < (s.dom d).nirq)
          ∧ ((∃ t ∈ (s.dom d).due, t ≠ s.cfg.inf) →
              (∀ t ∈ (s.dom d).due, (s.dom d).minTick ≤ t) ∧ (s.dom d).due[(s.dom d).minId.toNat]? = some (s.dom d).minTick)
          ∧ ((∀ t ∈ (s.dom d).due, t = s.cfg.inf) → (s.dom d).minTick = s.cfg.inf ∧ (s.dom d).minId = 0xFF#8))
      ∧ ∀ b : DomId, 1 ≤ b.toNat → b.toNat < s.cfg.nDom → (s.bridge b).ratioValid = true →
          (s.bridge b).carry.toNat < 65536
            ∧ ∀ n, n ≤ s.cfg.maxBatch →
                ((s.bridge b).entry n).ip.toNat = n * (s.bridge b).ratio.toNat / 65536
                  ∧ ((s.bridge b).entry n).fp.toNat = n * (s.bridge b).ratio.toNat % 65536)
    ∧ ∃ s : State, Reachable s ∧ (s.dom 0#2).pend.getLsbD 0 = true ∧ (s.dom 0#2).nnmi = 0

/-! ### Statuses -/

/-- 60_exceptions.md R304: a command with a field or operand out of range answers RANGE and changes nothing; one in range never
answers RANGE. -/
def Obligations.OutOfRangeRejected : Prop :=
  ∀ (i : Instr) (s : State),
    (i.wellFormed s.cfg = false → exec i s = .next (s.showing (rejectResponse .range)))
      ∧ (i.wellFormed s.cfg = true → ∃ t r, exec i s = .next t ∧ t.resp = some r ∧ r.status ≠ .range)

/-- 60_exceptions.md R306: a word that decodes to a command answers only that command's codes, and never ILLEGAL; a word that does
not decode answers ILLEGAL. -/
def Obligations.StatusesOfEachCommand : Prop :=
  ∀ (s : State) (c : CmdWords) (image : SnapImage) (rest : List Input),
    configLegal s.cfg = true → s.inputs = .command c image :: rest →
    ∃ t r, step s = .next t ∧ t.resp = some r
      ∧ (∀ i, decode c = .ok i → r.status ∈ statusesOf i) ∧ (∀ e, decode c = .error e → r.status = .illegal)

/-- 60_exceptions.md R301: CONSISTENCY sets the sticky bit `cerr` of the command's domain, TICK_OVERFLOW its `fault`, no other status
sets either, nothing clears them, and a reject, ILLEGAL among them, leaves the block as it was. -/
def Obligations.StickyBitsAndRejects : Prop :=
  (∀ (i : Instr) (s t : State) (r : Response), exec i s = .next t → t.resp = some r →
    (r.status = .consistency → ∃ d, i.target = .domain d ∧ (t.dom d).cerr = true ∧ (t.dom d).fault = (s.dom d).fault
        ∧ ∀ e, e ≠ d → t.dom e = s.dom e)
      ∧ (r.status = .tickOverflow → ∃ d, i.target = .domain d ∧ (t.dom d).fault = true ∧ (t.dom d).cerr = (s.dom d).cerr
        ∧ ∀ e, e ≠ d → t.dom e = s.dom e)
      ∧ (r.status ≠ .consistency → r.status ≠ .tickOverflow →
          ∀ e, (t.dom e).cerr = (s.dom e).cerr ∧ (t.dom e).fault = (s.dom e).fault)
      ∧ (r.status ∈ [.range, .notDue, .noRatio, .configRejected, .snapshotRejected] →
          t = s.showing (rejectResponse r.status)))
    ∧ ∀ (s : State) (c : CmdWords) (image : SnapImage) (rest : List Input),
        configLegal s.cfg = true → s.inputs = .command c image :: rest → legalWord c.word = false →
        step s = .next (State.showing { s with inputs := rest, snapIn := image } (rejectResponse .illegal))

/-- 60_exceptions.md R302: a command that ends TICK_OVERFLOW is one of four, writes `fault[d]` alone, and returns R0 = R1 = 0. -/
def Obligations.TickOverflowWritesFaultAlone : Prop :=
  ∀ (i : Instr) (s t : State) (r : Response), exec i s = .next t → t.resp = some r → r.status = .tickOverflow →
    ∃ d, t = (s.setDom d { s.dom d with fault := true }).showing (rejectResponse .tickOverflow)
      ∧ ((∃ x u, i = .setIrq d x true u) ∨ (∃ x u, i = .setNmi d x true u)
          ∨ (∃ u n, i = .steal d u n) ∨ ∃ n, i = .clkAdvance d n)

/-- 20_memory.md R75, 41_interrupt_line_set.md R100, 42_alarm_queue.md R168, 43_clock_domain_bridge.md R196: a command of one domain
touches that domain alone, and a bridge command its bridge alone. -/
def Obligations.CommandsStayInTheirDomain : Prop :=
  ∀ (i : Instr) (s t : State), exec i s = .next t →
    (∀ d, i.target = .domain d → t.bridges = s.bridges ∧ ∀ e, e ≠ d → t.dom e = s.dom e)
      ∧ (∀ b, i.target = .bridge b → t.domains = s.domains ∧ ∀ e, e ≠ b → t.bridge e = s.bridge e)

/-- 20_memory.md R65: the commands that write no state leave the whole block as it was, and issued twice return the same twice. -/
def Obligations.ReadCommandsWriteNothing : Prop :=
  ∀ (i : Instr) (s : State), writesNoState i = true →
    ∃ r, exec i s = .next (s.showing r) ∧ exec i (s.showing r) = .next (s.showing r)

/-! ### Interrupt lines (41_interrupt_line_set.md) -/

/-- R101: setting a line to the level it has changes nothing and ends with OK. -/
def Obligations.SettingTheSameLevelChangesNothing : Prop :=
  ∀ (s : State) (d : DomId) (x : Idx) (on : Bool) (t : Word64),
    d.toNat < s.cfg.nDom → x.toNat < s.cfg.nSrc → t.toNat < 2 ^ s.cfg.tickW →
    (irqBit ((s.dom d).srcAt x) = on → exec (.setIrq d x on t) s = .next (s.showing (okResponse 0#64 0#64)))
      ∧ (nmiBit ((s.dom d).srcAt x) = on → exec (.setNmi d x on t) s = .next (s.showing (okResponse 0#64 0#64)))

/-- R102, R104: an IRQ rise counts, becomes pending, and records the signal tick, moved to the end of the steal window where it falls
before it; a signal tick above CLK_MAX faults; under FIRST_RISE a rise of the held line records nothing. -/
def Obligations.SetIrqAssertion : Prop :=
  ∀ (s : State) (d : DomId) (x : Idx) (t : Word64),
    d.toNat < s.cfg.nDom → x.toNat < s.cfg.nSrc → t.toNat < 2 ^ s.cfg.tickW → irqBit ((s.dom d).srcAt x) = false →
    let D := s.dom d
    let fin := D.stealStart + D.stealLen
    let sig := if t.toNat < fin then fin - 1 else t.toNat
    let D1 : Domain := { D with src := D.src.set x.toNat (D.srcAt x ||| 0b10#2), nirq := D.nirq + 1, pend := D.pend ||| 0x02#8 }
    (s.cfg.irqClkPolicy = .everyRise ∨ D.nirq = 0 → sig ≤ s.cfg.clkMax →
        exec (.setIrq d x true t) s = .next ((s.setDom d { D1 with irqClk := sig }).showing (okResponse 0#64 0#64)))
      ∧ (s.cfg.irqClkPolicy = .everyRise ∨ D.nirq = 0 → s.cfg.clkMax < sig →
        exec (.setIrq d x true t) s = .next ((s.setDom d { D with fault := true }).showing (rejectResponse .tickOverflow)))
      ∧ (s.cfg.irqClkPolicy = .firstRise → D.nirq ≠ 0 →
        exec (.setIrq d x true t) s = .next ((s.setDom d D1).showing (okResponse 0#64 0#64)))

/-- R102: an IRQ release uncounts the source, and the IRQ bit goes with the last source. -/
def Obligations.SetIrqRelease : Prop :=
  ∀ (s : State) (d : DomId) (x : Idx) (t : Word64),
    d.toNat < s.cfg.nDom → x.toNat < s.cfg.nSrc → t.toNat < 2 ^ s.cfg.tickW → irqBit ((s.dom d).srcAt x) = true →
    (s.dom d).nirq ≠ 0 →
    let D := s.dom d
    exec (.setIrq d x false t) s = .next ((s.setDom d
      { D with src := D.src.set x.toNat (D.srcAt x &&& 0b01#2), nirq := D.nirq - 1
               pend := if D.nirq = 1 then D.pend &&& 0xFD#8 else D.pend }).showing (okResponse 0#64 0#64))

/-- R103: a release with the count at 0 is clamped, reported and remembered in `cerr`, for IRQ and for NMI; no state that a run
reaches has such a source. -/
def Obligations.NegativeCountClamped : Prop :=
  (∀ (s : State) (d : DomId) (x : Idx) (t : Word64),
    d.toNat < s.cfg.nDom → x.toNat < s.cfg.nSrc → t.toNat < 2 ^ s.cfg.tickW →
    let D := s.dom d
    let reported : Response := { status := .consistency, r0 := 0#64, r1 := 0#64, fire := none, snap := none }
    (irqBit (D.srcAt x) = true → D.nirq = 0 →
        exec (.setIrq d x false t) s = .next ((s.setDom d
          { D with src := D.src.set x.toNat (D.srcAt x &&& 0b01#2), pend := D.pend &&& 0xFD#8, cerr := true }).showing reported))
      ∧ (nmiBit (D.srcAt x) = true → D.nnmi = 0 →
        exec (.setNmi d x false t) s = .next ((s.setDom d
          { D with src := D.src.set x.toNat (D.srcAt x &&& 0b10#2), cerr := true
                   pend := if D.pend.getLsbD 0 = true ∧ t.toNat = D.nmiClk then D.pend &&& 0xFE#8 else D.pend }).showing reported)))
    ∧ ∀ (s : State) (d : DomId) (x : Idx), Reachable s → d.toNat < s.cfg.nDom → x.toNat < s.cfg.nSrc →
        (irqBit ((s.dom d).srcAt x) = true → (s.dom d).nirq ≠ 0) ∧ (nmiBit ((s.dom d).srcAt x) = true → (s.dom d).nnmi ≠ 0)

/-- R104, R105: an NMI rise makes an edge, and records its signal tick, only from a released line with no edge pending; otherwise it
counts the source and moves neither. -/
def Obligations.SetNmiAssertion : Prop :=
  ∀ (s : State) (d : DomId) (x : Idx) (t : Word64),
    d.toNat < s.cfg.nDom → x.toNat < s.cfg.nSrc → t.toNat < 2 ^ s.cfg.tickW → nmiBit ((s.dom d).srcAt x) = false →
    let D := s.dom d
    let fin := D.stealStart + D.stealLen
    let sig := if t.toNat < fin then fin - 1 else t.toNat
    let D1 : Domain := { D with src := D.src.set x.toNat (D.srcAt x ||| 0b01#2), nnmi := D.nnmi + 1 }
    (D.nnmi = 0 → D.pend.getLsbD 0 = false → sig ≤ s.cfg.clkMax →
        exec (.setNmi d x true t) s =
          .next ((s.setDom d { D1 with nmiClk := sig, pend := D.pend ||| 0x01#8 }).showing (okResponse 0#64 0#64)))
      ∧ (D.nnmi = 0 → D.pend.getLsbD 0 = false → s.cfg.clkMax < sig →
        exec (.setNmi d x true t) s = .next ((s.setDom d { D with fault := true }).showing (rejectResponse .tickOverflow)))
      ∧ (D.nnmi ≠ 0 ∨ D.pend.getLsbD 0 = true →
        exec (.setNmi d x true t) s = .next ((s.setDom d D1).showing (okResponse 0#64 0#64)))

/-- R106: an NMI release uncounts the source; the pending edge is withdrawn only by the last release, in the edge's own tick. -/
def Obligations.SetNmiRelease : Prop :=
  ∀ (s : State) (d : DomId) (x : Idx) (t : Word64),
    d.toNat < s.cfg.nDom → x.toNat < s.cfg.nSrc → t.toNat < 2 ^ s.cfg.tickW → nmiBit ((s.dom d).srcAt x) = true →
    (s.dom d).nnmi ≠ 0 →
    let D := s.dom d
    exec (.setNmi d x false t) s = .next ((s.setDom d
      { D with src := D.src.set x.toNat (D.srcAt x &&& 0b10#2), nnmi := D.nnmi - 1
               pend := if D.nnmi = 1 ∧ D.pend.getLsbD 0 = true ∧ t.toNat = D.nmiClk then D.pend &&& 0xFE#8
                       else D.pend }).showing (okResponse 0#64 0#64))

/-- R123: what clears a pending NMI, and what makes a new one. SNAP_LOAD, which loads the pending word (46_snapshot_and_control.md
R263), is named beside what R123 names (log 11). -/
def Obligations.NmiEdgeLaw : Prop :=
  ∀ (i : Instr) (s t : State) (d : DomId), exec i s = .next t →
    ((s.dom d).pend.getLsbD 0 = true → (t.dom d).pend.getLsbD 0 = false →
        i = .ackNmi d ∨ i = .snapLoad
          ∨ ∃ x u, i = .setNmi d x false u ∧ u.toNat = (s.dom d).nmiClk ∧ (t.dom d).nnmi = 0)
      ∧ ((s.dom d).pend.getLsbD 0 = false → (t.dom d).pend.getLsbD 0 = true →
        i = .snapLoad ∨ ∃ x u, i = .setNmi d x true u ∧ (s.dom d).nnmi = 0 ∧ (t.dom d).nnmi = 1)

/-- 60_exceptions.md R311: on a released line with no edge pending, assert then release at one tick that no steal moves withdraws the
edge, and release then assert leaves it pending. -/
def Obligations.NmiOrderAtOneTick : Prop :=
  ∀ (s : State) (d : DomId) (x : Idx) (t : Word64),
    d.toNat < s.cfg.nDom → x.toNat < s.cfg.nSrc → x.toNat < (s.dom d).src.length → t.toNat ≤ s.cfg.clkMax →
    t.toNat < 2 ^ s.cfg.tickW → nmiBit ((s.dom d).srcAt x) = false → (s.dom d).nnmi = 0 → (s.dom d).pend.getLsbD 0 = false →
    stealEnd (s.dom d) ≤ t.toNat →
    (∃ u v, exec (.setNmi d x true t) s = .next u ∧ exec (.setNmi d x false t) u = .next v
        ∧ (v.dom d).pend.getLsbD 0 = false)
      ∧ ∃ u v, exec (.setNmi d x false t) s = .next u ∧ exec (.setNmi d x true t) u = .next v
        ∧ (v.dom d).pend.getLsbD 0 = true ∧ (v.dom d).nmiClk = t.toNat

/-- R107, R115, R117: a request sets its bit of the pending word and nothing else. -/
def Obligations.RequestsSetTheirBit : Prop :=
  ∀ (s : State) (d : DomId), d.toNat < s.cfg.nDom →
    exec (.triggerReset d) s = .next ((s.setDom d { s.dom d with pend := (s.dom d).pend ||| 0x04#8 }).showing (okResponse 0#64 0#64))
      ∧ exec (.triggerMonitor d) s =
          .next ((s.setDom d { s.dom d with pend := (s.dom d).pend ||| 0x10#8 }).showing (okResponse 0#64 0#64))
      ∧ exec (.triggerDma d) s =
          .next ((s.setDom d { s.dom d with pend := (s.dom d).pend ||| 0x20#8 }).showing (okResponse 0#64 0#64))

/-- R108, R114, R116, R118: an acknowledgement clears its bit of the pending word and nothing else. -/
def Obligations.AcknowledgementsClearTheirBit : Prop :=
  ∀ (s : State) (d : DomId), d.toNat < s.cfg.nDom →
    exec (.ackReset d) s = .next ((s.setDom d { s.dom d with pend := (s.dom d).pend &&& 0xFB#8 }).showing (okResponse 0#64 0#64))
      ∧ exec (.ackNmi d) s =
          .next ((s.setDom d { s.dom d with pend := (s.dom d).pend &&& 0xFE#8 }).showing (okResponse 0#64 0#64))
      ∧ exec (.ackMonitor d) s =
          .next ((s.setDom d { s.dom d with pend := (s.dom d).pend &&& 0xEF#8 }).showing (okResponse 0#64 0#64))
      ∧ exec (.ackDma d) s =
          .next ((s.setDom d { s.dom d with pend := (s.dom d).pend &&& 0xDF#8 }).showing (okResponse 0#64 0#64))

/-- R109, R110: TRIGGER_TRAP stores the token, a later one replacing it; ACK_TRAP returns it, keeps it, and clears the bit. -/
def Obligations.TrapTokenReturned : Prop :=
  ∀ (s : State) (d : DomId), d.toNat < s.cfg.nDom →
    (∀ tok : Word64, tok.toNat < 2 ^ 32 →
      exec (.triggerTrap d tok) s = .next ((s.setDom d
        { s.dom d with pend := (s.dom d).pend ||| 0x08#8, trapTok := BitVec.ofNat 32 tok.toNat }).showing (okResponse 0#64 0#64)))
      ∧ exec (.ackTrap d) s = .next ((s.setDom d { s.dom d with pend := (s.dom d).pend &&& 0xF7#8 }).showing
          (okResponse (BitVec.ofNat 64 (s.dom d).trapTok.toNat) 0#64))

/-- R111, 10_state.md R27: CHECK_PENDING returns the pending word, whose bits 7 and 6 read 0. -/
def Obligations.CheckPendingReturnsPendingWord : Prop :=
  ∀ (s : State) (d : DomId), d.toNat < s.cfg.nDom →
    exec (.checkPending d) s = .next (s.showing (okResponse (BitVec.ofNat 64 ((s.dom d).pend.toNat % 64)) 0#64))

/-- R112, R113: the delay verdicts, which look at the signal tick and the flags and never at the pending word. -/
def Obligations.DelayVerdicts : Prop :=
  ∀ (s : State) (d : DomId) (br : Bool) (t : Word64), d.toNat < s.cfg.nDom → t.toNat < 2 ^ s.cfg.tickW →
    let extra := if br then 1 else 0
    exec (.checkIrqDelay d br true t) s = .next (s.showing (okResponse 0#64 0#64))
      ∧ exec (.checkIrqDelay d br false t) s =
          .next (s.showing (okResponse (if (s.dom d).irqClk + s.cfg.detectDelay + extra ≤ t.toNat then 1#64 else 0#64) 0#64))
      ∧ exec (.checkNmiDelay d br t) s =
          .next (s.showing (okResponse (if (s.dom d).nmiClk + s.cfg.detectDelay + extra ≤ t.toNat then 1#64 else 0#64) 0#64))

/-- R119, R120, R121, 44_cycle_stealer.md R223, 42_alarm_queue.md R165, 45_clock_and_overflow.md R241, 43_clock_domain_bridge.md R194:
the state reads return the state. -/
def Obligations.StateReadsReturnState : Prop :=
  ∀ (s : State) (d : DomId), d.toNat < s.cfg.nDom →
    exec (.readCounts d) s =
        .next (s.showing (okResponse (BitVec.ofNat 64 (s.dom d).nirq) (BitVec.ofNat 64 (s.dom d).nnmi)))
      ∧ exec (.readSigclk d) s =
        .next (s.showing (okResponse (BitVec.ofNat 64 (s.dom d).irqClk) (BitVec.ofNat 64 (s.dom d).nmiClk)))
      ∧ (∀ (x : Idx) (v : BitVec 2), x.toNat < s.cfg.nSrc → (s.dom d).src[x.toNat]? = some v →
        exec (.readSrc d x) s = .next (s.showing (okResponse (BitVec.ofNat 64 v.toNat) 0#64)))
      ∧ exec (.readSteal d) s =
        .next (s.showing (okResponse (BitVec.ofNat 64 (s.dom d).stealStart) (BitVec.ofNat 64 (s.dom d).stealLen)))
      ∧ (∀ (h : Idx) (u : Nat), h.toNat < s.cfg.nAlarm → (s.dom d).due[h.toNat]? = some u →
        exec (.alarmRead d h) s = .next (s.showing (okResponse (BitVec.ofNat 64 u) 0#64)))
      ∧ exec (.clkRead d) s = .next (s.showing (okResponse (BitVec.ofNat 64 (s.dom d).clk) 0#64))
      ∧ (1 ≤ d.toNat → exec (.bridgeRead d) s =
        .next (s.showing (okResponse (BitVec.ofNat 64 (s.bridge d).ratio.toNat) (BitVec.ofNat 64 (s.bridge d).carry.toNat))))

/-! ### The cycle stealer (44_cycle_stealer.md) -/

/-- R221, R222: a steal of no ticks does nothing; another advances the clock, shifts the signal ticks by the policy, and merges or
replaces the record; where a tick would pass CLK_MAX nothing is written but `fault`. -/
def Obligations.StealAdvancesClockAndShifts : Prop :=
  ∀ (s : State) (d : DomId) (start count : Word64),
    d.toNat < s.cfg.nDom → start.toNat < 2 ^ s.cfg.tickW → count.toNat < 2 ^ s.cfg.tickW →
    let D := s.dom d
    let n := count.toNat
    let shiftIrq := decide (s.cfg.stealShiftPolicy = .always)
      || (D.pend.getLsbD 1 && decide (start.toNat < D.irqClk + s.cfg.detectDelay))
    let shiftNmi := decide (s.cfg.stealShiftPolicy = .always)
      || (D.pend.getLsbD 0 && decide (start.toNat < D.nmiClk + s.cfg.detectDelay))
    let merges := decide (start.toNat = D.stealStart + D.stealLen)
    let newStart := if merges then D.stealStart else start.toNat
    let newLen := if merges then D.stealLen + n else n
    (n = 0 → exec (.steal d start count) s = .next (s.showing (okResponse 0#64 0#64)))
      ∧ (n ≠ 0 → D.clk + n ≤ s.cfg.clkMax → (shiftIrq = true → D.irqClk + n - 1 ≤ s.cfg.clkMax) →
          (shiftNmi = true → D.nmiClk + n - 1 ≤ s.cfg.clkMax) → newStart + newLen ≤ s.cfg.clkMax →
        exec (.steal d start count) s = .next ((s.setDom d
          { D with clk := D.clk + n, irqClk := if shiftIrq then D.irqClk + n - 1 else D.irqClk
                   nmiClk := if shiftNmi then D.nmiClk + n - 1 else D.nmiClk
                   stealStart := newStart, stealLen := newLen }).showing (okResponse 0#64 0#64)))
      ∧ (n ≠ 0 → (s.cfg.clkMax < D.clk + n ∨ (shiftIrq = true ∧ s.cfg.clkMax < D.irqClk + n - 1)
          ∨ (shiftNmi = true ∧ s.cfg.clkMax < D.nmiClk + n - 1) ∨ s.cfg.clkMax < newStart + newLen) →
        exec (.steal d start count) s = .next ((s.setDom d { D with fault := true }).showing (rejectResponse .tickOverflow)))

/-- R224, R225: after a steal that ends with OK under ALWAYS, the IRQ verdict turns at the shifted tick; and an IRQ rise before the end
of the window, where R102 records its tick, is recorded at the window's last tick. -/
def Obligations.StolenCyclesDelayDispatch : Prop :=
  ∀ (s t : State) (d : DomId) (start count : Word64) (r : Response),
    exec (.steal d start count) s = .next t → t.resp = some r → r.status = .ok → 1 ≤ count.toNat →
    (s.cfg.stealShiftPolicy = .always → ∀ (br : Bool) (u : Word64), u.toNat < 2 ^ s.cfg.tickW →
        exec (.checkIrqDelay d br false u) t = .next (t.showing (okResponse
          (if (s.dom d).irqClk + (count.toNat - 1) + s.cfg.detectDelay + (if br then 1 else 0) ≤ u.toNat then 1#64 else 0#64) 0#64)))
      ∧ (s.cfg.irqClkPolicy = .everyRise ∨ (s.dom d).nirq = 0 → ∀ (x : Idx) (u : Word64), x.toNat < s.cfg.nSrc → u.toNat < 2 ^ s.cfg.tickW →
          irqBit ((s.dom d).srcAt x) = false → u.toNat < start.toNat + count.toNat →
          ∃ v, exec (.setIrq d x true u) t = .next v ∧ (v.dom d).irqClk = start.toNat + count.toNat - 1)

/-! ### The alarm queue (42_alarm_queue.md) -/

/-- R160: a rescan of a table with at least one and at most 255 entries finds the least due tick, and the least handler that holds
it; a table of cancelled entries gives (INF, NONE); nothing else changes. -/
def Obligations.RescanFindsLeast : Prop :=
  ∀ (c : Config) (D : Domain), D.due ≠ [] → D.due.length ≤ 255 →
    rescan c D = { D with minTick := (rescan c D).minTick, minId := (rescan c D).minId }
      ∧ ∃ m, m ∈ D.due ∧ (∀ t ∈ D.due, m ≤ t)
        ∧ (m = c.inf → (rescan c D).minTick = c.inf ∧ (rescan c D).minId = 0xFF#8)
        ∧ (m ≠ c.inf → (rescan c D).minTick = m
            ∧ D.due[(rescan c D).minId.toNat]? = some m ∧ ∀ k, k < (rescan c D).minId.toNat → D.due[k]? ≠ some m)

/-- R161, R162: what ALARM_SCHEDULE and ALARM_CANCEL write. -/
def Obligations.ScheduleAndCancel : Prop :=
  ∀ (s : State) (d : DomId) (h : Idx), d.toNat < s.cfg.nDom → h.toNat < s.cfg.nAlarm →
    let D := s.dom d
    (∀ t : Word64, t.toNat < 2 ^ s.cfg.tickW →
      let D1 : Domain := { D with due := D.due.set h.toNat t.toNat }
      exec (.alarmSchedule d h t) s = .next ((s.setDom d
        (if t.toNat < D.minTick then { D1 with minTick := t.toNat, minId := h }
         else if h = D.minId then rescan s.cfg D1 else D1)).showing (okResponse 0#64 0#64)))
      ∧ (let D1 : Domain := { D with due := D.due.set h.toNat s.cfg.inf }
         exec (.alarmCancel d h) s = .next ((s.setDom d
          (if h = D.minId then rescan s.cfg D1 else D1)).showing (okResponse 0#64 0#64)))

/-- R161: scheduling at INF is cancelling, in every state whose tracked minimum is at most INF. -/
def Obligations.ScheduleAtInfCancels : Prop :=
  ∀ (s : State) (d : DomId) (h : Idx) (t : Word64),
    d.toNat < s.cfg.nDom → h.toNat < s.cfg.nAlarm → (s.dom d).minTick ≤ s.cfg.inf → t.toNat = s.cfg.inf →
    (∃ u, exec (.alarmCancel d h) s = .next u) ∧ exec (.alarmSchedule d h t) s = exec (.alarmCancel d h) s

/-- R163, R166: ALARM_NEXT_DUE returns the tracked minimum and its handler, and in a consistent state that is the least due tick of the
table, held by that handler, or INF and NONE where nothing is scheduled. -/
def Obligations.NextDueIsTrueMinimum : Prop :=
  ∀ (s : State) (d : DomId), d.toNat < s.cfg.nDom →
    exec (.alarmNextDue d) s =
        .next (s.showing (okResponse (BitVec.ofNat 64 (s.dom d).minTick) (BitVec.ofNat 64 (s.dom d).minId.toNat)))
      ∧ (Inv s → ∀ h u : Nat, (s.dom d).due[h]? = some u → (s.dom d).minTick ≤ u
          ∧ (u ≠ s.cfg.inf → (s.dom d).due[(s.dom d).minId.toNat]? = some (s.dom d).minTick))
      ∧ (Inv s → (∀ u ∈ (s.dom d).due, u = s.cfg.inf) → (s.dom d).minTick = s.cfg.inf ∧ (s.dom d).minId = 0xFF#8)

/-- R164, R167: ALARM_SERVE_NEXT on an empty queue, before the head's tick, and at or after it; a due head is fired and stays, so that
the same command fires it again. -/
def Obligations.ServeNextFiresTheHead : Prop :=
  ∀ (s : State) (d : DomId), d.toNat < s.cfg.nDom →
    let D := s.dom d
    let off := BitVec.ofNat 64 (D.clk - D.minTick)
    let t := s.showing { status := .ok, r0 := BitVec.ofNat 64 D.minId.toNat, r1 := off, fire := some ⟨d, D.minId, off⟩, snap := none }
    (D.minId = 0xFF#8 → exec (.alarmServeNext d) s = .next ((s.setDom d { D with cerr := true }).showing
        { status := .consistency, r0 := 0xFF#64, r1 := 0#64, fire := none, snap := none }))
      ∧ (D.minId ≠ 0xFF#8 → D.clk < D.minTick → exec (.alarmServeNext d) s = .next (s.showing (rejectResponse .notDue)))
      ∧ (D.minId ≠ 0xFF#8 → D.minTick ≤ D.clk →
          exec (.alarmServeNext d) s = .next t ∧ exec (.alarmServeNext d) t = .next t)

/-! ### The bridge (43_clock_domain_bridge.md) -/

/-- R190: a positive ratio is stored with its whole table and the carry kept; a ratio that is zero or negative as a signed 32-bit number
is refused. -/
def Obligations.SetRatioBuildsTable : Prop :=
  ∀ (s : State) (b : DomId) (a : Word64), 1 ≤ b.toNat → b.toNat < s.cfg.nDom → a.toNat < 2 ^ 32 →
    (1 ≤ a.toNat → a.toNat < 2 ^ 31 →
        exec (.bridgeSetRatio b a) s = .next ((s.setBridge b
          { ratioValid := true, ratio := BitVec.ofNat 32 a.toNat, carry := (s.bridge b).carry
            tbl := (List.range (s.cfg.maxBatch + 1)).map (fun n =>
              (⟨BitVec.ofNat 32 (n * a.toNat / 65536), BitVec.ofNat 16 (n * a.toNat % 65536)⟩ : TblEntry)) }).showing
          (okResponse 0#64 0#64)))
      ∧ (a.toNat = 0 ∨ 2 ^ 31 ≤ a.toNat →
        exec (.bridgeSetRatio b a) s = .next (s.showing (rejectResponse .configRejected)))

/-- R192: BRIDGE_ADVANCE is the closed form, whatever MAX_BATCH is, and its result fits 64 bits. -/
def Obligations.AdvanceClosedForm : Prop :=
  ∀ (s : State) (b : DomId) (n : Word64), configLegal s.cfg = true → 1 ≤ b.toNat → b.toNat < s.cfg.nDom →
    n.toNat < 2 ^ s.cfg.tickW → (s.bridge b).ratioValid = true → BridgeInv s.cfg (s.bridge b) →
    let q := n.toNat * (s.bridge b).ratio.toNat + (s.bridge b).carry.toNat
    exec (.bridgeAdvance b n) s = .next ((s.setBridge b { s.bridge b with carry := BitVec.ofNat 16 (q % 65536) }).showing
        (okResponse (BitVec.ofNat 64 (q / 65536)) (BitVec.ofNat 64 (q % 65536))))
      ∧ q / 65536 < 2 ^ 64

/-- R195: any sequence of BRIDGE_ADVANCE at a fixed ratio returns, in all, exactly the closed form of the total, however it is split,
and changes nothing but the carry. -/
def Obligations.ConversionFidelity : Prop :=
  ∀ (ns : List Word64) (s : State) (b : DomId), configLegal s.cfg = true → 1 ≤ b.toNat → b.toNat < s.cfg.nDom →
    (∀ n ∈ ns, n.toNat < 2 ^ s.cfg.tickW) → (s.bridge b).ratioValid = true → BridgeInv s.cfg (s.bridge b) →
    let q := totalTicks ns * (s.bridge b).ratio.toNat + (s.bridge b).carry.toNat
    ∃ t, advanceAll b ns s = some (q / 65536, t)
      ∧ t.bridge b = { s.bridge b with carry := BitVec.ofNat 16 (q % 65536) }
      ∧ t.domains = s.domains ∧ (∀ e, e ≠ b → t.bridge e = s.bridge e) ∧ t.cfg = s.cfg

/-- R193: BRIDGE_LOOKUP returns the entry, which in a consistent bridge is the exact quotient and remainder. -/
def Obligations.LookupReturnsEntry : Prop :=
  ∀ (s : State) (b : DomId) (n : Word64), configLegal s.cfg = true → 1 ≤ b.toNat → b.toNat < s.cfg.nDom →
    n.toNat ≤ s.cfg.maxBatch → (s.bridge b).ratioValid = true → BridgeInv s.cfg (s.bridge b) →
    exec (.bridgeLookup b n) s = .next (s.showing (okResponse
      (BitVec.ofNat 64 (n.toNat * (s.bridge b).ratio.toNat / 65536))
      (BitVec.ofNat 64 (n.toNat * (s.bridge b).ratio.toNat % 65536))))

/-- R191, R193, 10_state.md R33: before a ratio is accepted BRIDGE_ADVANCE and BRIDGE_LOOKUP reject with NO_RATIO. -/
def Obligations.NoRatioRejected : Prop :=
  ∀ (s : State) (b : DomId) (n : Word64), 1 ≤ b.toNat → b.toNat < s.cfg.nDom → (s.bridge b).ratioValid = false →
    (n.toNat < 2 ^ s.cfg.tickW → exec (.bridgeAdvance b n) s = .next (s.showing (rejectResponse .noRatio)))
      ∧ (n.toNat ≤ s.cfg.maxBatch → exec (.bridgeLookup b n) s = .next (s.showing (rejectResponse .noRatio)))

/-! ### The clock and overflow prevention (45_clock_and_overflow.md) -/

/-- R240: CLK_ADVANCE adds exactly, or faults where the sum would pass CLK_MAX. -/
def Obligations.ClockAdvances : Prop :=
  ∀ (s : State) (d : DomId) (n : Word64), d.toNat < s.cfg.nDom → n.toNat < 2 ^ s.cfg.tickW →
    ((s.dom d).clk + n.toNat ≤ s.cfg.clkMax → exec (.clkAdvance d n) s =
        .next ((s.setDom d { s.dom d with clk := (s.dom d).clk + n.toNat }).showing (okResponse 0#64 0#64)))
      ∧ (s.cfg.clkMax < (s.dom d).clk + n.toNat → exec (.clkAdvance d n) s =
        .next ((s.setDom d { s.dom d with fault := true }).showing (rejectResponse .tickOverflow)))

/-- 10_state.md R22: no command but PREVENT_OVERFLOW and SNAP_LOAD (log 11) lowers a clock. -/
def Obligations.ClockOnlyGrows : Prop :=
  ∀ (i : Instr) (s t : State) (d : DomId), exec i s = .next t → (t.dom d).clk < (s.dom d).clk →
    i = .preventOverflow d ∨ i = .snapLoad

/-- R242: above the high-water mark PREVENT_OVERFLOW subtracts OVF_SUB[d], floored at zero, from the clock, every live due tick, the
tracked minimum, both signal ticks and the steal start, and returns it. -/
def Obligations.PreventOverflowRebases : Prop :=
  ∀ (s : State) (d : DomId), d.toNat < s.cfg.nDom → s.cfg.hwm.get d < (s.dom d).clk →
    let D := s.dom d
    let a := s.cfg.ovfSub.get d
    exec (.preventOverflow d) s = .next ((s.setDom d
      { D with clk := D.clk - a, due := D.due.map (fun t => if t = s.cfg.inf then s.cfg.inf else t - a)
               minTick := if D.minId = 0xFF#8 then D.minTick else D.minTick - a
               irqClk := D.irqClk - a, nmiClk := D.nmiClk - a, stealStart := D.stealStart - a }).showing
      (okResponse (BitVec.ofNat 64 a) 0#64))

/-- R243: at or below the high-water mark PREVENT_OVERFLOW changes no state and returns 0. -/
def Obligations.PreventOverflowBelowMark : Prop :=
  ∀ (s : State) (d : DomId), d.toNat < s.cfg.nDom → (s.dom d).clk ≤ s.cfg.hwm.get d →
    exec (.preventOverflow d) s = .next (s.showing (okResponse 0#64 0#64))

/-- R244: a rebase keeps the distance from the clock of every due tick, signal tick and steal start that is at least OVF_SUB[d], and with
it the delay verdicts and the steal-window test at ticks moved by the same amount. -/
def Obligations.RebaseKeepsRelativeTime : Prop :=
  ∀ (s : State) (d : DomId), Inv s → d.toNat < s.cfg.nDom → s.cfg.hwm.get d < (s.dom d).clk →
    let D := s.dom d
    let a := s.cfg.ovfSub.get d
    ∃ t, exec (.preventOverflow d) s = .next t
      ∧ ((t.dom d).clk : Int) = D.clk - a
      ∧ (∀ (h u : Nat), D.due[h]? = some u → u ≠ s.cfg.inf → a ≤ u →
          ∃ u' : Nat, (t.dom d).due[h]? = some u' ∧ ((t.dom d).clk : Int) - u' = D.clk - u)
      ∧ (a ≤ D.irqClk → ((t.dom d).clk : Int) - (t.dom d).irqClk = D.clk - D.irqClk
          ∧ ∀ br u, a ≤ u → delayElapsed t.cfg (t.dom d).irqClk br (u - a) = delayElapsed s.cfg D.irqClk br u)
      ∧ (a ≤ D.nmiClk → ((t.dom d).clk : Int) - (t.dom d).nmiClk = D.clk - D.nmiClk
          ∧ ∀ br u, a ≤ u → delayElapsed t.cfg (t.dom d).nmiClk br (u - a) = delayElapsed s.cfg D.nmiClk br u)
      ∧ (a ≤ D.stealStart → ((t.dom d).clk : Int) - (t.dom d).stealStart = D.clk - D.stealStart
          ∧ ∀ u, a ≤ u → (u - a < stealEnd (t.dom d) ↔ u < stealEnd D))

/-- 70_reset_and_hazards.md R351, for a host that lets the clock grow by at most G between two rebases and passes tick operands at most G
after the clock, with OVF_SUB[d] at least G and HWM[d] + 2 G at most CLK_MAX. `WithinDuty` gives the bounds that hold between two rebases.
Under them no clock, signal tick, due tick or tick operand is above HWM[d] + 2 G; no command of the domain ends TICK_OVERFLOW, and the
bounds still hold after it, and after any command of another domain or of a bridge; a rebase brings the clock to the mark or below and
keeps the signal ticks and due ticks near it. SNAP_LOAD, which loads any ticks at all, is left out. The end of the steal window stays near
the clock where flooring its start does not leave it ahead, or where nothing is rebased: without that premise R351's condition does not
suffice (log 16). -/
def Obligations.OverflowDutySuffices : Prop :=
  ∀ (s : State) (d : DomId) (g used : Nat), d.toNat < s.cfg.nDom → g ≤ s.cfg.ovfSub.get d → used ≤ g →
    s.cfg.hwm.get d + 2 * g ≤ s.cfg.clkMax → WithinDuty s.cfg d g used (s.dom d) →
    let D := s.dom d
    let top := s.cfg.hwm.get d + 2 * g
    (D.clk ≤ s.cfg.hwm.get d + g ∧ D.irqClk ≤ top ∧ D.nmiClk ≤ top ∧ (∀ t ∈ D.due, t = s.cfg.inf ∨ t ≤ top)
        ∧ ∀ t, t ≤ D.clk + g → t ≤ top)
      ∧ (∀ i : Instr, i ≠ .snapLoad → i ≠ .preventOverflow d → ticksWithin s.cfg d (D.clk + g) i = true →
          used + clockGrowth d i ≤ g →
          ∃ t r, exec i s = .next t ∧ t.resp = some r ∧ (i.target = .domain d → r.status ≠ .tickOverflow)
            ∧ WithinDuty s.cfg d g (used + clockGrowth d i) (t.dom d))
      ∧ ∃ t, exec (.preventOverflow d) s = .next t ∧ (t.dom d).clk ≤ s.cfg.hwm.get d ∧ TicksNearClock s.cfg g (t.dom d)
        ∧ (D.clk ≤ s.cfg.hwm.get d ∨ D.stealLen + s.cfg.ovfSub.get d ≤ D.clk + g → WithinDuty s.cfg d g 0 (t.dom d))

/-! ### Snapshots and control (46_snapshot_and_control.md) -/

/-- R260: the word 0 does nothing and ends with OK; every other word with OP 0 is ILLEGAL. -/
def Obligations.NopDoesNothing : Prop :=
  (∀ s : State, exec .nop s = .next (s.showing (okResponse 0#64 0#64)))
    ∧ ∀ (s : State) (c : CmdWords) (image : SnapImage) (rest : List Input),
        configLegal s.cfg = true → s.inputs = .command c image :: rest → opField c.word = 0x00#6 →
        step s = .next (State.showing { s with inputs := rest, snapIn := image }
          (if c.word = 0#32 then okResponse 0#64 0#64 else rejectResponse .illegal))

/-- R261, R262: SNAP_SAVE writes no state and puts out a record with the header and every field of R261. What the header field n_src
holds is said where N_SRC fits its 8 bits; for N_SRC = 256 it is a free value (log 9), and the rest of the record is as for any other. -/
def Obligations.SnapSavePutsOutRecord : Prop :=
  ∀ s : State, configLegal s.cfg = true →
    ∃ r : SnapRecord, exec .snapSave s = .next (s.showing { status := .ok, r0 := 0#64, r1 := 0#64, fire := none, snap := some r })
      ∧ r.version = s.cfg.snapVersion ∧ r.nDom.toNat = s.cfg.nDom ∧ (s.cfg.nSrc < 256 → r.nSrc.toNat = s.cfg.nSrc)
      ∧ r.nAlarm.toNat = s.cfg.nAlarm ∧ r.tickW.toNat = s.cfg.tickW
      ∧ r.domains.length = s.cfg.nDom ∧ r.carries.length = s.cfg.nDom - 1
      ∧ (∀ d : DomId, d.toNat < s.cfg.nDom →
          let D := s.dom d
          r.domains[d.toNat]? = some
            { clk := D.clk, pend := D.pend &&& 0x3F#8, nirq := D.nirq, nnmi := D.nnmi, irqClk := D.irqClk, nmiClk := D.nmiClk
              trapTok := D.trapTok, src := D.src, due := D.due })
      ∧ ∀ b : DomId, 1 ≤ b.toNat → b.toNat < s.cfg.nDom → r.carries[b.toNat - 1]? = some (s.bridge b).carry

/-- R263: which images SNAP_LOAD refuses, and that a refused one changes nothing. R263 names the truncated or malformed image, the
version, the four parameters and the checks of each domain; that an image is a record of lists, and that one whose lists have other sizes
or that holds a due tick above INF is refused as malformed, are the model's DESIGN CHOICE of log 8. -/
def Obligations.SnapLoadRefusesBadImages : Prop :=
  ∀ s : State,
    (s.snapIn = .malformed → exec .snapLoad s = .next (s.showing (rejectResponse .snapshotRejected)))
      ∧ ∀ r : SnapRecord, s.snapIn = .record r →
        (r.domains.length ≠ s.cfg.nDom ∨ r.carries.length ≠ s.cfg.nDom - 1
          ∨ (∃ rd ∈ r.domains, rd.src.length ≠ s.cfg.nSrc ∨ rd.due.length ≠ s.cfg.nAlarm ∨ ∃ t ∈ rd.due, s.cfg.inf < t)
          ∨ r.version ≠ s.cfg.snapVersion ∨ (s.cfg.nDom < 256 ∧ r.nDom.toNat ≠ s.cfg.nDom)
          ∨ (s.cfg.nSrc < 256 ∧ r.nSrc.toNat ≠ s.cfg.nSrc) ∨ (s.cfg.nAlarm < 256 ∧ r.nAlarm.toNat ≠ s.cfg.nAlarm)
          ∨ (s.cfg.tickW < 256 ∧ r.tickW.toNat ≠ s.cfg.tickW)
          ∨ (∃ rd ∈ r.domains, rd.nirq ≠ countIrq rd.src ∨ rd.nnmi ≠ countNmi rd.src
              ∨ ¬ (rd.pend.getLsbD 1 = true ↔ 0 < rd.nirq) ∨ rd.pend &&& 0xC0#8 ≠ 0#8
              ∨ s.cfg.clkMax < rd.clk ∨ s.cfg.clkMax < rd.irqClk ∨ s.cfg.clkMax < rd.nmiClk)) →
        exec .snapLoad s = .next (s.showing (rejectResponse .snapshotRejected))

/-- R263: an image that passes every check is loaded: every field of R261 written, the minimum rescanned, the steal record cleared, and
nothing else changed. Where N_SRC = 256 does not fit the header field n_src, the image is one with the block's own value of that field, a
free value (log 9). -/
def Obligations.SnapLoadWritesRecord : Prop :=
  ∀ (s : State) (r : SnapRecord), configLegal s.cfg = true → s.snapIn = .record r →
    r.domains.length = s.cfg.nDom → r.carries.length = s.cfg.nDom - 1 → r.version = s.cfg.snapVersion →
    r.nDom.toNat = s.cfg.nDom → (s.cfg.nSrc < 256 → r.nSrc.toNat = s.cfg.nSrc) →
    (s.cfg.nSrc = 256 → r.nSrc = Config.oversizeHeader 256) → r.nAlarm.toNat = s.cfg.nAlarm → r.tickW.toNat = s.cfg.tickW →
    (∀ rd ∈ r.domains, rd.src.length = s.cfg.nSrc ∧ rd.due.length = s.cfg.nAlarm ∧ (∀ t ∈ rd.due, t ≤ s.cfg.inf)
        ∧ rd.nirq = countIrq rd.src ∧ rd.nnmi = countNmi rd.src ∧ (rd.pend.getLsbD 1 = true ↔ 0 < rd.nirq)
        ∧ rd.pend &&& 0xC0#8 = 0#8 ∧ rd.clk ≤ s.cfg.clkMax ∧ rd.irqClk ≤ s.cfg.clkMax ∧ rd.nmiClk ≤ s.cfg.clkMax) →
    ∃ u, exec .snapLoad s = .next u ∧ u.resp = some (okResponse 0#64 0#64) ∧ u.cfg = s.cfg ∧ u.inputs = s.inputs
      ∧ u.snapIn = s.snapIn
      ∧ (∀ (d : DomId) (rd : SnapDomain), r.domains[d.toNat]? = some rd →
          u.dom d = rescan s.cfg { s.dom d with clk := rd.clk, pend := rd.pend, nirq := rd.nirq, nnmi := rd.nnmi
                                                irqClk := rd.irqClk, nmiClk := rd.nmiClk, trapTok := rd.trapTok
                                                src := rd.src, due := rd.due, stealStart := 0, stealLen := 0 })
      ∧ (∀ d : DomId, s.cfg.nDom ≤ d.toNat → u.dom d = s.dom d ∧ u.bridge d = s.bridge d)
      ∧ ∀ (b : DomId) (v : BitVec 16), 1 ≤ b.toNat → r.carries[b.toNat - 1]? = some v →
          u.bridge b = { s.bridge b with carry := v }

/-- R264: saving and then loading the saved record ends with OK and changes nothing but the steal records, which are cleared, and which
handler holds the minimum among equal due ticks; CHECK_PENDING, the R0 of ALARM_NEXT_DUE and the R1 of BRIDGE_READ return the same. That
it holds for N_SRC = 256 too is the model's choice of log 9. -/
def Obligations.SnapshotRoundTrip : Prop :=
  ∀ s : State, Inv s →
    ∃ t u r, exec .snapSave s = .next t ∧ t.resp = some { status := .ok, r0 := 0#64, r1 := 0#64, fire := none, snap := some r }
      ∧ exec .snapLoad { t with snapIn := .record r } = .next u ∧ u.resp = some (okResponse 0#64 0#64)
      ∧ (∀ d : DomId, d.toNat < s.cfg.nDom →
          u.dom d = { s.dom d with minId := (u.dom d).minId, stealStart := 0, stealLen := 0 }
            ∧ ((s.dom d).minTick ≠ s.cfg.inf → (s.dom d).due[(u.dom d).minId.toNat]? = some (s.dom d).minTick)
            ∧ ((s.dom d).minTick = s.cfg.inf → (u.dom d).minId = 0xFF#8))
      ∧ u.bridges = s.bridges ∧ u.cfg = s.cfg
      ∧ ∀ d : DomId, d.toNat < s.cfg.nDom →
          (∃ v, exec (.checkPending d) s = .next (s.showing (okResponse v 0#64))
              ∧ exec (.checkPending d) u = .next (u.showing (okResponse v 0#64)))
            ∧ (∃ v w w', exec (.alarmNextDue d) s = .next (s.showing (okResponse v w))
              ∧ exec (.alarmNextDue d) u = .next (u.showing (okResponse v w')))
            ∧ (1 ≤ d.toNat → ∃ v w, exec (.bridgeRead d) s = .next (s.showing (okResponse v w))
              ∧ exec (.bridgeRead d) u = .next (u.showing (okResponse v w)))
end

