-- ==== Sys2Proof/Laws/State.lean ====
section
/-! SUPPORT. One lemma per field per update: of the containers, of State's updates, and of the ways a command ends. -/

namespace Sys2Proof

variable {α : Type}

theorem domId_cases (d : DomId) : d = 0#2 ∨ d = 1#2 ∨ d = 2#2 ∨ d = 3#2 := by
  revert d; decide

@[simp] theorem PerDomain.get_set_self (p : PerDomain α) (d : DomId) (v : α) : (p.set d v).get d = v := by
  rcases domId_cases d with rfl | rfl | rfl | rfl <;> rfl

theorem PerDomain.get_set_ne (p : PerDomain α) (d e : DomId) (v : α) (h : e ≠ d) : (p.set d v).get e = p.get e := by
  rcases domId_cases d with rfl | rfl | rfl | rfl <;> rcases domId_cases e with rfl | rfl | rfl | rfl <;>
    first | rfl | exact absurd rfl h

@[simp] theorem PerDomain.get_ofFn (f : DomId → α) (d : DomId) : (PerDomain.ofFn f).get d = f d := by
  rcases domId_cases d with rfl | rfl | rfl | rfl <;> rfl

@[simp] theorem PerDomain.get_all (v : α) (d : DomId) : (PerDomain.all v).get d = v := by
  rcases domId_cases d with rfl | rfl | rfl | rfl <;> rfl

@[simp] theorem PerDomain.set_get (p : PerDomain α) (d : DomId) : p.set d (p.get d) = p := by
  rcases domId_cases d with rfl | rfl | rfl | rfl <;> rfl

@[simp] theorem PerDomain.set_set (p : PerDomain α) (d : DomId) (v w : α) : (p.set d v).set d w = p.set d w := by
  rcases domId_cases d with rfl | rfl | rfl | rfl <;> rfl

theorem PerDomain.ext_get (p q : PerDomain α) (h : ∀ d, p.get d = q.get d) : p = q := by
  cases p; cases q
  have h0 := h 0#2
  have h1 := h 1#2
  have h2 := h 2#2
  have h3 := h 3#2
  simp [PerDomain.get] at h0 h1 h2 h3
  simp [h0, h1, h2, h3]

theorem PerBridge.get_set_self (p : PerBridge α) (z : α) (b : DomId) (v : α) (h : 1 ≤ b.toNat) :
    (p.set b v).get z b = v := by
  rcases domId_cases b with rfl | rfl | rfl | rfl
  · exact absurd h (by decide)
  · rfl
  · rfl
  · rfl

theorem PerBridge.get_set_ne (p : PerBridge α) (z : α) (b e : DomId) (v : α) (h : e ≠ b) :
    (p.set b v).get z e = p.get z e := by
  rcases domId_cases b with rfl | rfl | rfl | rfl <;> rcases domId_cases e with rfl | rfl | rfl | rfl <;>
    first | rfl | exact absurd rfl h

theorem PerBridge.get_ofFn (f : DomId → α) (z : α) (b : DomId) (h : 1 ≤ b.toNat) : (PerBridge.ofFn f).get z b = f b := by
  rcases domId_cases b with rfl | rfl | rfl | rfl
  · exact absurd h (by decide)
  · rfl
  · rfl
  · rfl

@[simp] theorem PerBridge.get_zero (p : PerBridge α) (z : α) : p.get z 0#2 = z := rfl

@[simp] theorem PerBridge.get_all (z : α) (b : DomId) : (PerBridge.all z).get z b = z := by
  rcases domId_cases b with rfl | rfl | rfl | rfl <;> rfl

@[simp] theorem PerBridge.set_set (p : PerBridge α) (b : DomId) (v w : α) : (p.set b v).set b w = p.set b w := by
  rcases domId_cases b with rfl | rfl | rfl | rfl <;> rfl

namespace Machine

/-! ### `setDom` -/

@[simp] theorem State.setDom_cfg (s : State) (d : DomId) (D : Domain) : (s.setDom d D).cfg = s.cfg := rfl
@[simp] theorem State.setDom_bridges (s : State) (d : DomId) (D : Domain) : (s.setDom d D).bridges = s.bridges := rfl
@[simp] theorem State.setDom_inputs (s : State) (d : DomId) (D : Domain) : (s.setDom d D).inputs = s.inputs := rfl
@[simp] theorem State.setDom_snapIn (s : State) (d : DomId) (D : Domain) : (s.setDom d D).snapIn = s.snapIn := rfl
@[simp] theorem State.setDom_resp (s : State) (d : DomId) (D : Domain) : (s.setDom d D).resp = s.resp := rfl
@[simp] theorem State.bridge_setDom (s : State) (d b : DomId) (D : Domain) : (s.setDom d D).bridge b = s.bridge b := rfl

@[simp] theorem State.dom_setDom_self (s : State) (d : DomId) (D : Domain) : (s.setDom d D).dom d = D :=
  PerDomain.get_set_self _ _ _

theorem State.dom_setDom_ne (s : State) (d e : DomId) (D : Domain) (h : e ≠ d) : (s.setDom d D).dom e = s.dom e :=
  PerDomain.get_set_ne _ _ _ _ h

@[simp] theorem State.setDom_dom (s : State) (d : DomId) : s.setDom d (s.dom d) = s := by
  simp [State.setDom, State.dom]

@[simp] theorem State.setDom_setDom (s : State) (d : DomId) (D E : Domain) : (s.setDom d D).setDom d E = s.setDom d E := by
  simp [State.setDom]

/-! ### `setBridge` -/

@[simp] theorem State.setBridge_cfg (s : State) (b : DomId) (B : Bridge) : (s.setBridge b B).cfg = s.cfg := rfl
@[simp] theorem State.setBridge_domains (s : State) (b : DomId) (B : Bridge) : (s.setBridge b B).domains = s.domains := rfl
@[simp] theorem State.setBridge_inputs (s : State) (b : DomId) (B : Bridge) : (s.setBridge b B).inputs = s.inputs := rfl
@[simp] theorem State.setBridge_snapIn (s : State) (b : DomId) (B : Bridge) : (s.setBridge b B).snapIn = s.snapIn := rfl
@[simp] theorem State.setBridge_resp (s : State) (b : DomId) (B : Bridge) : (s.setBridge b B).resp = s.resp := rfl
@[simp] theorem State.dom_setBridge (s : State) (b d : DomId) (B : Bridge) : (s.setBridge b B).dom d = s.dom d := rfl

theorem State.bridge_setBridge_self (s : State) (b : DomId) (B : Bridge) (h : 1 ≤ b.toNat) : (s.setBridge b B).bridge b = B :=
  PerBridge.get_set_self _ _ _ _ h

theorem State.bridge_setBridge_ne (s : State) (b e : DomId) (B : Bridge) (h : e ≠ b) : (s.setBridge b B).bridge e = s.bridge e :=
  PerBridge.get_set_ne _ _ _ _ _ h

/-! ### The ends of a command -/

@[simp] theorem endWith_cfg (s : State) (r : Response) : (endWith s r).cfg = s.cfg := rfl
@[simp] theorem endWith_domains (s : State) (r : Response) : (endWith s r).domains = s.domains := rfl
@[simp] theorem endWith_bridges (s : State) (r : Response) : (endWith s r).bridges = s.bridges := rfl
@[simp] theorem endWith_inputs (s : State) (r : Response) : (endWith s r).inputs = s.inputs := rfl
@[simp] theorem endWith_snapIn (s : State) (r : Response) : (endWith s r).snapIn = s.snapIn := rfl
@[simp] theorem endWith_resp (s : State) (r : Response) : (endWith s r).resp = some r := rfl
@[simp] theorem dom_endWith (s : State) (r : Response) (d : DomId) : (endWith s r).dom d = s.dom d := rfl
@[simp] theorem bridge_endWith (s : State) (r : Response) (b : DomId) : (endWith s r).bridge b = s.bridge b := rfl

@[simp] theorem showing_cfg (s : State) (r : Response) : (s.showing r).cfg = s.cfg := rfl
@[simp] theorem showing_resp (s : State) (r : Response) : (s.showing r).resp = some r := rfl
@[simp] theorem showing_inputs (s : State) (r : Response) : (s.showing r).inputs = s.inputs := rfl
@[simp] theorem showing_snapIn (s : State) (r : Response) : (s.showing r).snapIn = s.snapIn := rfl
@[simp] theorem dom_showing (s : State) (r : Response) (d : DomId) : (s.showing r).dom d = s.dom d := rfl
@[simp] theorem bridge_showing (s : State) (r : Response) (b : DomId) : (s.showing r).bridge b = s.bridge b := rfl
@[simp] theorem showing_showing (s : State) (r q : Response) : (s.showing r).showing q = s.showing q := rfl

theorem endWith_eq_showing (s : State) (r : Response) : endWith s r = s.showing r := rfl
theorem answer_eq_showing (s : State) (r0 r1 : Word64) : answer s r0 r1 = s.showing (okResponse r0 r1) := rfl
theorem done_eq_showing (s : State) : done s = s.showing (okResponse 0#64 0#64) := rfl
theorem reject_eq_showing (s : State) (st : Status) : reject s st = s.showing (rejectResponse st) := rfl

theorem faultTick_eq_showing (s : State) (d : DomId) :
    faultTick s d = (s.setDom d { s.dom d with fault := true }).showing (rejectResponse .tickOverflow) := rfl

theorem reportConsistency_eq_showing (s : State) (d : DomId) (r0 r1 : Word64) :
    reportConsistency s d r0 r1 = (s.setDom d { s.dom d with cerr := true }).showing
      { status := .consistency, r0 := r0, r1 := r1, fire := none, snap := none } := rfl

/-! ### Accepting a command -/

@[simp] theorem acceptCommand_cfg (s : State) (m : SnapImage) (r : List Input) : (acceptCommand s m r).cfg = s.cfg := rfl
@[simp] theorem acceptCommand_inputs (s : State) (m : SnapImage) (r : List Input) : (acceptCommand s m r).inputs = r := rfl
@[simp] theorem acceptCommand_snapIn (s : State) (m : SnapImage) (r : List Input) : (acceptCommand s m r).snapIn = m := rfl
@[simp] theorem acceptCommand_resp (s : State) (m : SnapImage) (r : List Input) : (acceptCommand s m r).resp = s.resp := rfl
@[simp] theorem dom_acceptCommand (s : State) (m : SnapImage) (r : List Input) (d : DomId) :
    (acceptCommand s m r).dom d = s.dom d := rfl
@[simp] theorem bridge_acceptCommand (s : State) (m : SnapImage) (r : List Input) (b : DomId) :
    (acceptCommand s m r).bridge b = s.bridge b := rfl

/-! ### Power-on -/

@[simp] theorem powerOn_cfg (c : Config) : (State.powerOn c).cfg = c := rfl
@[simp] theorem dom_powerOn (c : Config) (d : DomId) : (State.powerOn c).dom d = Domain.powerOn c := PerDomain.get_all _ _
@[simp] theorem bridge_powerOn (c : Config) (b : DomId) : (State.powerOn c).bridge b = Bridge.powerOn := PerBridge.get_all _ _

end Machine
end Sys2Proof
end

