-- ==== Sys2Proof/Laws/Ops.lean ====
section
/-! SUPPORT. What each shared operation can do, said once: the checks, the tick helpers, the source bits and their counts, the alarm table, the
conversion loop. -/

namespace Sys2Proof.Machine

/-! ### The checks of a command -/

@[simp] theorem domainOk_iff (c : Config) (d : DomId) : domainOk c d = true ↔ d.toNat < c.nDom := by simp [domainOk]

@[simp] theorem bridgeOk_iff (c : Config) (b : DomId) : bridgeOk c b = true ↔ 1 ≤ b.toNat ∧ b.toNat < c.nDom := by
  simp [bridgeOk]

@[simp] theorem sourceOk_iff (c : Config) (x : Idx) : sourceOk c x = true ↔ x.toNat < c.nSrc := by simp [sourceOk]

@[simp] theorem handlerOk_iff (c : Config) (h : Idx) : handlerOk c h = true ↔ h.toNat < c.nAlarm := by simp [handlerOk]

@[simp] theorem tickOk_iff (c : Config) (v : Word64) : tickOk c v = true ↔ v.toNat < 2 ^ c.tickW := by simp [tickOk]

@[simp] theorem wordOk_iff (v : Word64) : wordOk v = true ↔ v.toNat < 2 ^ 32 := by simp [wordOk]

@[simp] theorem indexOk_iff (c : Config) (v : Word64) : indexOk c v = true ↔ v.toNat ≤ c.maxBatch := by simp [indexOk]

theorem operandNat_eq (v : Word64) : operandNat v = v.toNat := rfl

/-- A command's own rule runs exactly where its checks pass. -/
theorem inRange_pos {ok : Bool} (h : ok = true) (s own : State) : inRange ok s own = .next own := by subst h; rfl

theorem inRange_neg {ok : Bool} (h : ok = false) (s own : State) :
    inRange ok s own = .next (s.showing (rejectResponse .range)) := by subst h; rfl

theorem inRange_eq_next (ok : Bool) (s own t : State) :
    inRange ok s own = .next t ↔ (ok = true ∧ t = own) ∨ (ok = false ∧ t = s.showing (rejectResponse .range)) := by
  cases ok <;> simp [inRange, reject_eq_showing, eq_comm]

/-! ### Result words -/

theorem low32_eq (v : Word64) : low32 v = BitVec.ofNat 32 v.toNat := by
  apply BitVec.eq_of_toNat_eq; simp [low32]

theorem resultBits_eq {w : Nat} (v : BitVec w) : resultBits v = BitVec.ofNat 64 v.toNat := by
  apply BitVec.eq_of_toNat_eq; simp [resultBits]

/-! ### Ticks -/

theorem satSub_eq (a b : Nat) : satSub a b = a - b := by unfold satSub; split <;> omega

theorem satSub_mono (a b n : Nat) (h : a ≤ b) : satSub a n ≤ satSub b n := by rw [satSub_eq, satSub_eq]; omega

@[simp] theorem chk_eq_none (c : Config) (v : Nat) : chk c v = none ↔ c.clkMax < v := by
  unfold chk; split <;> simp <;> omega

@[simp] theorem chk_eq_some (c : Config) (v w : Nat) : chk c v = some w ↔ v ≤ c.clkMax ∧ v = w := by
  unfold chk; split <;> simp <;> omega

theorem chk_of_le (c : Config) (v : Nat) (h : v ≤ c.clkMax) : chk c v = some v := by simp [h]

/-- A signal tick is at or after the given tick, and at or after the last tick of the steal window. -/
theorem le_sigTick (D : Domain) (t : Nat) : t ≤ sigTick D t ∧ stealEnd D - 1 ≤ sigTick D t := by
  unfold sigTick; split <;> omega

/-- Whether it merges or not, the new steal window ends where the steal ends (44_cycle_stealer.md R221). -/
theorem mergedSteal_end (D : Domain) (start count : Nat) :
    (mergedSteal D start count).1 + (mergedSteal D start count).2 = start + count := by
  unfold mergedSteal
  split
  · rename_i h; subst h; exact (Nat.add_assoc _ _ _).symm
  · rfl

/-! ### The pending word -/

theorem raise_nmi (p : BitVec 8) : raise p .nmi = p ||| 0x01#8 := rfl
theorem raise_irq (p : BitVec 8) : raise p .irq = p ||| 0x02#8 := rfl
theorem raise_reset (p : BitVec 8) : raise p .reset = p ||| 0x04#8 := rfl
theorem raise_trap (p : BitVec 8) : raise p .trap = p ||| 0x08#8 := rfl
theorem raise_monitor (p : BitVec 8) : raise p .monitor = p ||| 0x10#8 := rfl
theorem raise_dma (p : BitVec 8) : raise p .dma = p ||| 0x20#8 := rfl
theorem lower_nmi (p : BitVec 8) : lower p .nmi = p &&& 0xFE#8 := rfl
theorem lower_irq (p : BitVec 8) : lower p .irq = p &&& 0xFD#8 := rfl
theorem lower_reset (p : BitVec 8) : lower p .reset = p &&& 0xFB#8 := rfl
theorem lower_trap (p : BitVec 8) : lower p .trap = p &&& 0xF7#8 := rfl
theorem lower_monitor (p : BitVec 8) : lower p .monitor = p &&& 0xEF#8 := rfl
theorem lower_dma (p : BitVec 8) : lower p .dma = p &&& 0xDF#8 := rfl

theorem isPending_raise_self (p : BitVec 8) (k : Kind) : isPending (raise p k) k = true := by
  cases k <;> simp [isPending, raise, Kind.mask, Kind.bit]

theorem isPending_raise_ne (p : BitVec 8) (k j : Kind) (h : j ≠ k) : isPending (raise p k) j = isPending p j := by
  cases k <;> cases j <;> first | exact absurd rfl h | simp [isPending, raise, Kind.mask, Kind.bit]

theorem isPending_lower_self (p : BitVec 8) (k : Kind) : isPending (lower p k) k = false := by
  cases k <;> simp [isPending, lower, Kind.mask, Kind.bit]

theorem isPending_lower_ne (p : BitVec 8) (k j : Kind) (h : j ≠ k) : isPending (lower p k) j = isPending p j := by
  cases k <;> cases j <;> first | exact absurd rfl h | simp [isPending, lower, Kind.mask, Kind.bit]

/-- Setting a bit leaves the reserved bits alone. -/
theorem reserved_raise (p : BitVec 8) (k : Kind) : raise p k &&& 0xC0#8 = p &&& 0xC0#8 := by
  revert p; cases k <;> decide

/-- Clearing a bit leaves the reserved bits alone. -/
theorem reserved_lower (p : BitVec 8) (k : Kind) : lower p k &&& 0xC0#8 = p &&& 0xC0#8 := by
  revert p; cases k <;> decide

/-! ### The source bits and their counts -/

theorem irqBit_withIrqBit (v : BitVec 2) (on : Bool) : irqBit (withIrqBit v on) = on := by revert v on; decide
theorem nmiBit_withIrqBit (v : BitVec 2) (on : Bool) : nmiBit (withIrqBit v on) = nmiBit v := by revert v on; decide
theorem nmiBit_withNmiBit (v : BitVec 2) (on : Bool) : nmiBit (withNmiBit v on) = on := by revert v on; decide
theorem irqBit_withNmiBit (v : BitVec 2) (on : Bool) : irqBit (withNmiBit v on) = irqBit v := by revert v on; decide

/-- Writing one entry of a list changes the count of a property by that entry alone. -/
theorem countP_set_add {α : Type} (p : α → Bool) (l : List α) (n : Nat) (v w : α) (h : l[n]? = some w) :
    (l.set n v).countP p + (if p w then 1 else 0) = l.countP p + (if p v then 1 else 0) := by
  induction l generalizing n with
  | nil => simp at h
  | cons a l ih =>
    cases n with
    | zero => simp at h; subst h; simp [List.countP_cons]; omega
    | succ n =>
      have := ih n (by simpa using h)
      simp [List.countP_cons]; omega

/-- A listed source reads as what is listed. -/
theorem getElem?_srcAt (D : Domain) (x : Idx) (h : x.toNat < D.src.length) : D.src[x.toNat]? = some (D.srcAt x) := by
  simp [Domain.srcAt, h]

/-- A source that is not listed reads 0, so an asserted source is listed. -/
theorem src_listed (D : Domain) (x : Idx) (h : D.srcAt x ≠ 0#2) : x.toNat < D.src.length := by
  by_contra hn
  exact h (by simp [Domain.srcAt, List.getElem?_eq_none (Nat.le_of_not_lt hn)])

/-! ### The alarm table -/

/-- The least entry's first holder holds it. -/
theorem leastHolder_spec (due : List Nat) (m : Nat) (h : m ∈ due) :
    leastHolder due m < due.length ∧ due[leastHolder due m]? = some m ∧ ∀ k, k < leastHolder due m → due[k]? ≠ some m := by
  have hlt : leastHolder due m < due.length := List.findIdx_lt_length_of_exists ⟨m, h, by simp⟩
  refine ⟨hlt, ?_, ?_⟩
  · have := List.findIdx_getElem (w := hlt)
    have := by simpa using this
    rw [List.getElem?_eq_getElem hlt]; exact congrArg some this
  · intro k hk hc
    have := List.not_of_lt_findIdx hk
    rw [List.getElem?_eq_getElem (hk.trans hlt)] at hc
    simp at hc; simp [hc] at this

/-- A rescan writes the tracked minimum and nothing else. -/
theorem rescan_frame (c : Config) (D : Domain) :
    rescan c D = { D with minTick := (rescan c D).minTick, minId := (rescan c D).minId } := by
  unfold rescan; split
  · rfl
  · split <;> rfl

/-- What a rescan of a table with least entry `m` writes. -/
theorem rescan_of_min (c : Config) (D : Domain) (m : Nat) (h : D.due.min? = some m) :
    rescan c D = if m = c.inf then { D with minTick := c.inf, minId := noHandler }
      else { D with minTick := m, minId := BitVec.ofNat 8 (leastHolder D.due m) } := by
  unfold rescan; rw [h]

/-- A table with an entry has a least one. -/
theorem exists_least (l : List Nat) (h : l ≠ []) : ∃ m, l.min? = some m ∧ m ∈ l ∧ ∀ t ∈ l, m ≤ t := by
  cases hm : l.min? with
  | none => simp at hm; exact absurd hm h
  | some m => exact ⟨m, rfl, List.min?_mem hm, (List.min?_eq_some_iff.mp hm).2⟩

/-- A rescan of a table of the spec's size establishes the tracked minimum (10_state.md R41). -/
theorem minTracked_rescan (c : Config) (D : Domain) (h1 : D.due ≠ []) (h2 : D.due.length ≤ 255) (h3 : ∀ t ∈ D.due, t ≤ c.inf) :
    MinTracked c (rescan c D) := by
  obtain ⟨m, hm, hmem, hle⟩ := exists_least D.due h1
  rw [rescan_of_min c D m hm]
  split
  · rename_i he
    exact .inl ⟨rfl, rfl, fun t ht => Nat.le_antisymm (h3 t ht) (he ▸ hle t ht)⟩
  · rename_i hne
    obtain ⟨hl, hg, -⟩ := leastHolder_spec D.due m hmem
    have e : (BitVec.ofNat 8 (leastHolder D.due m)).toNat = leastHolder D.due m := by
      rw [BitVec.toNat_ofNat]; exact Nat.mod_eq_of_lt (by omega)
    refine .inr ⟨?_, hne, ?_, hle⟩
    · intro hc
      have := congrArg BitVec.toNat hc
      rw [e] at this; simp [noHandler] at this; omega
    · show D.due[(BitVec.ofNat 8 (leastHolder D.due m)).toNat]? = some m
      rw [e]; exact hg

/-- The minimum of a table whose entries have a lower bound that is reached is unchanged by writing a later tick elsewhere. -/
theorem minTracked_set_other (c : Config) (D : Domain) (h : Idx) (t : Nat) (hinv : MinTracked c D) (ht : t ≤ c.inf)
    (hmin : D.minTick ≤ t) (hne : h ≠ D.minId) : MinTracked c (D.setDue h t) := by
  rcases hinv with ⟨h1, h2, h3⟩ | ⟨h1, h2, h3, h4⟩
  · refine .inl ⟨h1, h2, fun u hu => ?_⟩
    rcases List.mem_or_eq_of_mem_set hu with hu | rfl
    · exact h3 u hu
    · omega
  · refine .inr ⟨h1, h2, ?_, fun u hu => ?_⟩
    · show (D.due.set h.toNat t)[D.minId.toNat]? = some D.minTick
      rw [List.getElem?_set_ne (fun he => hne (BitVec.eq_of_toNat_eq he))]; exact h3
    · rcases List.mem_or_eq_of_mem_set hu with hu | rfl
      · exact h4 u hu
      · exact hmin

/-- A tick written at or before every other becomes the minimum. -/
theorem minTracked_set_sooner (c : Config) (D : Domain) (h : Idx) (t : Nat) (hinv : MinTracked c D) (hb : D.minTick ≤ c.inf)
    (hl : h.toNat < D.due.length) (hid : h.toNat < 255) (hs : t < D.minTick) :
    MinTracked c { D.setDue h t with minTick := t, minId := h } := by
  refine .inr ⟨?_, by show t ≠ c.inf; omega, ?_, fun u hu => ?_⟩
  · intro hc
    have hc' : h = noHandler := hc
    rw [hc'] at hid; simp [noHandler] at hid
  · show (D.due.set h.toNat t)[h.toNat]? = some t
    simp [hl]
  · show t ≤ u
    rcases List.mem_or_eq_of_mem_set (show u ∈ D.due.set h.toNat t from hu) with hu | rfl
    · rcases hinv with ⟨_, h2, h3⟩ | ⟨_, _, _, h4⟩
      · rw [h3 u hu]; omega
      · exact Nat.le_trans (Nat.le_of_lt hs) (h4 u hu)
    · exact Nat.le_refl _

/-- The tracked minimum is a tick of TICK_W bits. -/
theorem minTick_le_inf (c : Config) (D : Domain) (h : MinTracked c D) (hd : ∀ t ∈ D.due, t ≤ c.inf) : D.minTick ≤ c.inf := by
  rcases h with ⟨_, h2, _⟩ | ⟨_, _, h3, _⟩
  · exact Nat.le_of_eq h2
  · exact hd _ (List.mem_of_getElem? h3)

/-! ### The conversion table and its loop -/

@[simp] theorem buildTable_length (m : Nat) (r : BitVec 32) : (buildTable m r).length = m + 1 := by simp [buildTable]

/-- An entry of a built table, as two exact numbers (43_clock_domain_bridge.md R190; 10_state.md R35). -/
theorem entry_of_buildTable (B : Bridge) (m n : Nat) (ht : B.tbl = buildTable m B.ratio) (hn : n ≤ m) (hm : m ≤ 65535)
    (hr : B.ratio.toNat < 2 ^ 31) :
    (B.entry n).ip.toNat = n * B.ratio.toNat / 65536 ∧ (B.entry n).fp.toNat = n * B.ratio.toNat % 65536 := by
  have he : B.entry n = tblEntryFor B.ratio.toNat n := by
    simp only [Bridge.entry, ht, buildTable, List.getD_eq_getElem?_getD, List.getElem?_map,
      List.getElem?_range (show n < m + 1 by omega)]
    rfl
  rw [he]
  have hb : n * B.ratio.toNat ≤ 65535 * 2 ^ 31 := Nat.mul_le_mul (by omega) (by omega)
  constructor
  · show (BitVec.ofNat 32 (n * B.ratio.toNat / 65536)).toNat = _
    rw [BitVec.toNat_ofNat, Nat.mod_eq_of_lt (by omega)]
  · show (BitVec.ofNat 16 (n * B.ratio.toNat % 65536)).toNat = _
    rw [BitVec.toNat_ofNat, Nat.mod_eq_of_lt (by omega)]

/-- The loop keeps 65536 times the total plus the carry in step with the ticks taken, and the carry below 65536
(43_clock_domain_bridge.md R192). -/
theorem advanceLoop_spec (B : Bridge) (m : Nat) (ht : B.tbl = buildTable m B.ratio) (h1 : 1 ≤ m) (hm : m ≤ 65535)
    (hr : B.ratio.toNat < 2 ^ 31) (fuel : Nat) :
    ∀ rem total carry, rem ≤ fuel → carry < 65536 →
      65536 * (advanceLoop B m fuel rem total carry).1 + (advanceLoop B m fuel rem total carry).2
          = 65536 * total + carry + rem * B.ratio.toNat
        ∧ (advanceLoop B m fuel rem total carry).2 < 65536 := by
  induction fuel with
  | zero =>
    intro rem total carry hrem hc
    obtain rfl : rem = 0 := by omega
    simp [advanceLoop, hc]
  | succ fuel ih =>
    intro rem total carry hrem hc
    rw [advanceLoop]
    split
    · rename_i h0; simp [h0, hc]
    · rename_i h0
      have hk : min rem m ≤ m := Nat.min_le_right _ _
      obtain ⟨hip, hfp⟩ := entry_of_buildTable B m (min rem m) ht hk hm hr
      have hsplit : rem * B.ratio.toNat = (rem - min rem m) * B.ratio.toNat + min rem m * B.ratio.toNat := by
        rw [← Nat.add_mul]; congr 1; omega
      have hdiv := Nat.div_add_mod (min rem m * B.ratio.toNat) 65536
      have hlt := Nat.mod_lt (min rem m * B.ratio.toNat) (show 65536 > 0 by omega)
      simp only []
      split
      · rename_i hov
        have := ih (rem - min rem m) (total + (B.entry (min rem m)).ip.toNat + 1)
          (carry + (B.entry (min rem m)).fp.toNat - 65536) (by omega) (by omega)
        omega
      · rename_i hov
        have := ih (rem - min rem m) (total + (B.entry (min rem m)).ip.toNat)
          (carry + (B.entry (min rem m)).fp.toNat) (by omega) (by omega)
        omega

/-! ### The legal configurations -/

/-- The bounds of a legal configuration that the operations rest on (00_scope.md R8). -/
theorem configLegal_bounds (c : Config) (h : configLegal c = true) :
    16 ≤ c.tickW ∧ c.tickW ≤ 48 ∧ 2 ≤ c.nDom ∧ c.nDom ≤ 4 ∧ 1 ≤ c.nSrc ∧ c.nSrc ≤ 256 ∧ 1 ≤ c.nAlarm ∧ c.nAlarm ≤ 255
      ∧ 1 ≤ c.maxBatch ∧ c.maxBatch ≤ 65535 ∧ c.resetClk ≤ c.clkMax := by
  simp only [configLegal, Bool.and_eq_true, decide_eq_true_eq] at h
  omega

theorem inf_pos (c : Config) (h : configLegal c = true) : 65535 ≤ c.inf := by
  have h1 := (configLegal_bounds c h).1
  have h2 : 2 ^ 16 ≤ 2 ^ c.tickW := Nat.pow_le_pow_right (by omega) h1
  unfold Config.inf; omega

end Sys2Proof.Machine
end

