-- ==== Sys2Proof/Laws/Duty.lean ====
section
/-! SUPPORT. The bounds of the overflow duty (70_reset_and_hazards.md R351): what keeps them, said once per operation. -/

namespace Sys2Proof.Machine

/-- Bounds that hold with less of the growth spent hold with more. -/
theorem withinDuty_mono {c : Config} {d : DomId} {g u v : Nat} {D : Domain} (h : WithinDuty c d g u D) (huv : u ≤ v) :
    WithinDuty c d g v D := ⟨by omega, h.2⟩

theorem withinDuty_rescan {c : Config} {d : DomId} {g u : Nat} {D : Domain} (h : WithinDuty c d g u D) :
    WithinDuty c d g u (rescan c D) := by rw [rescan_frame]; exact h

theorem withinDuty_powerOn (c : Config) (d : DomId) (g : Nat) : WithinDuty c d g 0 (Domain.powerOn c) :=
  ⟨Nat.zero_le _, ⟨Nat.zero_le _, Nat.zero_le _, fun _ h => .inl (List.eq_of_mem_replicate h)⟩, Nat.zero_le _⟩

/-- A due tick written near the clock, or INF, leaves every live due tick near it. -/
theorem ticksNear_setDue {c : Config} {g : Nat} {D : Domain} (h : TicksNearClock c g D) (x : Idx) (t : Nat)
    (ht : t = c.inf ∨ t ≤ D.clk + g) : TicksNearClock c g (D.setDue x t) := by
  refine ⟨h.1, h.2.1, fun u hu => ?_⟩
  rcases List.mem_or_eq_of_mem_set hu with h1 | rfl
  · exact h.2.2 u h1
  · exact ht

/-- A signal tick recorded near the clock is near it, with a steal window that ends near it. -/
theorem sigTick_near {D : Domain} {m t : Nat} (he : stealEnd D ≤ m) (ht : t ≤ m) : sigTick D t ≤ m := by
  unfold sigTick; split <;> omega

/-- A command of another domain, or of a bridge, does not move the clock. -/
theorem clockGrowth_of_ne (i : Instr) (d : DomId) (h : i.target ≠ .domain d) : clockGrowth d i = 0 := by
  cases i <;> simp_all [clockGrowth, Instr.target]

end Sys2Proof.Machine
end

