-- ==== Sys2Proof/Laws/Encoding.lean ====
section
/-! SUPPORT. The fields of a command word: reading back what `commandWord` writes, and what each mask of the opcode map keeps. -/

namespace Sys2Proof

variable (op : BitVec 6) (d : DomId) (x : Idx) (f1 f0 : Bool)

/-- Every bit of a command word (30_encoding.md R81). -/
theorem getLsbD_commandWord (i : Nat) : (commandWord op d x f1 f0).getLsbD i =
    if i < 1 then (BitVec.ofBool f0).getLsbD i else if i < 2 then (BitVec.ofBool f1).getLsbD (i - 1)
    else if i < 16 then false else if i < 24 then x.getLsbD (i - 16) else if i < 26 then d.getLsbD (i - 24)
    else op.getLsbD (i - 26) := by
  show @BitVec.getLsbD (6+2+8+14+1+1) (op ++ d ++ x ++ 0#14 ++ BitVec.ofBool f1 ++ BitVec.ofBool f0) i = _
  simp only [BitVec.getLsbD_append, BitVec.getLsbD_zero]
  split
  · rfl
  by_cases h2 : i < 2
  · rw [if_pos (by omega), if_pos h2]
  rw [if_neg (by omega), if_neg h2]
  by_cases h3 : i < 16
  · rw [if_pos (by omega), if_pos h3]
  rw [if_neg (by omega), if_neg h3]
  by_cases h4 : i < 24
  · rw [if_pos (by omega), if_pos h4]; rfl
  rw [if_neg (by omega), if_neg h4]
  by_cases h5 : i < 26
  · rw [if_pos (by omega), if_pos h5]; rfl
  rw [if_neg (by omega), if_neg h5]; rfl

@[simp] theorem opField_commandWord : opField (commandWord op d x f1 f0) = op := by
  apply BitVec.eq_of_getLsbD_eq
  intro i hi
  rw [opField, BitVec.getLsbD_extractLsb', getLsbD_commandWord, if_neg (by omega), if_neg (by omega), if_neg (by omega),
    if_neg (by omega), if_neg (by omega)]
  simp [hi]

@[simp] theorem domField_commandWord : domField (commandWord op d x f1 f0) = d := by
  apply BitVec.eq_of_getLsbD_eq
  intro i hi
  rw [domField, BitVec.getLsbD_extractLsb', getLsbD_commandWord, if_neg (by omega), if_neg (by omega), if_neg (by omega),
    if_neg (by omega), if_pos (by omega)]
  simp [hi]

@[simp] theorem idxField_commandWord : idxField (commandWord op d x f1 f0) = x := by
  apply BitVec.eq_of_getLsbD_eq
  intro i hi
  rw [idxField, BitVec.getLsbD_extractLsb', getLsbD_commandWord, if_neg (by omega), if_neg (by omega), if_neg (by omega),
    if_pos (by omega)]
  simp [hi]

@[simp] theorem f1Field_commandWord : f1Field (commandWord op d x f1 f0) = f1 := by
  rw [f1Field, getLsbD_commandWord]; simp

@[simp] theorem f0Field_commandWord : f0Field (commandWord op d x f1 f0) = f0 := by
  rw [f0Field, getLsbD_commandWord]; simp

/-- A word whose reserved bits are 0 is the command word of its fields. -/
theorem commandWord_of_fields (w : Word32) (h : w &&& 0x0000FFFC#32 = 0#32) :
    commandWord (opField w) (domField w) (idxField w) (f1Field w) (f0Field w) = w := by
  apply BitVec.eq_of_getLsbD_eq
  intro i hi
  have hb : (w &&& 0x0000FFFC#32).getLsbD i = false := by rw [h]; simp
  rw [BitVec.getLsbD_and] at hb
  rw [getLsbD_commandWord]
  simp only [opField, domField, idxField, f1Field, f0Field, BitVec.getLsbD_extractLsb']
  interval_cases i <;> simp_all

theorem and_allOnes (w : Word32) : w &&& 0xFFFFFFFF#32 = w := BitVec.and_allOnes

theorem commandWord_and_dom :
    commandWord op d 0 false false &&& 0xFCFFFFFF#32 = commandWord op 0 0 false false := by
  apply BitVec.eq_of_getLsbD_eq
  intro i hi
  rw [BitVec.getLsbD_and, getLsbD_commandWord, getLsbD_commandWord]
  interval_cases i <;> simp

theorem commandWord_and_domIdx :
    commandWord op d x false false &&& 0xFC00FFFF#32 = commandWord op 0 0 false false := by
  apply BitVec.eq_of_getLsbD_eq
  intro i hi
  rw [BitVec.getLsbD_and, getLsbD_commandWord, getLsbD_commandWord]
  interval_cases i <;> simp

theorem commandWord_and_domIdxF0 :
    commandWord op d x false f0 &&& 0xFC00FFFE#32 = commandWord op 0 0 false false := by
  apply BitVec.eq_of_getLsbD_eq
  intro i hi
  rw [BitVec.getLsbD_and, getLsbD_commandWord, getLsbD_commandWord]
  interval_cases i <;> simp

theorem commandWord_and_domF0 :
    commandWord op d 0 false f0 &&& 0xFCFFFFFE#32 = commandWord op 0 0 false false := by
  apply BitVec.eq_of_getLsbD_eq
  intro i hi
  rw [BitVec.getLsbD_and, getLsbD_commandWord, getLsbD_commandWord]
  interval_cases i <;> simp

theorem commandWord_and_domF1F0 :
    commandWord op d 0 f1 f0 &&& 0xFCFFFFFC#32 = commandWord op 0 0 false false := by
  apply BitVec.eq_of_getLsbD_eq
  intro i hi
  rw [BitVec.getLsbD_and, getLsbD_commandWord, getLsbD_commandWord]
  interval_cases i <;> simp

/-- A word that matches a row of the opcode map is legal. -/
theorem legalWord_of_row (w : Word32) (r : Machine.OpcodeRow) (hr : r ∈ Machine.opcodeMap) (ho : opField w = r.op)
    (hm : w &&& r.mask = r.pattern) : Machine.legalWord w = true :=
  List.any_eq_true.mpr ⟨r, hr, by simp [ho, hm]⟩

end Sys2Proof
end

