-- ==== Sys2Proof/Laws/Invariant.lean ====
section
/-! SUPPORT. What each operation on one domain or one bridge does to the invariants of 10_state.md: one lemma per operation. -/

namespace Sys2Proof.Machine

/-! ### Parts of the domain invariant -/

theorem domainInv_powerOn (c : Config) : DomainInv c (Domain.powerOn c) := by
  refine ⟨⟨?_, ?_⟩, ?_, ?_, ⟨?_, ?_, ?_, ?_⟩,
    ⟨?_, ?_, ?_⟩, .inl ⟨rfl, rfl, ?_⟩⟩
  · exact (List.countP_eq_zero.mpr (by intro a ha; rw [List.eq_of_mem_replicate ha]; decide)).symm
  · exact (List.countP_eq_zero.mpr (by intro a ha; rw [List.eq_of_mem_replicate ha]; decide)).symm
  · simp [IrqBitMatches, Domain.powerOn, isPending]
  · simp [PendReserved, Domain.powerOn]
  · exact Nat.zero_le _
  · exact Nat.zero_le _
  · exact Nat.zero_le _
  · exact Nat.zero_le _
  · exact List.length_replicate
  · exact List.length_replicate
  · intro t ht; rw [List.eq_of_mem_replicate ht]
  · intro t ht; exact List.eq_of_mem_replicate ht

/-- The pending word of a domain may change in every bit but IRQ and the reserved ones. -/
theorem domainInv_pend (c : Config) (D : Domain) (p : BitVec 8) (h : DomainInv c D)
    (hi : isPending p .irq = isPending D.pend .irq) (hr : p &&& 0xC0#8 = D.pend &&& 0xC0#8) :
    DomainInv c { D with pend := p } :=
  ⟨h.1, hi.trans h.2.1, hr.trans h.2.2.1, h.2.2.2⟩

theorem domainInv_raise (c : Config) (D : Domain) (k : Kind) (h : DomainInv c D) (hk : k ≠ .irq) :
    DomainInv c { D with pend := raise D.pend k } :=
  domainInv_pend c D _ h (isPending_raise_ne _ _ _ hk.symm) (reserved_raise _ _)

theorem domainInv_lower (c : Config) (D : Domain) (k : Kind) (h : DomainInv c D) (hk : k ≠ .irq) :
    DomainInv c { D with pend := lower D.pend k } :=
  domainInv_pend c D _ h (isPending_lower_ne _ _ _ hk.symm) (reserved_lower _ _)

/-- A clock, a signal tick or a steal record within bounds may be written. -/
theorem domainInv_ticks (c : Config) (D : Domain) (clk irq nmi start len : Nat) (h : DomainInv c D) (h1 : clk ≤ c.clkMax)
    (h2 : irq ≤ c.clkMax) (h3 : nmi ≤ c.clkMax) (h4 : start + len ≤ c.clkMax) :
    DomainInv c { D with clk := clk, irqClk := irq, nmiClk := nmi, stealStart := start, stealLen := len } :=
  ⟨h.1, h.2.1, h.2.2.1, ⟨h1, h2, h3, h4⟩, h.2.2.2.2⟩

/-! ### Line commands -/

/-- How writing one source changes the two counts. -/
theorem counts_setSrc (D : Domain) (x : Idx) (v : BitVec 2) (hx : x.toNat < D.src.length) :
    countIrq (D.setSrc x v).src + (if irqBit (D.srcAt x) then 1 else 0) = countIrq D.src + (if irqBit v then 1 else 0)
      ∧ countNmi (D.setSrc x v).src + (if nmiBit (D.srcAt x) then 1 else 0) = countNmi D.src + (if nmiBit v then 1 else 0) :=
  ⟨countP_set_add irqBit D.src x.toNat v _ (getElem?_srcAt D x hx), countP_set_add nmiBit D.src x.toNat v _ (getElem?_srcAt D x hx)⟩

/-- A source that asserts IRQ is counted. -/
theorem countIrq_pos (D : Domain) (x : Idx) (h : irqBit (D.srcAt x) = true) : 0 < countIrq D.src := by
  have hx : x.toNat < D.src.length := src_listed D x (by intro hc; rw [hc] at h; exact absurd h (by decide))
  exact List.countP_pos_iff.mpr ⟨D.srcAt x, List.mem_of_getElem? (getElem?_srcAt D x hx), h⟩

/-- A source that asserts NMI is counted. -/
theorem countNmi_pos (D : Domain) (x : Idx) (h : nmiBit (D.srcAt x) = true) : 0 < countNmi D.src := by
  have hx : x.toNat < D.src.length := src_listed D x (by intro hc; rw [hc] at h; exact absurd h (by decide))
  exact List.countP_pos_iff.mpr ⟨D.srcAt x, List.mem_of_getElem? (getElem?_srcAt D x hx), h⟩

theorem tablesSized_setSrc (c : Config) (D : Domain) (x : Idx) (v : BitVec 2) (h : TablesSized c D) :
    TablesSized c (D.setSrc x v) := ⟨by simpa [Domain.setSrc] using h.1, h.2⟩

/-- An IRQ rise of a released source keeps the invariant, with any signal tick in bounds. -/
theorem domainInv_assertIrq (c : Config) (D : Domain) (x : Idx) (v : Nat) (h : DomainInv c D) (hx : x.toNat < c.nSrc)
    (hb : irqBit (D.srcAt x) = false) (hv : v ≤ c.clkMax) : DomainInv c { assertIrq D x with irqClk := v } := by
  obtain ⟨h1, h2, h3, h4, h5, h6⟩ := h
  have hs := counts_setSrc D x (withIrqBit (D.srcAt x) true) (h5.1 ▸ hx)
  rw [irqBit_withIrqBit, nmiBit_withIrqBit, hb] at hs
  refine ⟨⟨?_, ?_⟩, ?_, (reserved_raise _ _).trans h3, ⟨h4.1, hv, h4.2.2⟩, tablesSized_setSrc c D x _ h5, h6⟩
  · show D.nirq + 1 = countIrq (D.setSrc x (withIrqBit (D.srcAt x) true)).src
    have := h1.1; simp at hs; omega
  · show D.nnmi = countNmi (D.setSrc x (withIrqBit (D.srcAt x) true)).src
    have := h1.2; omega
  · show isPending (raise D.pend .irq) .irq = decide (0 < D.nirq + 1)
    rw [isPending_raise_self]; simp

/-- An IRQ release of an asserting source keeps the invariant. -/
theorem domainInv_releaseIrq (c : Config) (D : Domain) (x : Idx) (h : DomainInv c D) (hx : x.toNat < c.nSrc)
    (hb : irqBit (D.srcAt x) = true) :
    DomainInv c { D.setSrc x (withIrqBit (D.srcAt x) false) with
      nirq := D.nirq - 1, pend := if D.nirq - 1 = 0 then lower D.pend .irq else D.pend } := by
  obtain ⟨h1, h2, h3, h4, h5, h6⟩ := h
  have hs := counts_setSrc D x (withIrqBit (D.srcAt x) false) (h5.1 ▸ hx)
  rw [irqBit_withIrqBit, nmiBit_withIrqBit, hb] at hs
  refine ⟨⟨?_, ?_⟩, ?_, ?_, h4, tablesSized_setSrc c D x _ h5, h6⟩
  · show D.nirq - 1 = countIrq (D.setSrc x (withIrqBit (D.srcAt x) false)).src
    have := h1.1; simp at hs; omega
  · show D.nnmi = countNmi (D.setSrc x (withIrqBit (D.srcAt x) false)).src
    have := h1.2; omega
  · show isPending (if D.nirq - 1 = 0 then lower D.pend .irq else D.pend) .irq = decide (0 < D.nirq - 1)
    split
    · rename_i h0; rw [isPending_lower_self, h0]; rfl
    · rw [h2]; simp; omega
  · show (if D.nirq - 1 = 0 then lower D.pend .irq else D.pend) &&& 0xC0#8 = 0#8
    split
    · exact (reserved_lower _ _).trans h3
    · exact h3

/-- An NMI rise of a released source keeps the invariant. -/
theorem domainInv_assertNmi (c : Config) (D : Domain) (x : Idx) (h : DomainInv c D) (hx : x.toNat < c.nSrc)
    (hb : nmiBit (D.srcAt x) = false) : DomainInv c (assertNmi D x) := by
  obtain ⟨h1, h2, h3, h4, h5, h6⟩ := h
  have hs := counts_setSrc D x (withNmiBit (D.srcAt x) true) (h5.1 ▸ hx)
  rw [nmiBit_withNmiBit, irqBit_withNmiBit, hb] at hs
  refine ⟨⟨?_, ?_⟩, h2, h3, h4, tablesSized_setSrc c D x _ h5, h6⟩
  · show D.nirq = countIrq (D.setSrc x (withNmiBit (D.srcAt x) true)).src
    have := h1.1; omega
  · show D.nnmi + 1 = countNmi (D.setSrc x (withNmiBit (D.srcAt x) true)).src
    have := h1.2; simp at hs; omega

/-- An NMI release of an asserting source keeps the invariant, whatever it does to the NMI bit. -/
theorem domainInv_releaseNmi (c : Config) (D : Domain) (x : Idx) (t : Nat) (h : DomainInv c D) (hx : x.toNat < c.nSrc)
    (hb : nmiBit (D.srcAt x) = true) :
    DomainInv c { D.setSrc x (withNmiBit (D.srcAt x) false) with
      nnmi := D.nnmi - 1, pend := pendAfterRelease D (D.nnmi - 1) t } := by
  obtain ⟨h1, h2, h3, h4, h5, h6⟩ := h
  have hs := counts_setSrc D x (withNmiBit (D.srcAt x) false) (h5.1 ▸ hx)
  rw [nmiBit_withNmiBit, irqBit_withNmiBit, hb] at hs
  refine ⟨⟨?_, ?_⟩, ?_, ?_, h4, tablesSized_setSrc c D x _ h5, h6⟩
  · show D.nirq = countIrq (D.setSrc x (withNmiBit (D.srcAt x) false)).src
    have := h1.1; omega
  · show D.nnmi - 1 = countNmi (D.setSrc x (withNmiBit (D.srcAt x) false)).src
    have := h1.2; simp at hs; omega
  · show isPending (pendAfterRelease D (D.nnmi - 1) t) .irq = decide (0 < D.nirq)
    unfold pendAfterRelease; split
    · rw [isPending_lower_ne _ _ _ (by decide)]; exact h2
    · exact h2
  · show pendAfterRelease D (D.nnmi - 1) t &&& 0xC0#8 = 0#8
    unfold pendAfterRelease; split
    · exact (reserved_lower _ _).trans h3
    · exact h3

/-! ### The alarm queue -/

/-- The alarm table of a domain may be replaced by one of the same size, with its minimum. -/
theorem domainInv_queue (c : Config) (D : Domain) (due : List Nat) (m : Nat) (i : BitVec 8) (h : DomainInv c D)
    (hl : due.length = c.nAlarm) (hd : ∀ t ∈ due, t ≤ c.inf)
    (hm : MinTracked c { D with due := due, minTick := m, minId := i }) :
    DomainInv c { D with due := due, minTick := m, minId := i } :=
  ⟨h.1, h.2.1, h.2.2.1, h.2.2.2.1, ⟨h.2.2.2.2.1.1, hl, hd⟩, hm⟩

/-- A rescan establishes the tracked minimum of any table of the right size. -/
theorem domainInv_rescan (c : Config) (D : Domain) (hc : configLegal c = true)
    (h : CountsMatch D ∧ IrqBitMatches D ∧ PendReserved D ∧ TickBounds c D ∧ TablesSized c D) : DomainInv c (rescan c D) := by
  obtain ⟨h1, h2, h3, h4, h5⟩ := h
  have hb := configLegal_bounds c hc
  have hm : MinTracked c (rescan c D) :=
    minTracked_rescan c D (by intro he; have := h5.2.1; rw [he] at this; simp at this; omega) (by rw [h5.2.1]; omega) h5.2.2
  rw [rescan_frame] at hm ⊢
  exact ⟨h1, h2, h3, h4, h5, hm⟩

theorem tablesSized_setDue (c : Config) (D : Domain) (h : Idx) (t : Nat) (hs : TablesSized c D) (ht : t ≤ c.inf) :
    TablesSized c (D.setDue h t) := by
  refine ⟨hs.1, by simpa [Domain.setDue] using hs.2.1, fun u hu => ?_⟩
  rcases List.mem_or_eq_of_mem_set (show u ∈ D.due.set h.toNat t from hu) with hu | rfl
  · exact hs.2.2 u hu
  · exact ht

theorem domainInv_scheduleAlarm (c : Config) (D : Domain) (h : Idx) (t : Nat) (hc : configLegal c = true) (hi : DomainInv c D)
    (hh : h.toNat < c.nAlarm) (ht : t ≤ c.inf) : DomainInv c (scheduleAlarm c D h t) := by
  have hi' := hi
  obtain ⟨h1, h2, h3, h4, h5, h6⟩ := hi
  have hb := configLegal_bounds c hc
  have h5' := tablesSized_setDue c D h t h5 ht
  unfold scheduleAlarm
  split
  · rename_i hlt
    refine ⟨h1, h2, h3, h4, h5', ?_⟩
    exact minTracked_set_sooner c D h t h6 (minTick_le_inf c D h6 h5.2.2) (by rw [h5.2.1]; exact hh) (by omega) hlt
  · split
    · exact domainInv_rescan c _ hc ⟨h1, h2, h3, h4, h5'⟩
    · rename_i hn hne
      exact ⟨h1, h2, h3, h4, h5', minTracked_set_other c D h t h6 ht (by omega) hne⟩

theorem domainInv_cancelAlarm (c : Config) (D : Domain) (h : Idx) (hc : configLegal c = true) (hi : DomainInv c D) :
    DomainInv c (cancelAlarm c D h) := by
  obtain ⟨h1, h2, h3, h4, h5, h6⟩ := hi
  have h5' := tablesSized_setDue c D h c.inf h5 (Nat.le_refl _)
  unfold cancelAlarm
  split
  · exact domainInv_rescan c _ hc ⟨h1, h2, h3, h4, h5'⟩
  · rename_i hne
    exact ⟨h1, h2, h3, h4, h5', minTracked_set_other c D h c.inf h6 (Nat.le_refl _) (minTick_le_inf c D h6 h5.2.2) hne⟩

/-! ### Overflow prevention, reset and load -/

theorem rebaseDue_le (c : Config) (a t : Nat) (ht : t ≤ c.inf) : rebaseDue c a t ≤ c.inf := by
  unfold rebaseDue; rw [satSub_eq]; split <;> omega

theorem domainInv_rebase (c : Config) (D : Domain) (a : Nat) (hi : DomainInv c D) (ha : 1 ≤ a) : DomainInv c (rebase c D a) := by
  obtain ⟨h1, h2, h3, h4, h5, h6⟩ := hi
  refine ⟨h1, h2, h3, ⟨?_, ?_, ?_, ?_⟩, ⟨h5.1, ?_, ?_⟩, ?_⟩
  · show D.clk - a ≤ _; have := h4.1; omega
  · show satSub D.irqClk a ≤ _; rw [satSub_eq]; have := h4.2.1; omega
  · show satSub D.nmiClk a ≤ _; rw [satSub_eq]; have := h4.2.2.1; omega
  · show satSub D.stealStart a + D.stealLen ≤ _
    rw [satSub_eq]; have : D.stealStart + D.stealLen ≤ _ := h4.2.2.2; omega
  · show (D.due.map (rebaseDue c a)).length = _; rw [List.length_map]; exact h5.2.1
  · intro t ht
    obtain ⟨u, hu, rfl⟩ := List.mem_map.mp (show t ∈ D.due.map (rebaseDue c a) from ht)
    exact rebaseDue_le c a u (h5.2.2 u hu)
  · rcases h6 with ⟨g1, g2, g3⟩ | ⟨g1, g2, g3, g4⟩
    · refine .inl ⟨g1, ?_, fun t ht => ?_⟩
      · show (if D.minId = noHandler then D.minTick else _) = _; rw [if_pos g1]; exact g2
      · obtain ⟨u, hu, rfl⟩ := List.mem_map.mp (show t ∈ D.due.map (rebaseDue c a) from ht)
        unfold rebaseDue; rw [if_pos (g3 u hu)]; exact g3 u hu
    · have hle : D.minTick ≤ c.inf := h5.2.2 _ (List.mem_of_getElem? g3)
      have e : (rebase c D a).minTick = D.minTick - a := by
        show (if D.minId = noHandler then D.minTick else satSub D.minTick a) = _
        rw [if_neg g1, satSub_eq]
      refine .inr ⟨g1, ?_, ?_, fun t ht => ?_⟩
      · rw [e]; omega
      · show (D.due.map (rebaseDue c a))[D.minId.toNat]? = some (rebase c D a).minTick
        rw [List.getElem?_map, g3, e]
        show some (rebaseDue c a D.minTick) = _
        unfold rebaseDue; rw [if_neg g2, satSub_eq]
      · obtain ⟨u, hu, rfl⟩ := List.mem_map.mp (show t ∈ D.due.map (rebaseDue c a) from ht)
        rw [e]; have := g4 u hu
        unfold rebaseDue; rw [satSub_eq]; split <;> omega

theorem domainInv_resetDomain (c : Config) (D : Domain) (hc : configLegal c = true) (hi : DomainInv c D) :
    DomainInv c (resetDomain c D) := by
  have hp := domainInv_powerOn c
  have hb := configLegal_bounds c hc
  have hm : ∀ p : BitVec 8, isPending (pendAfterReset p) .irq = false ∧ pendAfterReset p &&& 0xC0#8 = 0#8 := by decide
  refine ⟨hp.1, (hm D.pend).1, (hm D.pend).2,
    ⟨by show c.resetClk ≤ _; omega, Nat.zero_le _, Nat.zero_le _, Nat.zero_le _⟩, ?_, ?_⟩
  · obtain ⟨-, -, -, -, h5, -⟩ := hi
    refine ⟨List.length_replicate, ?_⟩
    unfold resetDomain
    cases c.resetAlarmPolicy
    · exact hp.2.2.2.2.1.2
    · exact h5.2
  · obtain ⟨-, -, -, -, -, h6⟩ := hi
    unfold resetDomain
    cases hpol : c.resetAlarmPolicy
    · exact .inl ⟨rfl, rfl, hp.2.2.2.2.2.elim (fun g => g.2.2) (fun g => absurd rfl g.1)⟩
    · exact h6

/-- Loading a domain record that fits and is consistent establishes the invariant. -/
theorem domainInv_loadDomain (c : Config) (D : Domain) (rd : SnapDomain) (hc : configLegal c = true)
    (hf : rd.src.length = c.nSrc ∧ rd.due.length = c.nAlarm ∧ ∀ t ∈ rd.due, t ≤ c.inf) (hk : domainConsistent c rd = true) :
    DomainInv c (loadDomain c D rd) := by
  simp only [domainConsistent, Bool.and_eq_true, decide_eq_true_eq, beq_iff_eq] at hk
  obtain ⟨⟨⟨⟨⟨⟨k1, k2⟩, k3⟩, k4⟩, k5⟩, k6⟩, k7⟩ := hk
  exact domainInv_rescan c _ hc ⟨⟨k1, k2⟩, k3, k4, ⟨k5, k6, k7, Nat.zero_le _⟩, hf⟩

/-! ### Bridges -/

theorem bridgeInv_powerOn (c : Config) : BridgeInv c Bridge.powerOn := ⟨fun _ => ⟨rfl, rfl⟩, fun h => absurd h (by decide)⟩

/-- The carry may take any value. -/
theorem bridgeInv_carry (c : Config) (B : Bridge) (v : BitVec 16) (h : BridgeInv c B) : BridgeInv c { B with carry := v } := h

/-- A ratio that is positive as a signed number, and its table, may be written. -/
theorem bridgeInv_ratio (c : Config) (B : Bridge) (r : BitVec 32) (h : 0 < r.toInt) :
    BridgeInv c { B with ratioValid := true, ratio := r, tbl := buildTable c.maxBatch r } := by
  refine ⟨fun h => absurd h Bool.noConfusion, fun _ => ⟨?_, ?_, rfl⟩⟩ <;>
    · rw [BitVec.toInt_eq_toNat_cond] at h
      have := r.isLt
      split at h <;> first | (show 1 ≤ r.toNat; omega) | (show r.toNat < 2 ^ 31; omega)

/-! ### The block -/

/-- A response changes no part of the invariant. -/
theorem inv_endWith (s : State) (r : Response) (h : Inv s) : Inv (endWith s r) := h

/-- Replacing one domain of the block by one in order keeps the invariant. -/
theorem inv_setDom (s : State) (d : DomId) (D : Domain) (h : Inv s) (hd : d.toNat < s.cfg.nDom) (hD : DomainInv s.cfg D) :
    Inv (s.setDom d D) := by
  refine ⟨h.1, fun e he => ?_, h.2.2.1, fun e he => ?_⟩
  · by_cases hed : e = d
    · subst hed; rw [State.dom_setDom_self]; exact hD
    · rw [State.dom_setDom_ne _ _ _ _ hed]; exact h.2.1 e he
  · have hed : e ≠ d := by rintro rfl; exact absurd hd (Nat.not_lt.mpr he)
    rw [State.dom_setDom_ne _ _ _ _ hed]; exact h.2.2.2 e he

/-- Replacing one bridge of the block by one in order keeps the invariant. -/
theorem inv_setBridge (s : State) (b : DomId) (B : Bridge) (h : Inv s) (h1 : 1 ≤ b.toNat) (hb : b.toNat < s.cfg.nDom)
    (hB : BridgeInv s.cfg B) : Inv (s.setBridge b B) := by
  refine ⟨h.1, h.2.1, fun e he1 he => ?_, fun e he => ?_⟩
  · by_cases hed : e = b
    · subst hed; rw [State.bridge_setBridge_self _ _ _ h1]; exact hB
    · rw [State.bridge_setBridge_ne _ _ _ _ hed]; exact h.2.2.1 e he1 he
  · have hed : e ≠ b := by rintro rfl; exact absurd hb (Nat.not_lt.mpr he)
    rw [State.bridge_setBridge_ne _ _ _ _ hed]; exact h.2.2.2 e he

/-- A command that answers RANGE keeps the invariant, so only its own rule matters. -/
theorem inv_inRange (ok : Bool) (s own t : State) (h : Inv s) (ho : ok = true → Inv own) (ht : inRange ok s own = .next t) :
    Inv t := by
  rcases (inRange_eq_next ok s own t).mp ht with ⟨h1, rfl⟩ | ⟨-, rfl⟩
  · exact ho h1
  · exact inv_endWith s _ h

end Sys2Proof.Machine
end

