-- ==== Sys2Proof/Laws/PerInstr.lean ====
section
/-! SUPPORT. Per-instruction facts. Family WordMatchesRow: the command word an instruction encodes to has the OP of a row of the opcode
map and matches that row under its mask (30_encoding.md R82, R85). -/

namespace Sys2Proof.Laws.WordMatchesRow

/-- The word of the instruction is legal (60_exceptions.md R303). -/
def Statement (i : Instr) : Prop := Machine.legalWord (encodeWord i) = true

theorem nop : Statement (.nop) :=
  legalWord_of_row _ ⟨0x00#6, 0x00000000#32, 0xFFFFFFFF#32⟩ (by decide)
    (by decide) (by decide)

theorem setIrq (d : DomId) (x : Idx) (on : Bool) (t : Word64) : Statement (.setIrq d x on t) :=
  legalWord_of_row _ ⟨0x01#6, 0x04000000#32, Machine.maskDomIdxF0⟩ (by decide)
    (opField_commandWord _ _ _ _ _) ((commandWord_and_domIdxF0 _ d x on).trans (by decide))

theorem setNmi (d : DomId) (x : Idx) (on : Bool) (t : Word64) : Statement (.setNmi d x on t) :=
  legalWord_of_row _ ⟨0x02#6, 0x08000000#32, Machine.maskDomIdxF0⟩ (by decide)
    (opField_commandWord _ _ _ _ _) ((commandWord_and_domIdxF0 _ d x on).trans (by decide))

theorem triggerReset (d : DomId) : Statement (.triggerReset d) :=
  legalWord_of_row _ ⟨0x03#6, 0x0C000000#32, Machine.maskDom⟩ (by decide)
    (opField_commandWord _ _ _ _ _) ((commandWord_and_dom _ d).trans (by decide))

theorem ackReset (d : DomId) : Statement (.ackReset d) :=
  legalWord_of_row _ ⟨0x04#6, 0x10000000#32, Machine.maskDom⟩ (by decide)
    (opField_commandWord _ _ _ _ _) ((commandWord_and_dom _ d).trans (by decide))

theorem triggerTrap (d : DomId) (t : Word64) : Statement (.triggerTrap d t) :=
  legalWord_of_row _ ⟨0x05#6, 0x14000000#32, Machine.maskDom⟩ (by decide)
    (opField_commandWord _ _ _ _ _) ((commandWord_and_dom _ d).trans (by decide))

theorem ackTrap (d : DomId) : Statement (.ackTrap d) :=
  legalWord_of_row _ ⟨0x06#6, 0x18000000#32, Machine.maskDom⟩ (by decide)
    (opField_commandWord _ _ _ _ _) ((commandWord_and_dom _ d).trans (by decide))

theorem checkPending (d : DomId) : Statement (.checkPending d) :=
  legalWord_of_row _ ⟨0x07#6, 0x1C000000#32, Machine.maskDom⟩ (by decide)
    (opField_commandWord _ _ _ _ _) ((commandWord_and_dom _ d).trans (by decide))

theorem ackNmi (d : DomId) : Statement (.ackNmi d) :=
  legalWord_of_row _ ⟨0x08#6, 0x20000000#32, Machine.maskDom⟩ (by decide)
    (opField_commandWord _ _ _ _ _) ((commandWord_and_dom _ d).trans (by decide))

theorem triggerMonitor (d : DomId) : Statement (.triggerMonitor d) :=
  legalWord_of_row _ ⟨0x09#6, 0x24000000#32, Machine.maskDom⟩ (by decide)
    (opField_commandWord _ _ _ _ _) ((commandWord_and_dom _ d).trans (by decide))

theorem ackMonitor (d : DomId) : Statement (.ackMonitor d) :=
  legalWord_of_row _ ⟨0x0A#6, 0x28000000#32, Machine.maskDom⟩ (by decide)
    (opField_commandWord _ _ _ _ _) ((commandWord_and_dom _ d).trans (by decide))

theorem triggerDma (d : DomId) : Statement (.triggerDma d) :=
  legalWord_of_row _ ⟨0x0B#6, 0x2C000000#32, Machine.maskDom⟩ (by decide)
    (opField_commandWord _ _ _ _ _) ((commandWord_and_dom _ d).trans (by decide))

theorem ackDma (d : DomId) : Statement (.ackDma d) :=
  legalWord_of_row _ ⟨0x0C#6, 0x30000000#32, Machine.maskDom⟩ (by decide)
    (opField_commandWord _ _ _ _ _) ((commandWord_and_dom _ d).trans (by decide))

theorem readCounts (d : DomId) : Statement (.readCounts d) :=
  legalWord_of_row _ ⟨0x0D#6, 0x34000000#32, Machine.maskDom⟩ (by decide)
    (opField_commandWord _ _ _ _ _) ((commandWord_and_dom _ d).trans (by decide))

theorem readSigclk (d : DomId) : Statement (.readSigclk d) :=
  legalWord_of_row _ ⟨0x0E#6, 0x38000000#32, Machine.maskDom⟩ (by decide)
    (opField_commandWord _ _ _ _ _) ((commandWord_and_dom _ d).trans (by decide))

theorem readSrc (d : DomId) (x : Idx) : Statement (.readSrc d x) :=
  legalWord_of_row _ ⟨0x0F#6, 0x3C000000#32, Machine.maskDomIdx⟩ (by decide)
    (opField_commandWord _ _ _ _ _) ((commandWord_and_domIdx _ d x).trans (by decide))

theorem checkIrqDelay (d : DomId) (br ie : Bool) (t : Word64) : Statement (.checkIrqDelay d br ie t) :=
  legalWord_of_row _ ⟨0x10#6, 0x40000000#32, 0xFCFFFFFC#32⟩ (by decide)
    (opField_commandWord _ _ _ _ _) ((commandWord_and_domF1F0 _ d ie br).trans (by decide))

theorem checkNmiDelay (d : DomId) (br : Bool) (t : Word64) : Statement (.checkNmiDelay d br t) :=
  legalWord_of_row _ ⟨0x11#6, 0x44000000#32, 0xFCFFFFFE#32⟩ (by decide)
    (opField_commandWord _ _ _ _ _) ((commandWord_and_domF0 _ d br).trans (by decide))

theorem steal (d : DomId) (t n : Word64) : Statement (.steal d t n) :=
  legalWord_of_row _ ⟨0x12#6, 0x48000000#32, Machine.maskDom⟩ (by decide)
    (opField_commandWord _ _ _ _ _) ((commandWord_and_dom _ d).trans (by decide))

theorem readSteal (d : DomId) : Statement (.readSteal d) :=
  legalWord_of_row _ ⟨0x13#6, 0x4C000000#32, Machine.maskDom⟩ (by decide)
    (opField_commandWord _ _ _ _ _) ((commandWord_and_dom _ d).trans (by decide))

theorem alarmSchedule (d : DomId) (x : Idx) (t : Word64) : Statement (.alarmSchedule d x t) :=
  legalWord_of_row _ ⟨0x18#6, 0x60000000#32, Machine.maskDomIdx⟩ (by decide)
    (opField_commandWord _ _ _ _ _) ((commandWord_and_domIdx _ d x).trans (by decide))

theorem alarmCancel (d : DomId) (x : Idx) : Statement (.alarmCancel d x) :=
  legalWord_of_row _ ⟨0x19#6, 0x64000000#32, Machine.maskDomIdx⟩ (by decide)
    (opField_commandWord _ _ _ _ _) ((commandWord_and_domIdx _ d x).trans (by decide))

theorem alarmNextDue (d : DomId) : Statement (.alarmNextDue d) :=
  legalWord_of_row _ ⟨0x1A#6, 0x68000000#32, Machine.maskDom⟩ (by decide)
    (opField_commandWord _ _ _ _ _) ((commandWord_and_dom _ d).trans (by decide))

theorem alarmServeNext (d : DomId) : Statement (.alarmServeNext d) :=
  legalWord_of_row _ ⟨0x1B#6, 0x6C000000#32, Machine.maskDom⟩ (by decide)
    (opField_commandWord _ _ _ _ _) ((commandWord_and_dom _ d).trans (by decide))

theorem alarmRead (d : DomId) (x : Idx) : Statement (.alarmRead d x) :=
  legalWord_of_row _ ⟨0x1C#6, 0x70000000#32, Machine.maskDomIdx⟩ (by decide)
    (opField_commandWord _ _ _ _ _) ((commandWord_and_domIdx _ d x).trans (by decide))

theorem bridgeSetRatio (d : DomId) (t : Word64) : Statement (.bridgeSetRatio d t) :=
  legalWord_of_row _ ⟨0x20#6, 0x80000000#32, Machine.maskDom⟩ (by decide)
    (opField_commandWord _ _ _ _ _) ((commandWord_and_dom _ d).trans (by decide))

theorem bridgeAdvance (d : DomId) (t : Word64) : Statement (.bridgeAdvance d t) :=
  legalWord_of_row _ ⟨0x21#6, 0x84000000#32, Machine.maskDom⟩ (by decide)
    (opField_commandWord _ _ _ _ _) ((commandWord_and_dom _ d).trans (by decide))

theorem bridgeLookup (d : DomId) (t : Word64) : Statement (.bridgeLookup d t) :=
  legalWord_of_row _ ⟨0x22#6, 0x88000000#32, Machine.maskDom⟩ (by decide)
    (opField_commandWord _ _ _ _ _) ((commandWord_and_dom _ d).trans (by decide))

theorem bridgeRead (d : DomId) : Statement (.bridgeRead d) :=
  legalWord_of_row _ ⟨0x23#6, 0x8C000000#32, Machine.maskDom⟩ (by decide)
    (opField_commandWord _ _ _ _ _) ((commandWord_and_dom _ d).trans (by decide))

theorem clkAdvance (d : DomId) (t : Word64) : Statement (.clkAdvance d t) :=
  legalWord_of_row _ ⟨0x28#6, 0xA0000000#32, Machine.maskDom⟩ (by decide)
    (opField_commandWord _ _ _ _ _) ((commandWord_and_dom _ d).trans (by decide))

theorem clkRead (d : DomId) : Statement (.clkRead d) :=
  legalWord_of_row _ ⟨0x29#6, 0xA4000000#32, Machine.maskDom⟩ (by decide)
    (opField_commandWord _ _ _ _ _) ((commandWord_and_dom _ d).trans (by decide))

theorem preventOverflow (d : DomId) : Statement (.preventOverflow d) :=
  legalWord_of_row _ ⟨0x2A#6, 0xA8000000#32, Machine.maskDom⟩ (by decide)
    (opField_commandWord _ _ _ _ _) ((commandWord_and_dom _ d).trans (by decide))

theorem snapSave : Statement (.snapSave) :=
  legalWord_of_row _ ⟨0x30#6, 0xC0000000#32, 0xFFFFFFFF#32⟩ (by decide)
    (by decide) (by decide)

theorem snapLoad : Statement (.snapLoad) :=
  legalWord_of_row _ ⟨0x31#6, 0xC4000000#32, 0xFFFFFFFF#32⟩ (by decide)
    (by decide) (by decide)

end Sys2Proof.Laws.WordMatchesRow
end

