-- ==== Sys2Proof/Laws/Snapshot.lean ====
section
/-! SUPPORT. What saving and loading a snapshot record do, said once: the parts of the saved record, and each domain and bridge after a
load (46_snapshot_and_control.md R261 to R263). -/

namespace Sys2Proof.Machine

/-- A parameter that fits its header field stands in it. -/
theorem header8_toNat (v : Nat) (h : v < 256) : (header8 v).toNat = v := by
  unfold header8; rw [if_pos h, BitVec.toNat_ofNat, Nat.mod_eq_of_lt (by omega)]

/-- N_SRC = 256 does not fit its header field (log 9). -/
theorem header8_oversize : header8 256 = Config.oversizeHeader 256 := rfl

theorem getElem?_domainIds (n : Nat) (d : DomId) (hd : d.toNat < n) : (domainIds n)[d.toNat]? = some d := by
  unfold domainIds
  rw [List.getElem?_map, List.getElem?_range hd]
  simp

/-- Domain `d` of the saved record. -/
theorem snapshot_domain (s : State) (d : DomId) (hd : d.toNat < s.cfg.nDom) :
    (snapshot s).domains[d.toNat]? = some (snapDomain (s.dom d)) := by
  show ((domainIds s.cfg.nDom).map _)[d.toNat]? = _
  rw [List.getElem?_map, getElem?_domainIds _ _ hd]; rfl

/-- The carry of bridge `b` in the saved record. -/
theorem snapshot_carry (s : State) (b : DomId) (h1 : 1 ≤ b.toNat) (hb : b.toNat < s.cfg.nDom) :
    (snapshot s).carries[b.toNat - 1]? = some (s.bridge b).carry := by
  show (((domainIds s.cfg.nDom).drop 1).map _)[b.toNat - 1]? = _
  rw [List.getElem?_map, List.getElem?_drop, show 1 + (b.toNat - 1) = b.toNat by omega, getElem?_domainIds _ _ hb]; rfl

theorem snapshot_lengths (s : State) : (snapshot s).domains.length = s.cfg.nDom ∧ (snapshot s).carries.length = s.cfg.nDom - 1 := by
  simp [snapshot, domainIds]

/-- Every domain entry of the saved record is the entry of a domain of the block. -/
theorem mem_snapshot_domains (s : State) (h : s.cfg.nDom ≤ 4) (rd : SnapDomain) (hm : rd ∈ (snapshot s).domains) :
    ∃ d : DomId, d.toNat < s.cfg.nDom ∧ rd = snapDomain (s.dom d) := by
  obtain ⟨d, hd, rfl⟩ := List.mem_map.mp (show rd ∈ (domainIds s.cfg.nDom).map _ from hm)
  unfold domainIds at hd
  obtain ⟨k, hk, rfl⟩ := List.mem_map.mp hd
  refine ⟨_, ?_, rfl⟩
  have := List.mem_range.mp hk
  rw [BitVec.toNat_ofNat, Nat.mod_eq_of_lt (by omega)]; exact this

/-- The pending word of a domain in order is saved as it is. -/
theorem readPend_of_reserved (p : BitVec 8) (h : p &&& 0xC0#8 = 0#8) : readPend p = p := by
  revert p; decide

/-- Domain `d` after a load. -/
theorem loadRecord_dom (s : State) (r : SnapRecord) (d : DomId) :
    (loadRecord s r).dom d =
      match r.domains[d.toNat]? with
      | some rd => loadDomain s.cfg (s.dom d) rd
      | none => s.dom d := PerDomain.get_ofFn _ d

/-- Bridge `b` after a load. -/
theorem loadRecord_bridge (s : State) (r : SnapRecord) (b : DomId) (h : 1 ≤ b.toNat) :
    (loadRecord s r).bridge b =
      match r.carries[b.toNat - 1]? with
      | some v => { s.bridge b with carry := v }
      | none => s.bridge b := PerBridge.get_ofFn _ _ b h

@[simp] theorem loadRecord_cfg (s : State) (r : SnapRecord) : (loadRecord s r).cfg = s.cfg := rfl
@[simp] theorem loadRecord_inputs (s : State) (r : SnapRecord) : (loadRecord s r).inputs = s.inputs := rfl
@[simp] theorem loadRecord_snapIn (s : State) (r : SnapRecord) : (loadRecord s r).snapIn = s.snapIn := rfl

/-- What a record that is accepted satisfies. -/
theorem recordAccepted_iff (c : Config) (r : SnapRecord) : recordAccepted c r = true ↔
    (r.domains.length = c.nDom ∧ r.carries.length = c.nDom - 1)
      ∧ (r.version = c.snapVersion ∧ r.nDom = header8 c.nDom ∧ r.nSrc = header8 c.nSrc ∧ r.nAlarm = header8 c.nAlarm
        ∧ r.tickW = header8 c.tickW)
      ∧ ∀ rd ∈ r.domains, (rd.src.length = c.nSrc ∧ rd.due.length = c.nAlarm ∧ ∀ t ∈ rd.due, t ≤ c.inf)
        ∧ domainConsistent c rd = true := by
  simp only [recordAccepted, recordFits, headerMatches, Bool.and_eq_true, decide_eq_true_eq, List.all_eq_true]
  constructor
  · rintro ⟨⟨⟨⟨a1, a2⟩, a3⟩, ⟨⟨⟨b1, b2⟩, b3⟩, b4⟩, b5⟩, c1⟩
    exact ⟨⟨a1, a2⟩, ⟨b1, b2, b3, b4, b5⟩, fun rd hm => ⟨⟨(a3 rd hm).1.1, (a3 rd hm).1.2, (a3 rd hm).2⟩, c1 rd hm⟩⟩
  · rintro ⟨⟨a1, a2⟩, ⟨b1, b2, b3, b4, b5⟩, h⟩
    exact ⟨⟨⟨⟨a1, a2⟩, fun rd hm => ⟨⟨(h rd hm).1.1, (h rd hm).1.2.1⟩, (h rd hm).1.2.2⟩⟩, ⟨⟨⟨b1, b2⟩, b3⟩, b4⟩, b5⟩,
      fun rd hm => (h rd hm).2⟩

end Sys2Proof.Machine
end

