-- ==== Sys2Proof/Tests/Slice0.lean ====
section
/-! SUPPORT. Tests. Expected results come from the spec: 30_encoding.md R85, R89, R91, the worked examples of the command rules, and
95_test_vectors.md (V<n>), with smaller parameters where a vector does not need TC1's. The `witness_` theorems show a concrete state and
operands that meet the hypotheses of a statement, clause by clause. -/

namespace Sys2Proof.Machine.Tests

/-! ### Helpers -/

/-- A small legal configuration: TC1 with TICK_W = 16, N_SRC = 3, N_ALARM = 3 and MAX_BATCH = 12. -/
def small : Config :=
  { tickW := 16, nDom := 2, nSrc := 3, nAlarm := 3, detectDelay := 2, maxBatch := 12
    hwm := PerDomain.all 1000, ovfSub := PerDomain.all 500, resetClk := 0
    irqClkPolicy := .everyRise, stealShiftPolicy := .always, resetAlarmPolicy := .cancel, snapVersion := 1#16 }

def smallFirstRise : Config := { small with irqClkPolicy := .firstRise }
def smallIfOpen : Config := { small with stealShiftPolicy := .ifWindowOpen }
def smallKeep : Config := { small with resetAlarmPolicy := .keep }

/-- The power-on state (PO of 95_test_vectors.md). -/
def po : State := State.powerOn small

/-- The state after a command. -/
def after (s : State) (i : Instr) : State :=
  match exec i s with
  | .next t => t
  | .fault _ => s
  | .refused _ => s

/-- The status, R0 and R1 a command returns. -/
def result (s : State) (i : Instr) : Option (Status × Nat × Nat) :=
  (after s i).resp.map (fun r => (r.status, r.r0.toNat, r.r1.toNat))

/-- Domain 0 after a command. -/
def dom0 (s : State) (i : Instr) : Domain := (after s i).dom 0#2

/-- `s` with domain 0 replaced by a function of it. -/
def with0 (s : State) (f : Domain → Domain) : State := s.setDom 0#2 (f (s.dom 0#2))

/-- `s` with the first input presented. -/
def presenting (s : State) (i : Input) : State := { s with inputs := [i] }

/-- The command words with both operand words 0. -/
def bare (w : Word32) : CmdWords := ⟨w, 0#64, 0#64⟩

/-! ### WellFormed: an ill-formed term for each check, and the last term in range beside it -/

theorem test_wf_domain : (Instr.clkRead 2#2).wellFormed small = false ∧ (Instr.clkRead 1#2).wellFormed small = true := by decide

theorem test_wf_bridge : (Instr.bridgeRead 0#2).wellFormed small = false ∧ (Instr.bridgeRead 2#2).wellFormed small = false
    ∧ (Instr.bridgeRead 1#2).wellFormed small = true := by decide

theorem test_wf_source : (Instr.readSrc 0#2 3#8).wellFormed small = false ∧ (Instr.readSrc 0#2 2#8).wellFormed small = true := by
  decide

theorem test_wf_handler : (Instr.alarmRead 0#2 3#8).wellFormed small = false ∧ (Instr.alarmRead 0#2 2#8).wellFormed small = true := by
  decide

theorem test_wf_tick : (Instr.clkAdvance 0#2 0x10000#64).wellFormed small = false
    ∧ (Instr.clkAdvance 0#2 0xFFFF#64).wellFormed small = true ∧ (Instr.steal 0#2 0#64 0x10000#64).wellFormed small = false := by decide

theorem test_wf_word : (Instr.triggerTrap 0#2 0x100000000#64).wellFormed small = false
    ∧ (Instr.triggerTrap 0#2 0xFFFFFFFF#64).wellFormed small = true := by decide

theorem test_wf_index : (Instr.bridgeLookup 1#2 13#64).wellFormed small = false
    ∧ (Instr.bridgeLookup 1#2 12#64).wellFormed small = true := by decide

/-! ### Decoding: one word per constructor, written out from R89 (the word patterns) and R81 (OP, DOM, IDX, zeros, F1, F0) -/

theorem test_decode_nop : decode (bare 0b000000_00_00000000_00000000000000_0_0#32) = .ok .nop := by decide

theorem test_decode_setIrq : decode ⟨0b000001_00_00000011_00000000000000_0_1#32, 100#64, 0#64⟩ = .ok (.setIrq 0#2 3#8 true 100#64) := by
  decide

theorem test_decode_setNmi : decode ⟨0b000010_01_00000001_00000000000000_0_0#32, 40#64, 0#64⟩ = .ok (.setNmi 1#2 1#8 false 40#64) := by
  decide

theorem test_decode_requests : decode (bare 0x0E000000#32) = .ok (.triggerReset 2#2) ∧ decode (bare 0x10000000#32) = .ok (.ackReset 0#2)
    ∧ decode ⟨0x14000000#32, 0x1234#64, 9#64⟩ = .ok (.triggerTrap 0#2 0x1234#64) ∧ decode (bare 0x1B000000#32) = .ok (.ackTrap 3#2)
    ∧ decode (bare 0x20000000#32) = .ok (.ackNmi 0#2) ∧ decode (bare 0x25000000#32) = .ok (.triggerMonitor 1#2)
    ∧ decode (bare 0x29000000#32) = .ok (.ackMonitor 1#2) ∧ decode (bare 0x2C000000#32) = .ok (.triggerDma 0#2)
    ∧ decode (bare 0x30000000#32) = .ok (.ackDma 0#2) := by decide

theorem test_decode_queries : decode (bare 0x1D000000#32) = .ok (.checkPending 1#2) ∧ decode (bare 0x34000000#32) = .ok (.readCounts 0#2)
    ∧ decode (bare 0x39000000#32) = .ok (.readSigclk 1#2)
    ∧ decode (bare 0b001111_00_00010000_00000000000000_0_0#32) = .ok (.readSrc 0#2 16#8)
    ∧ decode ⟨0b010000_01_00000000_00000000000000_1_0#32, 7#64, 0#64⟩ = .ok (.checkIrqDelay 1#2 false true 7#64)
    ∧ decode ⟨0b010001_00_00000000_00000000000000_0_1#32, 42#64, 0#64⟩ = .ok (.checkNmiDelay 0#2 true 42#64) := by decide

theorem test_decode_steal : decode ⟨0b010010_01_00000000_00000000000000_0_0#32, 200#64, 4#64⟩ = .ok (.steal 1#2 200#64 4#64)
    ∧ decode ⟨0x4C000000#32, 5#64, 7#64⟩ = .ok (.readSteal 0#2) := by decide

theorem test_decode_alarm : decode ⟨0b011000_01_00000101_00000000000000_0_0#32, 0x30#64, 0#64⟩ = .ok (.alarmSchedule 1#2 5#8 0x30#64)
    ∧ decode (bare 0x64130000#32) = .ok (.alarmCancel 0#2 19#8) ∧ decode (bare 0x69000000#32) = .ok (.alarmNextDue 1#2)
    ∧ decode (bare 0x6C000000#32) = .ok (.alarmServeNext 0#2) ∧ decode (bare 0x70020000#32) = .ok (.alarmRead 0#2 2#8) := by decide

theorem test_decode_bridge : decode ⟨0b100000_01_00000000_00000000000000_0_0#32, 0x18000#64, 0#64⟩ = .ok (.bridgeSetRatio 1#2 0x18000#64)
    ∧ decode ⟨0x85000000#32, 10#64, 0#64⟩ = .ok (.bridgeAdvance 1#2 10#64)
    ∧ decode ⟨0x8B000000#32, 4096#64, 0#64⟩ = .ok (.bridgeLookup 3#2 4096#64) ∧ decode (bare 0x8D000000#32) = .ok (.bridgeRead 1#2) := by
  decide

theorem test_decode_clock : decode ⟨0b101000_01_00000000_00000000000000_0_0#32, 8#64, 0#64⟩ = .ok (.clkAdvance 1#2 8#64)
    ∧ decode (bare 0xA5000000#32) = .ok (.clkRead 1#2) ∧ decode (bare 0xA9000000#32) = .ok (.preventOverflow 1#2) := by decide

theorem test_decode_snapshot : decode (bare 0b110000_00_00000000_00000000000000_0_0#32) = .ok .snapSave
    ∧ decode (bare 0xC4000000#32) = .ok .snapLoad := by decide

/-- V112, V149, V164, V18A, V261, V264, V280 to V285, and an unused DOM on NOP. -/
theorem test_decode_illegal : ([0x04000005, 0x1C010000, 0x44000002, 0x68010000, 0x00000001, 0x01000000, 0xC1000000,
    0x50000000, 0x40010000, 0xFC000000, 0x74000000, 0x90000000, 0xC8000000].map (decodeTableWord 32)).all Option.isNone = true := by decide

theorem test_legalWord : legalWord 0x50000000#32 = false ∧ legalWord 0x40010000#32 = false ∧ legalWord 0x40000003#32 = true := by decide

theorem test_table_word : decodeTableWord 32 0x05000000 = some (.setIrq 1#2 0#8 false 0#64) := by decide

/-- Encoding the instructions of R91 and of the three rows below V287 gives the words of the table. -/
theorem test_encode : encode (.setIrq 0#2 3#8 true 100#64) = ⟨0x04030001#32, 100#64, 0#64⟩
    ∧ encode (.checkIrqDelay 0#2 true true 102#64) = ⟨0x40000003#32, 102#64, 0#64⟩
    ∧ encode (.steal 1#2 200#64 4#64) = ⟨0x49000000#32, 200#64, 4#64⟩ ∧ encode (.alarmCancel 0#2 19#8) = bare 0x64130000#32 := by decide

/-- R90. -/
theorem test_pseudo : encode (Pseudo.irqOn 0#2 3#8 100#64).expand = ⟨0x04030001#32, 100#64, 0#64⟩
    ∧ (Pseudo.clkTick 1#2).expand = .clkAdvance 1#2 1#64 ∧ (Pseudo.checkIrq 0#2 7#64).expand = .checkIrqDelay 0#2 false false 7#64 := by
  decide

/-- R89. -/
theorem test_asm : asmText (.checkIrqDelay 0#2 true true 102#64) = "check_irq_delay d0, 102, br, ie"
    ∧ asmText (.setIrq 1#2 0#8 false 7#64) = "set_irq d1, s0, off, 7" := ⟨rfl, rfl⟩

/-! ### Status codes (R300) -/

theorem test_codes : ([Status.ok, .consistency, .configRejected, .snapshotRejected, .range, .notDue, .illegal, .tickOverflow,
    .noRatio].map (fun s => s.code.toNat)) = [0, 1, 2, 3, 4, 5, 6, 7, 8] := by decide

/-! ### Lines and requests -/

/-- PO and `set_irq d0, s0, on, 100` (V101). -/
def v101 : State := after po (.setIrq 0#2 0#8 true 100#64)

/-- PO and `set_nmi d0, s1, on, 40` (V120). -/
def v120 : State := after po (.setNmi 0#2 1#8 true 40#64)

/-- V101, V103: two rises. -/
theorem test_setIrq_on : (v101.dom 0#2).src = [0b10#2, 0#2, 0#2] ∧ (v101.dom 0#2).nirq = 1 ∧ (v101.dom 0#2).pend = 0x02#8
    ∧ (v101.dom 0#2).irqClk = 100 ∧ (dom0 v101 (.setIrq 0#2 1#8 true 110#64)).nirq = 2
    ∧ (dom0 v101 (.setIrq 0#2 1#8 true 110#64)).irqClk = 110 := by decide

/-- V104, V105 in one: the last release clears the bit; the signal tick stays. -/
theorem test_setIrq_off : (dom0 v101 (.setIrq 0#2 0#8 false 115#64)).pend = 0x00#8
    ∧ (dom0 v101 (.setIrq 0#2 0#8 false 115#64)).irqClk = 100 ∧ (dom0 v101 (.setIrq 0#2 0#8 false 115#64)).nirq = 0 := by decide

/-- V120, V124: the edge, and a second source that makes none. -/
theorem test_setNmi_on : (v120.dom 0#2).pend = 0x01#8 ∧ (v120.dom 0#2).nmiClk = 40 ∧ (v120.dom 0#2).src = [0#2, 0b01#2, 0#2]
    ∧ (dom0 v120 (.setNmi 0#2 2#8 true 45#64)).nnmi = 2 ∧ (dom0 v120 (.setNmi 0#2 2#8 true 45#64)).nmiClk = 40 := by decide

/-- V121, V122: withdrawn in its own tick, and not in a later one. -/
theorem test_setNmi_off : (dom0 v120 (.setNmi 0#2 1#8 false 40#64)).pend = 0x00#8
    ∧ (dom0 v120 (.setNmi 0#2 1#8 false 41#64)).pend = 0x01#8 ∧ (dom0 v120 (.setNmi 0#2 1#8 false 41#64)).nnmi = 0 := by decide

/-- Every bit of the pending word pending, and both counts at one. -/
def allPending : State := with0 po (fun D => { D with pend := 0x3F#8, src := [0b10#2, 0b01#2, 0#2], nirq := 1, nnmi := 1, trapTok := 0x55#32 })

/-- V130, V133, V139, V141: from PO. -/
theorem test_triggers : (dom0 po (.triggerReset 0#2)).pend = 0x04#8 ∧ (dom0 po (.triggerTrap 0#2 0x1234#64)).pend = 0x08#8
    ∧ (dom0 po (.triggerTrap 0#2 0x1234#64)).trapTok = 0x1234#32 ∧ (dom0 po (.triggerMonitor 0#2)).pend = 0x10#8
    ∧ (dom0 po (.triggerDma 0#2)).pend = 0x20#8 ∧ (dom0 po (.triggerDma 0#2)).clk = 0 := by decide

/-- R108, R110, R114, R116, R118: each clears its own bit of a full pending word. -/
theorem test_acks : (dom0 allPending (.ackReset 0#2)).pend = 0x3B#8 ∧ (dom0 allPending (.ackTrap 0#2)).pend = 0x37#8
    ∧ (dom0 allPending (.ackNmi 0#2)).pend = 0x3E#8 ∧ (dom0 allPending (.ackNmi 0#2)).nnmi = 1
    ∧ (dom0 allPending (.ackMonitor 0#2)).pend = 0x2F#8 ∧ (dom0 allPending (.ackDma 0#2)).pend = 0x1F#8 := by decide

/-- V135. -/
theorem test_ackTrap_token : result allPending (.ackTrap 0#2) = some (.ok, 0x55, 0)
    ∧ (dom0 allPending (.ackTrap 0#2)).trapTok = 0x55#32 := by decide

/-- V144, V145, V146, V147. -/
theorem test_reads : result allPending (.checkPending 0#2) = some (.ok, 0x3F, 0) ∧ result v101 (.readCounts 0#2) = some (.ok, 1, 0)
    ∧ result v101 (.readSigclk 0#2) = some (.ok, 100, 0) ∧ result v101 (.readSrc 0#2 0#8) = some (.ok, 2, 0) := by decide

/-- V151 to V157. -/
theorem test_checkIrqDelay : result v101 (.checkIrqDelay 0#2 false false 101#64) = some (.ok, 0, 0)
    ∧ result v101 (.checkIrqDelay 0#2 false false 102#64) = some (.ok, 1, 0)
    ∧ result v101 (.checkIrqDelay 0#2 true false 102#64) = some (.ok, 0, 0)
    ∧ result v101 (.checkIrqDelay 0#2 true false 103#64) = some (.ok, 1, 0)
    ∧ result v101 (.checkIrqDelay 0#2 false true 200#64) = some (.ok, 0, 0) := by decide

/-- V160 to V163. -/
theorem test_checkNmiDelay : result v120 (.checkNmiDelay 0#2 false 41#64) = some (.ok, 0, 0)
    ∧ result v120 (.checkNmiDelay 0#2 false 42#64) = some (.ok, 1, 0) ∧ result v120 (.checkNmiDelay 0#2 true 42#64) = some (.ok, 0, 0)
    ∧ result v120 (.checkNmiDelay 0#2 true 43#64) = some (.ok, 1, 0) := by decide

/-! ### The stealer -/

/-- T0 of 95_test_vectors.md: clock 100, an IRQ at 99. -/
def t0 (c : Config) : State := with0 (after (State.powerOn c) (.setIrq 0#2 0#8 true 99#64)) (fun D => { D with clk := 100 })

/-- V220, V222: a steal, and one that continues it. -/
theorem test_steal : (let D := dom0 (t0 small) (.steal 0#2 100#64 3#64)
      (D.clk, D.irqClk, D.nmiClk, D.stealStart, D.stealLen) = (103, 101, 2, 100, 3))
    ∧ (let D := dom0 (after (t0 small) (.steal 0#2 100#64 3#64)) (.steal 0#2 103#64 2#64)
      (D.clk, D.irqClk, D.nmiClk, D.stealStart, D.stealLen) = (105, 102, 3, 100, 5)) := by decide

/-- V221: under IF_WINDOW_OPEN only the pending kind's tick moves. V228, smaller: the window end above CLK_MAX. -/
theorem test_steal_policy_and_fault : (let D := dom0 (t0 smallIfOpen) (.steal 0#2 100#64 3#64)
      (D.clk, D.irqClk, D.nmiClk) = (103, 101, 0))
    ∧ result po (.steal 0#2 0xFFFE#64 1#64) = some (.tickOverflow, 0, 0) ∧ (dom0 po (.steal 0#2 0xFFFE#64 1#64)).clk = 0
    ∧ (dom0 po (.steal 0#2 0xFFFE#64 1#64)).fault = true := by decide

/-- V226, V229: the record, and an IRQ raised inside the window. -/
theorem test_readSteal : (let s := after (t0 small) (.steal 0#2 100#64 3#64)
      result s (.readSteal 0#2) = some (.ok, 100, 3) ∧ (dom0 s (.setIrq 0#2 1#8 true 101#64)).irqClk = 102) := by decide

/-! ### The alarm queue -/

/-- PO and `alarm_schedule d0, h1, 50` (V170). -/
def v170 : State := after po (.alarmSchedule 0#2 1#8 50#64)

/-- V170 and `alarm_schedule d0, h0, 30` (V171). -/
def v171 : State := after v170 (.alarmSchedule 0#2 0#8 30#64)

/-- V171, V177: sooner, and the minimum moved later. -/
theorem test_alarmSchedule : ((v171.dom 0#2).due, (v171.dom 0#2).minTick, (v171.dom 0#2).minId) = ([30, 50, 0xFFFF], 30, 0#8)
    ∧ (dom0 v170 (.alarmSchedule 0#2 1#8 70#64)).minTick = 70 := by decide

/-- V175, V176: the holder keeps an equal tick; a rescan picks the least handler. -/
theorem test_alarmSchedule_ties : (dom0 v170 (.alarmSchedule 0#2 0#8 50#64)).minId = 1#8
    ∧ (dom0 (after v170 (.alarmSchedule 0#2 0#8 50#64)) (.alarmSchedule 0#2 1#8 50#64)).minId = 0#8 := by decide

/-- V173, V179. -/
theorem test_alarmCancel : ((dom0 v171 (.alarmCancel 0#2 0#8)).minTick, (dom0 v171 (.alarmCancel 0#2 0#8)).minId) = (50, 1#8)
    ∧ ((dom0 v170 (.alarmCancel 0#2 1#8)).minTick, (dom0 v170 (.alarmCancel 0#2 1#8)).minId) = (0xFFFF, 0xFF#8) := by decide

/-- V172, V17A, V187, V188. -/
theorem test_alarm_reads : result v171 (.alarmNextDue 0#2) = some (.ok, 30, 0) ∧ result po (.alarmNextDue 0#2) = some (.ok, 0xFFFF, 0xFF)
    ∧ result v170 (.alarmRead 0#2 1#8) = some (.ok, 50, 0) ∧ result v170 (.alarmRead 0#2 2#8) = some (.ok, 0xFFFF, 0) := by decide

/-- V180 (empty queue), V183 (not due). -/
theorem test_serve_none : result po (.alarmServeNext 0#2) = some (.consistency, 0xFF, 0) ∧ (dom0 po (.alarmServeNext 0#2)).cerr = true
    ∧ result v171 (.alarmServeNext 0#2) = some (.notDue, 0, 0) := by decide

/-- V181. -/
theorem test_serve_fires : (after (with0 v171 (fun D => { D with clk := 35 })) (.alarmServeNext 0#2)).resp
    = some { status := .ok, r0 := 0#64, r1 := 5#64, fire := some ⟨0#2, 0#8, 5#64⟩, snap := none } := by decide

/-! ### The bridge -/

/-- PO and `bridge_set_ratio d1, 0x18000` (V193). -/
def v193 : State := after po (.bridgeSetRatio 1#2 0x18000#64)

/-- V193, V194, V195. -/
theorem test_setRatio : (v193.bridge 1#2).ratio = 0x18000#32 ∧ (v193.bridge 1#2).entry 1 = ⟨1#32, 0x8000#16⟩
    ∧ (v193.bridge 1#2).entry 10 = ⟨15#32, 0#16⟩ ∧ (v193.bridge 1#2).carry = 0#16 := by decide

/-- V204, V205, V206. -/
theorem test_setRatio_rejects : result v193 (.bridgeSetRatio 1#2 0#64) = some (.configRejected, 0, 0)
    ∧ result v193 (.bridgeSetRatio 1#2 0xFFFFFFFF#64) = some (.configRejected, 0, 0)
    ∧ result v193 (.bridgeSetRatio 1#2 0x80000000#64) = some (.configRejected, 0, 0)
    ∧ (after v193 (.bridgeSetRatio 1#2 0#64)).bridges = v193.bridges := by decide

/-- V199, V19A: the carry, and its overflow. -/
theorem test_advance : result v193 (.bridgeAdvance 1#2 1#64) = some (.ok, 1, 0x8000)
    ∧ result (after v193 (.bridgeAdvance 1#2 1#64)) (.bridgeAdvance 1#2 1#64) = some (.ok, 2, 0) := by decide

/-- R191, chunked: 100 ticks at 1.5 in chunks of at most 12 give 150; V190: no ratio. -/
theorem test_advance_chunks : result v193 (.bridgeAdvance 1#2 100#64) = some (.ok, 150, 0)
    ∧ result po (.bridgeAdvance 1#2 10#64) = some (.noRatio, 0, 0) := by decide

/-- V194, V191, V197 with this table's end. -/
theorem test_lookup : result v193 (.bridgeLookup 1#2 1#64) = some (.ok, 1, 0x8000) ∧ result po (.bridgeLookup 1#2 1#64) = some (.noRatio, 0, 0)
    ∧ result v193 (.bridgeLookup 1#2 12#64) = some (.ok, 18, 0) ∧ result v193 (.bridgeLookup 1#2 13#64) = some (.range, 0, 0) := by decide

/-- V192, and after V199. -/
theorem test_bridgeRead : result po (.bridgeRead 1#2) = some (.ok, 0, 0)
    ∧ result (after v193 (.bridgeAdvance 1#2 1#64)) (.bridgeRead 1#2) = some (.ok, 0x18000, 0x8000) := by decide

/-! ### The clock -/

/-- V242, V243 with TICK_W = 16. -/
theorem test_clkAdvance : (dom0 po (.clkAdvance 0#2 0xFFFE#64)).clk = 0xFFFE ∧ result po (.clkAdvance 0#2 0xFFFF#64) = some (.tickOverflow, 0, 0)
    ∧ (dom0 po (.clkAdvance 0#2 0xFFFF#64)).clk = 0 ∧ (dom0 po (.clkAdvance 0#2 0xFFFF#64)).fault = true := by decide

/-- V241. -/
theorem test_clkRead : result (with0 po (fun D => { D with clk := 100 })) (.clkRead 0#2) = some (.ok, 100, 0) := by decide

/-- The start of V249, with three handlers. -/
def v249 : State := with0 po (fun D => { D with
  clk := 1200, due := [1300, 300, 0xFFFF], minTick := 300, minId := 1#8, irqClk := 400, nmiClk := 1150
  stealStart := 1100, stealLen := 50, pend := 0x01#8, nnmi := 1, src := [0b01#2, 0#2, 0#2] })

/-- V249. -/
theorem test_preventOverflow : result v249 (.preventOverflow 0#2) = some (.ok, 500, 0)
    ∧ (let D := dom0 v249 (.preventOverflow 0#2)
       (D.clk, D.due, D.minTick, D.minId) = (700, [800, 0, 0xFFFF], 0, 1#8)
         ∧ (D.irqClk, D.nmiClk, D.stealStart, D.stealLen) = (0, 650, 600, 50)) := by decide

/-- V246: at the mark. -/
theorem test_preventOverflow_mark : (let s := with0 po (fun D => { D with clk := 1000 })
    result s (.preventOverflow 0#2) = some (.ok, 0, 0) ∧ (dom0 s (.preventOverflow 0#2)).clk = 1000) := by decide

/-! ### Control and snapshots -/

theorem test_nop : result po .nop = some (.ok, 0, 0) := by decide

/-- V263, with these parameters. -/
theorem test_snapSave : ((after po .snapSave).resp.bind (fun r => r.snap)).map (fun r => (r.nDom, r.nSrc, r.carries, r.domains.length))
    = some (2#8, 3#8, [0#16], 2) := by decide

/-- V265, V268 and V26C: another version, an inconsistent record, and the record of PO. -/
theorem test_snapLoad : result { v101 with snapIn := .record { snapshot po with version := 2#16 } } .snapLoad = some (.snapshotRejected, 0, 0)
    ∧ result { v101 with snapIn := .record { snapshot po with domains := [{ snapDomain (po.dom 0#2) with pend := 0x02#8 }, snapDomain (po.dom 1#2)] } }
        .snapLoad = some (.snapshotRejected, 0, 0)
    ∧ (after { v101 with snapIn := .record (snapshot po) } .snapLoad).dom 0#2 = po.dom 0#2 := by decide

/-- V270: the tie goes to the least handler and the steal record is cleared. -/
theorem test_snapLoad_tie : (let s := after (after v170 (.alarmSchedule 0#2 0#8 50#64)) (.steal 0#2 10#64 5#64)
    let D := (after { s with snapIn := .record (snapshot s) } .snapLoad).dom 0#2
    (D.minTick, D.minId, D.stealStart, D.stealLen) = (50, 0#8, 0, 0)) := by decide

/-! ### Resets and the step -/

/-- V290, V291: MONITOR survives, `fault` stays, the alarms go or stay by the policy. -/
theorem test_rst : (let s := fun c => with0 (State.powerOn c) (fun D => { D with
      pend := 0x3B#8, clk := 102, due := [50, 0xFFFF, 0xFFFF], minTick := 50, minId := 0#8, fault := true })
    let D := (pulseReset (s small) 0#2 []).dom 0#2
    (D.pend, D.clk, D.fault, D.minId) = (0x10#8, 0, true, 0xFF#8) ∧ ((pulseReset (s smallKeep) 0#2 []).dom 0#2).due = [50, 0xFFFF, 0xFFFF]) := by
  decide

/-- V293. -/
theorem test_por : powerOnReset (after v101 (.bridgeSetRatio 1#2 0x18000#64)) [] = po := by decide

/-- A word placed by `withFetchWord` runs as the first instruction after reset. -/
theorem test_first_instruction : (match step (State.reset.withFetchWord 32 0x0C000000) with
    | .next t => (t.dom 0#2).pend == 0x04#8
    | .fault _ => false
    | .refused _ => false) = true := by decide

/-! ### Witnesses: encoding and the step -/

/-- EncodeOfDecode: an operand word that is carried, and one that is ignored. -/
theorem witness_EncodeOfDecode : decode ⟨0x48000000#32, 100#64, 3#64⟩ = .ok (.steal 0#2 100#64 3#64)
    ∧ decode ⟨0x4C000000#32, 5#64, 7#64⟩ = .ok (.readSteal 0#2) := by decide

/-- IllegalWordsRejected, StickyBitsAndRejects (illegal words), StatusesOfEachCommand (second clause), NopDoesNothing: an illegal word with OP 0. -/
theorem witness_illegal_word : (let c := bare 0x00000001#32
    configLegal (presenting po (.command c .malformed)).cfg = true ∧ (presenting po (.command c .malformed)).inputs = [.command c .malformed]
      ∧ legalWord c.word = false ∧ opField c.word = 0x00#6 ∧ decode c = .error (.unusedFieldSet 0x00#6)) := by decide

/-- StepRunsDecodedCommand (both clauses), StatusesOfEachCommand (first clause), NopDoesNothing: a legal word with OP 0. -/
theorem witness_step_runs : (let c := bare 0x00000000#32
    configLegal (presenting po (.command c .malformed)).cfg = true ∧ (presenting po (.command c .malformed)).inputs = [.command c .malformed]
      ∧ decode c = .ok .nop ∧ opField c.word = 0x00#6 ∧ decodeTableWord 32 0x0C000000 = some (.triggerReset 0#2)) := by decide

/-- NoStatusStopsTheBlock: a step that ends TICK_OVERFLOW, with a command that decodes and one that does not left in the queue. -/
theorem witness_NoStatus : (let c := bare 0x0C000000#32
    let e := bare 0x00000001#32
    let s := { po with inputs := [.command ⟨0xA0000000#32, 0xFFFF#64, 0#64⟩ .malformed, .command c .malformed, .command e .malformed] }
    configLegal s.cfg = true
      ∧ step s = .next (after { s with inputs := [.command c .malformed, .command e .malformed] } (.clkAdvance 0#2 0xFFFF#64))
      ∧ decode c = .ok (.triggerReset 0#2) ∧ decode e = .error (.unusedFieldSet 0x00#6)) := ⟨by decide, rfl, by decide⟩

/-- IdleHoldsState, NoStatusStopsTheBlock, InvariantHoldsAtPowerOn. -/
theorem witness_idle : configLegal po.cfg = true ∧ po.inputs = [] ∧ configLegal small = true := by decide

/-- IllegalConfigurationRefused: TICK_W one below its range, and OVF_SUB above HWM. -/
theorem witness_illegal_config : configLegal (State.powerOn { small with tickW := 15 }).cfg = false
    ∧ configLegal (State.powerOn { small with ovfSub := PerDomain.all 1001 }).cfg = false := by decide

/-- PowerOnResetSetsEverything, with the last domain, bridge, source, handler and table index. -/
theorem witness_por : configLegal (presenting v101 .por).cfg = true ∧ (presenting v101 .por).inputs = [.por]
    ∧ (1#2).toNat < small.nDom ∧ 1 ≤ (1#2).toNat ∧ (2#8).toNat < small.nSrc ∧ (2#8).toNat < small.nAlarm ∧ 12 ≤ small.maxBatch := by decide

/-- ResetOfOneDomain: both policies, the last domain. -/
theorem witness_rst : (∀ c ∈ [small, smallKeep], configLegal (presenting (State.powerOn c) (.rst 1#2)).cfg = true
      ∧ (presenting (State.powerOn c) (.rst 1#2)).inputs = [.rst 1#2] ∧ (1#2).toNat < (State.powerOn c).cfg.nDom)
    ∧ small.resetAlarmPolicy = .cancel ∧ smallKeep.resetAlarmPolicy = .keep ∧ (0#2 : DomId) ≠ 1#2 := by decide

/-! ### Witnesses: the invariant and reachable states -/

/-- The parts of the invariant of a block of two domains. -/
theorem inv_two_domains (s : State) (hn : s.cfg.nDom = 2) (hc : configLegal s.cfg = true)
    (hd : DomainInv s.cfg (s.dom 0#2) ∧ DomainInv s.cfg (s.dom 1#2)) (hb : BridgeInv s.cfg (s.bridge 1#2))
    (hx : s.dom 2#2 = Domain.powerOn s.cfg ∧ s.bridge 2#2 = Bridge.powerOn ∧ s.dom 3#2 = Domain.powerOn s.cfg
      ∧ s.bridge 3#2 = Bridge.powerOn) : Inv s := by
  refine ⟨hc, fun d h => ?_, fun b h1 h => ?_, fun d h => ?_⟩
  · rcases domId_cases d with rfl | rfl | rfl | rfl
    · exact hd.1
    · exact hd.2
    · exact absurd h (by rw [hn]; decide)
    · exact absurd h (by rw [hn]; decide)
  · rcases domId_cases b with rfl | rfl | rfl | rfl
    · exact absurd h1 (by decide)
    · exact hb
    · exact absurd h (by rw [hn]; decide)
    · exact absurd h (by rw [hn]; decide)
  · rcases domId_cases d with rfl | rfl | rfl | rfl
    · exact absurd h (by rw [hn]; decide)
    · exact absurd h (by rw [hn]; decide)
    · exact ⟨hx.1, hx.2.1⟩
    · exact hx.2.2

/-- NextDueIsTrueMinimum, SnapshotRoundTrip, EveryStepKeepsInvariant. -/
theorem witness_Inv_v171 : Inv v171 := inv_two_domains _ rfl (by decide) (by decide) (by decide) (by decide)

/-- NextDueIsTrueMinimum, SnapshotRoundTrip, with nothing scheduled. -/
theorem witness_Inv_empty : Inv po ∧ (po.dom 0#2).minTick = po.cfg.inf ∧ ∀ u ∈ (po.dom 0#2).due, u = po.cfg.inf :=
  ⟨inv_two_domains _ rfl (by decide) (by decide) (by decide) (by decide), by decide⟩

/-- SnapshotRoundTrip, with a ratio set. -/
theorem witness_Inv_v193 : Inv v193 := inv_two_domains _ rfl (by decide) (by decide) (by decide) (by decide)

/-- RebaseKeepsRelativeTime: the start of V249, with the values at the bounds of its clauses (a due tick and signal tick of at least 500). -/
theorem witness_RebaseKeeps : Inv v249 ∧ (0#2).toNat < v249.cfg.nDom ∧ v249.cfg.hwm.get 0#2 < (v249.dom 0#2).clk
    ∧ (v249.dom 0#2).due[0]? = some 1300 ∧ 1300 ≠ v249.cfg.inf ∧ v249.cfg.ovfSub.get 0#2 ≤ 1300
    ∧ v249.cfg.ovfSub.get 0#2 ≤ (v249.dom 0#2).nmiClk ∧ v249.cfg.ovfSub.get 0#2 ≤ (v249.dom 0#2).stealStart :=
  ⟨inv_two_domains _ rfl (by decide) (by decide) (by decide) (by decide), by decide⟩

/-- RebaseKeepsRelativeTime, the clause of irq_clk, at its bound. -/
theorem witness_RebaseKeeps_irq : (let s := with0 v249 (fun D => { D with irqClk := 500 })
    Inv s ∧ v249.cfg.hwm.get 0#2 < (s.dom 0#2).clk ∧ s.cfg.ovfSub.get 0#2 ≤ (s.dom 0#2).irqClk) :=
  ⟨inv_two_domains _ rfl (by decide) (by decide) (by decide) (by decide), by decide⟩

/-- EveryStepKeepsInvariant: a command, from a state in order. -/
theorem witness_EveryStepKeepsInvariant : Inv (presenting v171 (.command (bare 0x64000000#32) .malformed))
    ∧ step (presenting v171 (.command (bare 0x64000000#32) .malformed))
        = .next (after (acceptCommand v171 .malformed []) (.alarmCancel 0#2 0#8)) := by
  exact ⟨witness_Inv_v171, rfl⟩

/-- A state that `presenting` one command brings a reachable state to is reachable. -/
theorem reachable_after (s t : State) (c : CmdWords) (h : Reachable s) (hs : step (presenting s (.command c .malformed)) = .next t) :
    Reachable t := .step _ _ (.present s _ h) hs

/-- ReachableStatesAreConsistent: reachable, with a scheduled alarm in domain 0, none in domain 1, and a table on bridge 1. -/
theorem witness_Reachable : ∃ s, Reachable s ∧ (∃ t ∈ (s.dom 0#2).due, t ≠ s.cfg.inf) ∧ (∀ t ∈ (s.dom 1#2).due, t = s.cfg.inf)
    ∧ (s.bridge 1#2).ratioValid = true ∧ 12 ≤ s.cfg.maxBatch := by
  have h1 := reachable_after po _ ⟨0x60010000#32, 50#64, 0#64⟩ (.powerOn small (by decide)) rfl
  have h2 := reachable_after _ _ ⟨0x81000000#32, 0x18000#64, 0#64⟩ h1 rfl
  exact ⟨_, h2, by decide⟩

/-- NegativeCountClamped, the clauses on reachable states: one with an asserting source of each kind. -/
theorem witness_Reachable_lines : ∃ s, Reachable s ∧ irqBit ((s.dom 0#2).srcAt 2#8) = true ∧ nmiBit ((s.dom 0#2).srcAt 2#8) = true
    ∧ (0#2).toNat < s.cfg.nDom ∧ (2#8).toNat < s.cfg.nSrc := by
  have h1 := reachable_after po _ ⟨0x04020001#32, 50#64, 0#64⟩ (.powerOn small (by decide)) rfl
  have h2 := reachable_after _ _ ⟨0x08020001#32, 50#64, 0#64⟩ h1 rfl
  exact ⟨_, h2, by decide⟩

/-! ### Witnesses: statuses -/

/-- OutOfRangeRejected: each condition of R304 at its bound is `test_wf_*`; both sides under PO's configuration. -/
theorem witness_OutOfRange : (Instr.setIrq 2#2 0#8 true 0#64).wellFormed po.cfg = false
    ∧ (Instr.setIrq 1#2 2#8 true 0xFFFF#64).wellFormed po.cfg = true ∧ (Instr.bridgeSetRatio 1#2 0x100000000#64).wellFormed po.cfg = false := by
  decide

/-- StickyBitsAndRejects, TickOverflowWritesFaultAlone, CommandsStayInTheirDomain: commands that end with each status. -/
theorem witness_statuses : ([result po (.alarmServeNext 0#2), result po (.clkAdvance 0#2 0xFFFF#64), result po .nop,
      result po (.clkRead 2#2), result v171 (.alarmServeNext 0#2), result po (.bridgeAdvance 1#2 0#64), result po (.bridgeSetRatio 1#2 0#64),
      result po .snapLoad].map (fun r => r.map (fun q => q.1)))
    = [some .consistency, some .tickOverflow, some .ok, some .range, some .notDue, some .noRatio, some .configRejected, some .snapshotRejected]
    ∧ (Instr.alarmServeNext 0#2).target = .domain 0#2 ∧ (Instr.bridgeAdvance 1#2 0#64).target = .bridge 1#2 := by decide

/-- The four commands of TickOverflowWritesFaultAlone. -/
theorem witness_TickOverflow : ([Instr.setIrq 0#2 0#8 true 0xFFFF#64, .setNmi 0#2 0#8 true 0xFFFF#64, .steal 0#2 0xFFFE#64 1#64,
    .clkAdvance 0#2 0xFFFF#64].map (fun i => result po i)) = List.replicate 4 (some (.tickOverflow, 0, 0)) := by decide

/-- ReadCommandsWriteNothing. -/
theorem witness_ReadCommands : writesNoState (.readCounts 0#2) = true := by decide

/-! ### Witnesses: lines -/

/-- SettingTheSameLevelChangesNothing: both levels of both lines, at the last domain, source and tick. -/
theorem witness_SameLevel : (1#2).toNat < po.cfg.nDom ∧ (2#8).toNat < po.cfg.nSrc ∧ (0xFFFF#64).toNat < 2 ^ po.cfg.tickW
    ∧ irqBit ((po.dom 1#2).srcAt 2#8) = false ∧ nmiBit ((po.dom 1#2).srcAt 2#8) = false ∧ irqBit ((v101.dom 0#2).srcAt 0#8) = true
    ∧ nmiBit ((v120.dom 0#2).srcAt 1#8) = true := by decide

/-- SetIrqAssertion, first clause, at t = CLK_MAX; second clause, at t = INF, one above. -/
theorem witness_SetIrqAssertion : (0#2).toNat < po.cfg.nDom ∧ (2#8).toNat < po.cfg.nSrc ∧ irqBit ((po.dom 0#2).srcAt 2#8) = false
    ∧ po.cfg.irqClkPolicy = .everyRise ∧ (po.dom 0#2).stealStart + (po.dom 0#2).stealLen = 0
    ∧ ((0xFFFE#64).toNat < 2 ^ po.cfg.tickW ∧ (0xFFFE#64).toNat ≤ po.cfg.clkMax)
    ∧ ((0xFFFF#64).toNat < 2 ^ po.cfg.tickW ∧ po.cfg.clkMax < (0xFFFF#64).toNat) := by decide

/-- SetIrqAssertion, third clause. -/
theorem witness_SetIrqAssertion_held : (let s := after (State.powerOn smallFirstRise) (.setIrq 0#2 0#8 true 100#64)
    s.cfg.irqClkPolicy = .firstRise ∧ (s.dom 0#2).nirq ≠ 0 ∧ irqBit ((s.dom 0#2).srcAt 1#8) = false ∧ (1#8).toNat < s.cfg.nSrc
      ∧ (110#64).toNat < 2 ^ s.cfg.tickW) := by decide

/-- SetIrqRelease: the last source, and one of two. -/
theorem witness_SetIrqRelease : (115#64).toNat < 2 ^ v101.cfg.tickW ∧ (0#8).toNat < v101.cfg.nSrc
    ∧ irqBit ((v101.dom 0#2).srcAt 0#8) = true ∧ (v101.dom 0#2).nirq = 1
    ∧ irqBit ((dom0 v101 (.setIrq 0#2 1#8 true 110#64)).srcAt 0#8) = true ∧ (dom0 v101 (.setIrq 0#2 1#8 true 110#64)).nirq = 2 := by decide

/-- The start of V114, with an NMI source as well: asserting sources with both counts 0. -/
def v114 : State := with0 po (fun D => { D with src := [0b11#2, 0#2, 0#2] })

/-- NegativeCountClamped, the two clauses on any state; and the result of V114. -/
theorem witness_NegativeCount : irqBit ((v114.dom 0#2).srcAt 0#8) = true ∧ (v114.dom 0#2).nirq = 0 ∧ nmiBit ((v114.dom 0#2).srcAt 0#8) = true
    ∧ (v114.dom 0#2).nnmi = 0 ∧ (0#8).toNat < v114.cfg.nSrc ∧ (5#64).toNat < 2 ^ v114.cfg.tickW
    ∧ result v114 (.setIrq 0#2 0#8 false 5#64) = some (.consistency, 0, 0) := by decide

/-- SetNmiAssertion: an edge at CLK_MAX, none at INF, and no edge from a held line or a pending edge. -/
theorem witness_SetNmiAssertion : (po.dom 0#2).nnmi = 0 ∧ (po.dom 0#2).pend.getLsbD 0 = false ∧ nmiBit ((po.dom 0#2).srcAt 2#8) = false
    ∧ (0xFFFE#64).toNat ≤ po.cfg.clkMax ∧ po.cfg.clkMax < (0xFFFF#64).toNat ∧ (0xFFFF#64).toNat < 2 ^ po.cfg.tickW
    ∧ (v120.dom 0#2).nnmi ≠ 0 ∧ (v120.dom 0#2).pend.getLsbD 0 = true ∧ nmiBit ((v120.dom 0#2).srcAt 2#8) = false := by decide

/-- SetNmiRelease: the last source, in the edge's own tick. -/
theorem witness_SetNmiRelease : nmiBit ((v120.dom 0#2).srcAt 1#8) = true ∧ (v120.dom 0#2).nnmi = 1 ∧ (v120.dom 0#2).pend.getLsbD 0 = true
    ∧ (40#64).toNat = (v120.dom 0#2).nmiClk ∧ (1#8).toNat < v120.cfg.nSrc ∧ (40#64).toNat < 2 ^ v120.cfg.tickW := by decide

/-- NmiEdgeLaw: the edge cleared by ACK_NMI, by a release in its tick and by a load; and made by a rise. -/
theorem witness_NmiEdgeLaw : (v120.dom 0#2).pend.getLsbD 0 = true ∧ (dom0 v120 (.ackNmi 0#2)).pend.getLsbD 0 = false
    ∧ (dom0 v120 (.setNmi 0#2 1#8 false 40#64)).pend.getLsbD 0 = false
    ∧ ((after { v120 with snapIn := .record (snapshot po) } .snapLoad).dom 0#2).pend.getLsbD 0 = false
    ∧ (po.dom 0#2).pend.getLsbD 0 = false := by decide

/-- NmiOrderAtOneTick, at the last source and tick. -/
theorem witness_NmiOrder : (2#8).toNat < po.cfg.nSrc ∧ (2#8).toNat < (po.dom 0#2).src.length ∧ (0xFFFE#64).toNat ≤ po.cfg.clkMax
    ∧ (0xFFFE#64).toNat < 2 ^ po.cfg.tickW ∧ nmiBit ((po.dom 0#2).srcAt 2#8) = false ∧ (po.dom 0#2).nnmi = 0
    ∧ (po.dom 0#2).pend.getLsbD 0 = false ∧ stealEnd (po.dom 0#2) ≤ (0xFFFE#64).toNat := by decide

/-- RequestsSetTheirBit, AcknowledgementsClearTheirBit, TrapTokenReturned, CheckPendingReturnsPendingWord, DelayVerdicts,
StateReadsReturnState: the last domain, source, handler, tick and token. -/
theorem witness_domain : (1#2).toNat < po.cfg.nDom ∧ 1 ≤ (1#2).toNat ∧ (0xFFFFFFFF#64).toNat < 2 ^ 32 ∧ (0xFFFF#64).toNat < 2 ^ po.cfg.tickW
    ∧ (2#8).toNat < po.cfg.nSrc ∧ (po.dom 1#2).src[(2#8).toNat]? = some 0#2 ∧ (2#8).toNat < po.cfg.nAlarm
    ∧ (po.dom 1#2).due[(2#8).toNat]? = some 0xFFFF := by decide

/-! ### Witnesses: the stealer and the queue -/

/-- StealAdvancesClockAndShifts: no ticks; ticks that end at CLK_MAX; and one more, which faults. -/
theorem witness_Steal : (let D := po.dom 0#2
    (0#64).toNat = 0 ∧ po.cfg.stealShiftPolicy = .always ∧ (0xFFFE#64).toNat < 2 ^ po.cfg.tickW ∧ (0xFFFE#64).toNat ≠ 0
      ∧ D.clk + (0xFFFE#64).toNat ≤ po.cfg.clkMax ∧ D.irqClk + (0xFFFE#64).toNat - 1 ≤ po.cfg.clkMax
      ∧ D.nmiClk + (0xFFFE#64).toNat - 1 ≤ po.cfg.clkMax ∧ D.stealStart + (D.stealLen + (0xFFFE#64).toNat) ≤ po.cfg.clkMax
      ∧ (0xFFFF#64).toNat < 2 ^ po.cfg.tickW ∧ po.cfg.clkMax < D.clk + (0xFFFF#64).toNat) := by decide

/-- StolenCyclesDelayDispatch: R225's steal and the last tick of its window. -/
theorem witness_Stolen : (let t := after po (.steal 0#2 100#64 3#64)
    exec (.steal 0#2 100#64 3#64) po = .next t ∧ t.resp = some (okResponse 0#64 0#64) ∧ 1 ≤ (3#64).toNat
      ∧ po.cfg.stealShiftPolicy = .always ∧ po.cfg.irqClkPolicy = .everyRise ∧ (po.dom 0#2).nirq = 0 ∧ (2#8).toNat < po.cfg.nSrc
      ∧ (102#64).toNat < 2 ^ po.cfg.tickW ∧ irqBit ((po.dom 0#2).srcAt 2#8) = false ∧ (102#64).toNat < (100#64).toNat + (3#64).toNat) :=
  ⟨rfl, rfl, by decide⟩

/-- RescanFindsLeast: a table with a least tick, and one of cancelled entries. -/
theorem witness_Rescan : (v171.dom 0#2).due ≠ [] ∧ (v171.dom 0#2).due.length ≤ 255 ∧ 30 ∈ (v171.dom 0#2).due
    ∧ (∀ t ∈ (v171.dom 0#2).due, 30 ≤ t) ∧ 30 ≠ v171.cfg.inf ∧ (po.dom 0#2).due ≠ [] ∧ ∀ t ∈ (po.dom 0#2).due, t = po.cfg.inf := by decide

/-- ScheduleAndCancel, ScheduleAtInfCancels, NextDueIsTrueMinimum: the last handler, and INF. -/
theorem witness_Schedule : (0#2).toNat < v171.cfg.nDom ∧ (2#8).toNat < v171.cfg.nAlarm ∧ (0xFFFF#64).toNat < 2 ^ v171.cfg.tickW
    ∧ (0xFFFF#64).toNat = v171.cfg.inf ∧ (v171.dom 0#2).minTick ≤ v171.cfg.inf ∧ (v171.dom 0#2).due[1]? = some 50
    ∧ 50 ≠ v171.cfg.inf := by decide

/-- ServeNextFiresTheHead: an empty queue, a head one tick in the future, and a head due now. -/
theorem witness_Serve : (po.dom 0#2).minId = 0xFF#8 ∧ (v171.dom 0#2).minId ≠ 0xFF#8
    ∧ ((with0 v171 (fun D => { D with clk := 29 })).dom 0#2).clk < (v171.dom 0#2).minTick
    ∧ (v171.dom 0#2).minTick ≤ ((with0 v171 (fun D => { D with clk := 30 })).dom 0#2).clk := by decide

/-! ### Witnesses: the bridge -/

/-- SetRatioBuildsTable: the least and the largest ratio, and the two refused at their bounds. -/
theorem witness_SetRatio : 1 ≤ (1#2).toNat ∧ (1#2).toNat < po.cfg.nDom ∧ 1 ≤ (1#64).toNat ∧ (0x7FFFFFFF#64).toNat < 2 ^ 31
    ∧ (0#64).toNat = 0 ∧ 2 ^ 31 ≤ (0x80000000#64).toNat ∧ (0x80000000#64).toNat < 2 ^ 32 := by decide

/-- AdvanceClosedForm, ConversionFidelity, LookupReturnsEntry: bridge 1 of V193, the last tick count and the last index. -/
theorem witness_Advance : configLegal v193.cfg = true ∧ 1 ≤ (1#2).toNat ∧ (1#2).toNat < v193.cfg.nDom
    ∧ (∀ n ∈ [10#64, 0xFFFF#64], n.toNat < 2 ^ v193.cfg.tickW) ∧ (v193.bridge 1#2).ratioValid = true ∧ BridgeInv v193.cfg (v193.bridge 1#2)
    ∧ (12#64).toNat ≤ v193.cfg.maxBatch :=
  ⟨by decide, by decide, by decide, by
    intro n hn
    rcases List.mem_pair.mp hn with rfl | rfl
    · exact (by decide : (10#64).toNat < 65536)
    · exact (by decide : (0xFFFF#64).toNat < 65536), by decide, by decide, by decide⟩

/-- NoRatioRejected. -/
theorem witness_NoRatio : 1 ≤ (1#2).toNat ∧ (1#2).toNat < po.cfg.nDom ∧ (po.bridge 1#2).ratioValid = false
    ∧ (0xFFFF#64).toNat < 2 ^ po.cfg.tickW ∧ (12#64).toNat ≤ po.cfg.maxBatch := by decide

/-! ### Witnesses: the clock, overflow prevention and snapshots -/

/-- ClockAdvances, at CLK_MAX and one above. -/
theorem witness_ClockAdvances : (0#2).toNat < po.cfg.nDom ∧ (po.dom 0#2).clk + (0xFFFE#64).toNat ≤ po.cfg.clkMax
    ∧ (0xFFFF#64).toNat < 2 ^ po.cfg.tickW ∧ po.cfg.clkMax < (po.dom 0#2).clk + (0xFFFF#64).toNat := by decide

/-- ClockOnlyGrows, PreventOverflowRebases: a clock above the mark, which goes down. -/
theorem witness_ClockOnlyGrows : (0#2).toNat < v249.cfg.nDom ∧ v249.cfg.hwm.get 0#2 < (v249.dom 0#2).clk
    ∧ (dom0 v249 (.preventOverflow 0#2)).clk < (v249.dom 0#2).clk := by decide

/-- PreventOverflowBelowMark, at the mark. -/
theorem witness_BelowMark : (let s := with0 po (fun D => { D with clk := 1000 })
    (0#2).toNat < s.cfg.nDom ∧ (s.dom 0#2).clk ≤ s.cfg.hwm.get 0#2) := by decide

/-- OverflowDutySuffices, with G = OVF_SUB: after power-on; with the whole growth spent, the clock at HWM + G and a signal tick and a due
tick at HWM + 2 G; the last command that the duty allows of each kind; and a rebase whose premise on the steal window holds at its bound. -/
theorem witness_OverflowDuty : (let D : Domain := { po.dom 0#2 with
      clk := 1500, irqClk := 2000, due := [2000, 0xFFFF, 0], minTick := 0, minId := 2#8, stealStart := 1000, stealLen := 1000 }
    (0#2).toNat < po.cfg.nDom ∧ 500 ≤ po.cfg.ovfSub.get 0#2 ∧ po.cfg.hwm.get 0#2 + 2 * 500 ≤ po.cfg.clkMax
      ∧ WithinDuty po.cfg 0#2 500 0 (po.dom 0#2) ∧ WithinDuty po.cfg 0#2 500 500 D
      ∧ WithinDuty po.cfg 0#2 500 0 { D with clk := 1000, irqClk := 1500, due := [1500, 0xFFFF, 0], stealLen := 500 }
      ∧ ticksWithin po.cfg 0#2 (1000 + 500) (.steal 0#2 1500#64 500#64) = true ∧ 0 + clockGrowth 0#2 (.steal 0#2 1500#64 500#64) ≤ 500
      ∧ ticksWithin po.cfg 0#2 (1500 + 500) (.setIrq 0#2 0#8 true 2000#64) = true
      ∧ 500 + clockGrowth 0#2 (.setIrq 0#2 0#8 true 2000#64) ≤ 500
      ∧ ticksWithin po.cfg 0#2 (1500 + 500) (.alarmSchedule 0#2 0#8 0xFFFF#64) = true
      ∧ ¬ D.clk ≤ po.cfg.hwm.get 0#2 ∧ 1500 + po.cfg.ovfSub.get 0#2 ≤ D.clk + 500) := by decide

/-- Log 16: a rebase that floors the start of a long window leaves its end (1100) ahead of the clock (600) by more than the growth (100). -/
theorem test_floored_window : (let s := with0 po (fun D => { D with clk := 1100, stealLen := 1100 })
    WithinDuty s.cfg 0#2 100 100 (s.dom 0#2) ∧ ¬ stealEnd (dom0 s (.preventOverflow 0#2)) ≤ (dom0 s (.preventOverflow 0#2)).clk + 100) := by
  decide

/-- SnapSavePutsOutRecord, with the last domain and bridge. -/
theorem witness_SnapSave : configLegal po.cfg = true ∧ po.cfg.nSrc < 256 ∧ (1#2).toNat < po.cfg.nDom ∧ 1 ≤ (1#2).toNat := by decide

/-- A legal configuration with N_SRC = 256. -/
def wide : Config := { small with nSrc := 256 }

/-- SnapSavePutsOutRecord, SnapLoadWritesRecord: N_SRC = 256, with the block's own record. -/
theorem witness_Snap_256 : (let s := State.powerOn wide
    let r := snapshot s
    configLegal s.cfg = true ∧ s.cfg.nSrc = 256 ∧ r.nSrc = Config.oversizeHeader 256
      ∧ r.domains.length = s.cfg.nDom ∧ r.carries.length = s.cfg.nDom - 1 ∧ r.version = s.cfg.snapVersion
      ∧ r.nDom.toNat = s.cfg.nDom ∧ r.nAlarm.toNat = s.cfg.nAlarm ∧ r.tickW.toNat = s.cfg.tickW) := ⟨by decide, rfl, rfl, by decide⟩

/-- SnapLoadWritesRecord, N_SRC = 256: each domain of that record passes its checks. -/
theorem witness_Snap_256_domain : ∀ rd ∈ (snapshot (State.powerOn wide)).domains,
    rd.src.length = 256 ∧ rd.due.length = wide.nAlarm ∧ (∀ t ∈ rd.due, t ≤ wide.inf) ∧ rd.nirq = countIrq rd.src
      ∧ rd.nnmi = countNmi rd.src ∧ (rd.pend.getLsbD 1 = true ↔ 0 < rd.nirq) ∧ rd.pend &&& 0xC0#8 = 0#8 ∧ rd.clk ≤ wide.clkMax
      ∧ rd.irqClk ≤ wide.clkMax ∧ rd.nmiClk ≤ wide.clkMax := by
  intro rd h
  have h' : rd = snapDomain (Domain.powerOn wide) := by
    obtain ⟨d, -, rfl⟩ := List.mem_map.mp (show rd ∈ (domainIds 2).map (fun d => snapDomain ((State.powerOn wide).dom d)) from h)
    rw [dom_powerOn]
  subst h'
  refine ⟨List.length_replicate, ?_⟩
  show _ ∧ _ ∧ 0 = List.countP _ (List.replicate 256 0#2) ∧ 0 = List.countP _ (List.replicate 256 0#2) ∧ _
  rw [List.countP_replicate, List.countP_replicate]
  decide

/-- The record of PO with its domain 0 entry replaced by a function of it. -/
def record0 (f : SnapDomain → SnapDomain) : SnapRecord :=
  { snapshot po with domains := [f (snapDomain (po.dom 0#2)), snapDomain (po.dom 1#2)] }

/-- SnapLoadRefusesBadImages, the clauses on the image and its header, each one off. -/
theorem witness_SnapLoadRefuses_header : po.snapIn = .malformed
    ∧ ({ snapshot po with domains := [] } : SnapRecord).domains.length ≠ po.cfg.nDom
    ∧ ({ snapshot po with carries := [] } : SnapRecord).carries.length ≠ po.cfg.nDom - 1
    ∧ ({ snapshot po with version := 2#16 } : SnapRecord).version ≠ po.cfg.snapVersion
    ∧ (po.cfg.nDom < 256 ∧ (3#8).toNat ≠ po.cfg.nDom) ∧ (po.cfg.nSrc < 256 ∧ (4#8).toNat ≠ po.cfg.nSrc)
    ∧ (po.cfg.nAlarm < 256 ∧ (4#8).toNat ≠ po.cfg.nAlarm) ∧ (po.cfg.tickW < 256 ∧ (17#8).toNat ≠ po.cfg.tickW) := by decide

/-- SnapLoadRefusesBadImages, the clauses on a domain's fields, each at its bound. -/
theorem witness_SnapLoadRefuses_domain : (let c := po.cfg
    (∃ rd ∈ (record0 (fun D => { D with src := [0#2, 0#2] })).domains, rd.src.length ≠ c.nSrc)
    ∧ (∃ rd ∈ (record0 (fun D => { D with due := [0, 0] })).domains, rd.due.length ≠ c.nAlarm)
    ∧ (∃ rd ∈ (record0 (fun D => { D with due := [0x10000, 0, 0] })).domains, ∃ t ∈ rd.due, c.inf < t)
    ∧ (∃ rd ∈ (record0 (fun D => { D with nirq := 1, pend := 0x02#8 })).domains, rd.nirq ≠ countIrq rd.src)
    ∧ (∃ rd ∈ (record0 (fun D => { D with nnmi := 1 })).domains, rd.nnmi ≠ countNmi rd.src)
    ∧ (∃ rd ∈ (record0 (fun D => { D with pend := 0x02#8 })).domains, ¬ (rd.pend.getLsbD 1 = true ↔ 0 < rd.nirq))
    ∧ (∃ rd ∈ (record0 (fun D => { D with pend := 0x40#8 })).domains, rd.pend &&& 0xC0#8 ≠ 0#8)
    ∧ (∃ rd ∈ (record0 (fun D => { D with clk := 0xFFFF })).domains, c.clkMax < rd.clk)
    ∧ (∃ rd ∈ (record0 (fun D => { D with irqClk := 0xFFFF })).domains, c.clkMax < rd.irqClk)
    ∧ ∃ rd ∈ (record0 (fun D => { D with nmiClk := 0xFFFF })).domains, c.clkMax < rd.nmiClk) := by decide

/-- SnapLoadWritesRecord: the record of PO, loaded in V101. -/
theorem witness_SnapLoadWrites : (let r := snapshot po
    let s := { v101 with snapIn := .record r }
    configLegal s.cfg = true ∧ s.cfg.nSrc < 256 ∧ s.snapIn = .record r ∧ r.domains.length = s.cfg.nDom ∧ r.carries.length = s.cfg.nDom - 1
      ∧ r.version = s.cfg.snapVersion ∧ r.nDom.toNat = s.cfg.nDom ∧ r.nSrc.toNat = s.cfg.nSrc ∧ r.nAlarm.toNat = s.cfg.nAlarm
      ∧ r.tickW.toNat = s.cfg.tickW
      ∧ ∀ rd ∈ r.domains, rd.src.length = s.cfg.nSrc ∧ rd.due.length = s.cfg.nAlarm ∧ (∀ t ∈ rd.due, t ≤ s.cfg.inf)
        ∧ rd.nirq = countIrq rd.src ∧ rd.nnmi = countNmi rd.src ∧ (rd.pend.getLsbD 1 = true ↔ 0 < rd.nirq)
        ∧ rd.pend &&& 0xC0#8 = 0#8 ∧ rd.clk ≤ s.cfg.clkMax ∧ rd.irqClk ≤ s.cfg.clkMax ∧ rd.nmiClk ≤ s.cfg.clkMax) := by decide

end Sys2Proof.Machine.Tests
end

/-! ## Proofs: the scope of the model (00_scope.md) -/

namespace Sys2Proof.Machine

/-! ### What a step does -/

theorem step_of_illegal_config (s : State) (h : configLegal s.cfg = false) : step s = .refused .illegalConfig := by
  simp [step, h]

theorem step_of_decode_ok {s : State} {c : CmdWords} {image : SnapImage} {rest : List Input} {i : Instr}
    (hc : configLegal s.cfg = true) (hin : s.inputs = .command c image :: rest) (hd : decode c = .ok i) :
    step s = exec i (acceptCommand s image rest) := by
  simp [step, hc, hin, hd]

theorem decodeTableWord_eq_some_iff (nbits w : Nat) (i : Instr) :
    decodeTableWord nbits w = some i ↔ decode (wordsOfNat (w % 2 ^ nbits)) = .ok i := by
  unfold decodeTableWord
  cases decode (wordsOfNat (w % 2 ^ nbits)) <;> simp

@[simp] theorem withFetchWord_cfg (s : State) (nbits w : Nat) : (s.withFetchWord nbits w).cfg = s.cfg := rfl

@[simp] theorem withFetchWord_inputs (s : State) (nbits w : Nat) :
    (s.withFetchWord nbits w).inputs = .command (wordsOfNat (w % 2 ^ nbits)) s.snapIn :: s.inputs := rfl

/-- Accepting the word that `withFetchWord` placed gives the state it was placed in: it was put before the inputs of `s`, with the
image `s` shows. -/
@[simp] theorem acceptCommand_withFetchWord (s : State) (nbits w : Nat) :
    acceptCommand (s.withFetchWord nbits w) s.snapIn s.inputs = s := rfl

theorem step_withFetchWord {s : State} {nbits w : Nat} {i : Instr} (hc : configLegal s.cfg = true)
    (hw : decodeTableWord nbits w = some i) : step (s.withFetchWord nbits w) = exec i s := by
  have hd := (decodeTableWord_eq_some_iff nbits w i).mp hw
  simpa using step_of_decode_ok (by simpa using hc) (withFetchWord_inputs s nbits w) hd

/-! ### The legal configurations -/

/-- A property of every domain number below N_DOM, written out domain by domain as `configLegal` checks it. -/
theorem forall_domId_lt_iff {n : Nat} (hn : 2 ≤ n) (P : DomId → Prop) :
    (∀ d : DomId, d.toNat < n → P d) ↔ P 0#2 ∧ P 1#2 ∧ (n ≤ 2 ∨ P 2#2) ∧ (n ≤ 3 ∨ P 3#2) := by
  constructor
  · intro h
    have below (d : DomId) : n ≤ d.toNat ∨ P d := (Nat.lt_or_ge d.toNat n).symm.imp_right (h d)
    exact ⟨h 0#2 (by simp; omega), h 1#2 (by simp; omega), below 2#2, below 3#2⟩
  · rintro ⟨h0, h1, h2, h3⟩ d hd
    rcases domId_cases d with rfl | rfl | rfl | rfl
    · exact h0
    · exact h1
    · exact h2.resolve_left (Nat.not_le.mpr hd)
    · exact h3.resolve_left (Nat.not_le.mpr hd)

theorem rebaseLegal_iff (c : Config) (d : DomId) : rebaseLegal c d = true ↔
    1 ≤ c.hwm.get d ∧ c.hwm.get d ≤ c.clkMax ∧ 1 ≤ c.ovfSub.get d ∧ c.ovfSub.get d ≤ c.hwm.get d := by
  simp [rebaseLegal, and_assoc]

/-- The legal values column of 00_scope.md R8, with the domains of HWM and OVF_SUB quantified. -/
theorem configLegal_iff (c : Config) : configLegal c = true ↔
    (16 ≤ c.tickW ∧ c.tickW ≤ 48) ∧ (2 ≤ c.nDom ∧ c.nDom ≤ 4) ∧ (1 ≤ c.nSrc ∧ c.nSrc ≤ 256)
      ∧ (1 ≤ c.nAlarm ∧ c.nAlarm ≤ 255) ∧ c.detectDelay ≤ 15 ∧ (1 ≤ c.maxBatch ∧ c.maxBatch ≤ 65535)
      ∧ (∀ d : DomId, d.toNat < c.nDom → rebaseLegal c d = true) ∧ c.resetClk ≤ c.clkMax := by
  by_cases hn : 2 ≤ c.nDom
  · rw [forall_domId_lt_iff hn]
    simp only [configLegal, Bool.and_eq_true, Bool.or_eq_true, decide_eq_true_eq, and_assoc]
  · simp [configLegal, hn]

/-! ### The obligations -/

/-- Settles O8: R8's ranges from `configLegal_iff`, and the refusal is the step's first test. -/
theorem illegalConfigurationRefused : Obligations.IllegalConfigurationRefused := by
  refine ⟨fun c => ?_, step_of_illegal_config⟩
  simp only [configLegal_iff, rebaseLegal_iff]

/-- Settles O5: a presented command is accepted and run, and a fetch word is a command presented first. -/
theorem stepRunsDecodedCommand : Obligations.StepRunsDecodedCommand :=
  ⟨fun _ _ _ _ _ hc hin hd => step_of_decode_ok hc hin hd, fun _ _ _ _ hc hw => step_withFetchWord hc hw⟩

end Sys2Proof.Machine

/-! ## Proofs: the state and its invariant (10_state.md) -/

namespace Sys2Proof.Machine

/-! ### What a command can do

`exec_effect` is the one case analysis over the commands that the proofs of this part rest on: whatever a command answers, it is the
state it started in, or that state with one domain, one bridge or a loaded record written, and with a response on the port. -/

/-- The writes that a command can make to its domain, each with what the command has checked first. -/
inductive DomainWrite (c : Config) (D : Domain) : Instr → Domain → Prop where
  | fault (i : Instr) : DomainWrite c D i { D with fault := true }
  | emptyQueue (d : DomId) : DomainWrite c D (.alarmServeNext d) { D with cerr := true }
  | raise (i : Instr) (k : Kind) (hk : k ≠ .irq) : DomainWrite c D i { D with pend := Machine.raise D.pend k }
  | lower (i : Instr) (k : Kind) (hk : k ≠ .irq) : DomainWrite c D i { D with pend := Machine.lower D.pend k }
  | trap (d : DomId) (tok : Word64) :
      DomainWrite c D (.triggerTrap d tok) { D with pend := Machine.raise D.pend .trap, trapTok := low32 tok }
  | irqRise (d : DomId) (x : Idx) (t : Word64) (v : Nat) (hx : x.toNat < c.nSrc) (hb : irqBit (D.srcAt x) = false)
      (hv : chk c (sigTick D t.toNat) = some v) : DomainWrite c D (.setIrq d x true t) { assertIrq D x with irqClk := v }
  | irqRiseHeld (d : DomId) (x : Idx) (t : Word64) (hx : x.toNat < c.nSrc) (hb : irqBit (D.srcAt x) = false) :
      DomainWrite c D (.setIrq d x true t) (assertIrq D x)
  | irqRelease (d : DomId) (x : Idx) (t : Word64) (hx : x.toNat < c.nSrc) (hb : irqBit (D.srcAt x) = true) :
      DomainWrite c D (.setIrq d x false t) { D.setSrc x (withIrqBit (D.srcAt x) false) with
        nirq := D.nirq - 1, pend := if D.nirq - 1 = 0 then Machine.lower D.pend .irq else D.pend }
  | irqClamp (d : DomId) (x : Idx) (t : Word64) (hb : irqBit (D.srcAt x) = true) (hn : D.nirq = 0) :
      DomainWrite c D (.setIrq d x false t) { D.setSrc x (withIrqBit (D.srcAt x) false) with
        pend := Machine.lower D.pend .irq, cerr := true }
  | nmiEdge (d : DomId) (x : Idx) (t : Word64) (v : Nat) (hx : x.toNat < c.nSrc) (hb : nmiBit (D.srcAt x) = false)
      (hv : chk c (sigTick D t.toNat) = some v) :
      DomainWrite c D (.setNmi d x true t) { assertNmi D x with nmiClk := v, pend := Machine.raise D.pend .nmi }
  | nmiRise (d : DomId) (x : Idx) (t : Word64) (hx : x.toNat < c.nSrc) (hb : nmiBit (D.srcAt x) = false) :
      DomainWrite c D (.setNmi d x true t) (assertNmi D x)
  | nmiRelease (d : DomId) (x : Idx) (t : Word64) (hx : x.toNat < c.nSrc) (hb : nmiBit (D.srcAt x) = true) :
      DomainWrite c D (.setNmi d x false t) { D.setSrc x (withNmiBit (D.srcAt x) false) with
        nnmi := D.nnmi - 1, pend := pendAfterRelease D (D.nnmi - 1) t.toNat }
  | nmiClamp (d : DomId) (x : Idx) (t : Word64) (hb : nmiBit (D.srcAt x) = true) (hn : D.nnmi = 0) :
      DomainWrite c D (.setNmi d x false t) { D.setSrc x (withNmiBit (D.srcAt x) false) with
        pend := pendAfterRelease D 0 t.toNat, cerr := true }
  | steal (d : DomId) (start count : Word64) (E : Domain) (h : stealWrites c D start.toNat count.toNat = some E) :
      DomainWrite c D (.steal d start count) E
  | schedule (d : DomId) (x : Idx) (t : Word64) (hx : x.toNat < c.nAlarm) (ht : t.toNat < 2 ^ c.tickW) :
      DomainWrite c D (.alarmSchedule d x t) (scheduleAlarm c D x t.toNat)
  | cancel (d : DomId) (x : Idx) : DomainWrite c D (.alarmCancel d x) (cancelAlarm c D x)
  | advance (d : DomId) (n : Word64) (hv : D.clk + n.toNat ≤ c.clkMax) :
      DomainWrite c D (.clkAdvance d n) { D with clk := D.clk + n.toNat }
  | rebase (d : DomId) : DomainWrite c D (.preventOverflow d) (rebase c D (c.ovfSub.get d))

/-- The writes that a command can make to its bridge. -/
inductive BridgeWrite (c : Config) (B : Bridge) : Instr → Bridge → Prop where
  | ratio (b : DomId) (r : Word64) (hr : 0 < (low32 r).toInt) : BridgeWrite c B (.bridgeSetRatio b r)
      { B with ratioValid := true, ratio := low32 r, tbl := buildTable c.maxBatch (low32 r) }
  | carry (b : DomId) (n : Word64) (v : BitVec 16) : BridgeWrite c B (.bridgeAdvance b n) { B with carry := v }

/-- The states that a command can answer. -/
inductive CommandEffect (s : State) (i : Instr) : State → Prop where
  | unchanged (r : Response) : CommandEffect s i (s.showing r)
  | domain (d : DomId) (E : Domain) (r : Response) (ht : i.target = .domain d) (hd : d.toNat < s.cfg.nDom)
      (hw : DomainWrite s.cfg (s.dom d) i E) : CommandEffect s i ((s.setDom d E).showing r)
  | bridge (b : DomId) (E : Bridge) (r : Response) (ht : i.target = .bridge b) (h1 : 1 ≤ b.toNat) (hb : b.toNat < s.cfg.nDom)
      (hw : BridgeWrite s.cfg (s.bridge b) i E) : CommandEffect s i ((s.setBridge b E).showing r)
  | load (rec : SnapRecord) (r : Response) (hi : i = .snapLoad) (hr : recordAccepted s.cfg rec = true) :
      CommandEffect s i ((loadRecord s rec).showing r)

section Effects

variable {s t : State} {i : Instr} {d : DomId}

/-- A command that answers RANGE changes nothing, so only its own rule matters. -/
theorem inRange_effect {ok : Bool} {own : State} (ho : ok = true → CommandEffect s i own) (h : inRange ok s own = .next t) :
    CommandEffect s i t := by
  rcases (inRange_eq_next ok s own t).mp h with ⟨hok, rfl⟩ | ⟨-, rfl⟩
  · exact ho hok
  · exact .unchanged _

theorem faultTick_effect (ht : i.target = .domain d) (hd : d.toNat < s.cfg.nDom) : CommandEffect s i (faultTick s d) :=
  .domain d _ _ ht hd (.fault i)

theorem raiseKind_effect {k : Kind} {r : Response} (ht : i.target = .domain d) (hk : k ≠ .irq) (hok : domainOk s.cfg d = true) :
    CommandEffect s i ((raiseKind s d k).showing r) :=
  .domain d _ r ht ((domainOk_iff _ _).mp hok) (.raise i k hk)

theorem lowerKind_effect {k : Kind} {r : Response} (ht : i.target = .domain d) (hk : k ≠ .irq) (hok : domainOk s.cfg d = true) :
    CommandEffect s i ((lowerKind s d k).showing r) :=
  .domain d _ r ht ((domainOk_iff _ _).mp hok) (.lower i k hk)

theorem reportConsistency_setDom (s : State) (d : DomId) (D : Domain) (r0 r1 : Word64) :
    reportConsistency (s.setDom d D) d r0 r1 = (s.setDom d { D with cerr := true }).showing
      { status := .consistency, r0 := r0, r1 := r1, fire := none, snap := none } := by
  rw [reportConsistency_eq_showing, State.setDom_setDom, State.dom_setDom_self]

theorem setIrqOn_effect {x : Idx} {u : Word64} (hd : d.toNat < s.cfg.nDom) (hx : x.toNat < s.cfg.nSrc) :
    CommandEffect s (.setIrq d x true u) (setIrqOn s d x u.toNat) := by
  dsimp only [setIrqOn]
  split
  case isTrue => exact .unchanged _
  case isFalse hb =>
    have hb := Bool.eq_false_of_not_eq_true hb
    split
    case isTrue =>
      split
      case h_1 => exact faultTick_effect rfl hd
      case h_2 v hv => exact .domain d _ _ rfl hd (.irqRise d x u v hx hb hv)
    case isFalse => exact .domain d _ _ rfl hd (.irqRiseHeld d x u hx hb)

theorem setIrqOff_effect {x : Idx} {u : Word64} (hd : d.toNat < s.cfg.nDom) (hx : x.toNat < s.cfg.nSrc) :
    CommandEffect s (.setIrq d x false u) (setIrqOff s d x) := by
  dsimp only [setIrqOff]
  split
  case isTrue hb =>
    split
    case isTrue hn =>
      rw [reportConsistency_setDom]
      exact .domain d _ _ rfl hd (.irqClamp d x u hb hn)
    case isFalse => exact .domain d _ _ rfl hd (.irqRelease d x u hx hb)
  case isFalse => exact .unchanged _

theorem setNmiOn_effect {x : Idx} {u : Word64} (hd : d.toNat < s.cfg.nDom) (hx : x.toNat < s.cfg.nSrc) :
    CommandEffect s (.setNmi d x true u) (setNmiOn s d x u.toNat) := by
  dsimp only [setNmiOn]
  split
  case isTrue => exact .unchanged _
  case isFalse hb =>
    have hb := Bool.eq_false_of_not_eq_true hb
    split
    case isTrue =>
      split
      case h_1 => exact faultTick_effect rfl hd
      case h_2 v hv => exact .domain d _ _ rfl hd (.nmiEdge d x u v hx hb hv)
    case isFalse => exact .domain d _ _ rfl hd (.nmiRise d x u hx hb)

theorem setNmiOff_effect {x : Idx} {u : Word64} (hd : d.toNat < s.cfg.nDom) (hx : x.toNat < s.cfg.nSrc) :
    CommandEffect s (.setNmi d x false u) (setNmiOff s d x u.toNat) := by
  dsimp only [setNmiOff]
  split
  case isTrue hb =>
    split
    case isTrue hn =>
      rw [reportConsistency_setDom]
      exact .domain d _ _ rfl hd (.nmiClamp d x u hb hn)
    case isFalse => exact .domain d _ _ rfl hd (.nmiRelease d x u hx hb)
  case isFalse => exact .unchanged _

theorem stealCycles_effect {start count : Word64} (hd : d.toNat < s.cfg.nDom) :
    CommandEffect s (.steal d start count) (stealCycles s d start.toNat count.toNat) := by
  unfold stealCycles
  split
  case isTrue => exact .unchanged _
  case isFalse =>
    split
    case h_1 => exact faultTick_effect rfl hd
    case h_2 E hE => exact .domain d E _ rfl hd (.steal d start count E hE)

theorem serveNext_effect (hd : d.toNat < s.cfg.nDom) : CommandEffect s (.alarmServeNext d) (serveNext s d) := by
  dsimp only [serveNext]
  split
  case isTrue => exact .domain d _ _ rfl hd (.emptyQueue d)
  case isFalse =>
    split
    case isTrue => exact .unchanged _
    case isFalse => exact .unchanged _

/-- Whatever a command answers is one of its effects: its checks come first, then its own rule. -/
theorem exec_effect (h : exec i s = .next t) : CommandEffect s i t := by
  cases i with
  | nop | snapSave => cases h; exact .unchanged _
  | checkPending | readCounts | readSigclk | readSrc | checkIrqDelay | checkNmiDelay | readSteal | alarmNextDue | alarmRead
  | bridgeRead | clkRead => exact inRange_effect (fun _ => .unchanged _) h
  | setIrq d x on u =>
    refine inRange_effect (fun hok => ?_) h
    simp only [Bool.and_eq_true, domainOk_iff, sourceOk_iff] at hok
    obtain ⟨⟨hd, hx⟩, -⟩ := hok
    cases on
    · exact setIrqOff_effect hd hx
    · exact setIrqOn_effect hd hx
  | setNmi d x on u =>
    refine inRange_effect (fun hok => ?_) h
    simp only [Bool.and_eq_true, domainOk_iff, sourceOk_iff] at hok
    obtain ⟨⟨hd, hx⟩, -⟩ := hok
    cases on
    · exact setNmiOff_effect hd hx
    · exact setNmiOn_effect hd hx
  | triggerReset | triggerMonitor | triggerDma => exact inRange_effect (raiseKind_effect rfl (by decide)) h
  | ackReset | ackTrap | ackNmi | ackMonitor | ackDma => exact inRange_effect (lowerKind_effect rfl (by decide)) h
  | triggerTrap d tok =>
    refine inRange_effect (fun hok => ?_) h
    simp only [Bool.and_eq_true, domainOk_iff] at hok
    exact .domain d _ _ rfl hok.1 (.trap d tok)
  | steal d start count =>
    refine inRange_effect (fun hok => ?_) h
    simp only [Bool.and_eq_true, domainOk_iff] at hok
    exact stealCycles_effect hok.1.1
  | alarmSchedule d x u =>
    refine inRange_effect (fun hok => ?_) h
    simp only [Bool.and_eq_true, domainOk_iff, handlerOk_iff, tickOk_iff] at hok
    obtain ⟨⟨hd, hx⟩, hu⟩ := hok
    exact .domain d _ _ rfl hd (.schedule d x u hx hu)
  | alarmCancel d x =>
    refine inRange_effect (fun hok => ?_) h
    simp only [Bool.and_eq_true, domainOk_iff] at hok
    exact .domain d _ _ rfl hok.1 (.cancel d x)
  | alarmServeNext d => exact inRange_effect (fun hok => serveNext_effect ((domainOk_iff _ _).mp hok)) h
  | bridgeSetRatio b r =>
    refine inRange_effect (fun hok => ?_) h
    simp only [Bool.and_eq_true, bridgeOk_iff] at hok
    obtain ⟨⟨h1, hb⟩, -⟩ := hok
    split
    case isTrue => exact .unchanged _
    case isFalse hr => exact .bridge b _ _ rfl h1 hb (.ratio b r (not_le.mp hr))
  | bridgeAdvance b n =>
    refine inRange_effect (fun hok => ?_) h
    simp only [Bool.and_eq_true, bridgeOk_iff] at hok
    obtain ⟨⟨h1, hb⟩, -⟩ := hok
    split
    case isTrue => exact .bridge b _ _ rfl h1 hb (.carry b n _)
    case isFalse => exact .unchanged _
  | bridgeLookup b n =>
    refine inRange_effect (fun _ => ?_) h
    split
    case isTrue => exact .unchanged _
    case isFalse => exact .unchanged _
  | clkAdvance d n =>
    refine inRange_effect (fun hok => ?_) h
    simp only [Bool.and_eq_true, domainOk_iff] at hok
    split
    case h_1 => exact faultTick_effect rfl hok.1
    case h_2 v hv =>
      obtain ⟨hle, rfl⟩ := (chk_eq_some _ _ _).mp hv
      exact .domain d _ _ rfl hok.1 (.advance d n hle)
  | preventOverflow d =>
    refine inRange_effect (fun hok => ?_) h
    split
    case isTrue => exact .unchanged _
    case isFalse => exact .domain d _ _ rfl ((domainOk_iff _ _).mp hok) (.rebase d)
  | snapLoad =>
    cases h
    split
    case h_1 => exact .unchanged _
    case h_2 rec _ =>
      split
      case isTrue hr => exact .load rec _ rfl hr
      case isFalse => exact .unchanged _

end Effects

/-! ### The clock under a write -/

@[simp] theorem rescan_clk (c : Config) (D : Domain) : (rescan c D).clk = D.clk := by rw [rescan_frame]

@[simp] theorem setDue_clk (D : Domain) (x : Idx) (t : Nat) : (D.setDue x t).clk = D.clk := rfl

@[simp] theorem scheduleAlarm_clk (c : Config) (D : Domain) (x : Idx) (t : Nat) : (scheduleAlarm c D x t).clk = D.clk := by
  unfold scheduleAlarm
  split
  · rfl
  · split <;> simp

@[simp] theorem cancelAlarm_clk (c : Config) (D : Domain) (x : Idx) : (cancelAlarm c D x).clk = D.clk := by
  unfold cancelAlarm
  split <;> simp

/-- A signal tick that a steal has checked is in bounds if it was so before the steal. -/
theorem le_of_chkSignal {c : Config} {D : Domain} {k : Kind} {sig start count v : Nat}
    (h : chkSignal c D k sig start count = some v) (hs : sig ≤ c.clkMax) : v ≤ c.clkMax := by
  unfold chkSignal at h
  split at h
  · obtain ⟨hle, rfl⟩ := (chk_eq_some _ _ _).mp h; exact hle
  · cases h; exact hs

/-- A steal that is accepted moves the clock by its count, and writes beside it only ticks that `chk` passed. -/
theorem stealWrites_eq_some {c : Config} {D E : Domain} {start count : Nat} (h : stealWrites c D start count = some E) :
    ∃ irq nmi first len, E = { D with clk := D.clk + count, irqClk := irq, nmiClk := nmi, stealStart := first, stealLen := len }
      ∧ D.clk + count ≤ c.clkMax ∧ (D.irqClk ≤ c.clkMax → irq ≤ c.clkMax) ∧ (D.nmiClk ≤ c.clkMax → nmi ≤ c.clkMax)
      ∧ first + len ≤ c.clkMax := by
  unfold stealWrites at h
  split at h
  case h_1 clk irq nmi fin hclk hirq hnmi hfin =>
    cases h
    obtain ⟨hclk_le, rfl⟩ := (chk_eq_some _ _ _).mp hclk
    obtain ⟨hfin_le, -⟩ := (chk_eq_some _ _ _).mp hfin
    exact ⟨irq, nmi, _, _, rfl, hclk_le, le_of_chkSignal hirq, le_of_chkSignal hnmi, hfin_le⟩
  case h_2 => cases h

/-- The only write that can lower a clock is the rebase of PREVENT_OVERFLOW. -/
theorem clk_le_of_write {c : Config} {D E : Domain} {i : Instr} (h : DomainWrite c D i E) :
    D.clk ≤ E.clk ∨ ∃ d, i = .preventOverflow d := by
  cases h with
  | fault | emptyQueue | raise | lower | trap | irqRise | irqRiseHeld | irqRelease | irqClamp | nmiEdge | nmiRise | nmiRelease
  | nmiClamp => exact .inl (Nat.le_refl D.clk)
  | schedule | cancel => exact .inl (by simp)
  | steal _ _ _ _ h =>
    obtain ⟨_, _, _, _, rfl, -⟩ := stealWrites_eq_some h
    exact .inl (Nat.le_add_right _ _)
  | advance => exact .inl (Nat.le_add_right _ _)
  | rebase d => exact .inr ⟨d, rfl⟩

/-! ### The invariant under a write -/

/-- Every write of a command keeps a domain in order; the clamps of R103 do not happen in such a domain. -/
theorem domainInv_of_write {c : Config} {D E : Domain} {i : Instr} (hc : configLegal c = true)
    (hovf : ∀ d, i.target = .domain d → 1 ≤ c.ovfSub.get d) (hD : DomainInv c D) (h : DomainWrite c D i E) : DomainInv c E := by
  have ⟨⟨hnirq, hnnmi⟩, _, _, ⟨hclk, hirq, hnmi, hsteal⟩, _, _⟩ := hD
  cases h with
  | fault | emptyQueue => exact hD
  | raise _ k hk => exact domainInv_raise c D k hD hk
  | lower _ k hk => exact domainInv_lower c D k hD hk
  | trap => exact domainInv_raise c D .trap hD (by decide)
  | irqRise d x t v hx hb hv =>
    obtain ⟨hle, rfl⟩ := (chk_eq_some _ _ _).mp hv
    exact domainInv_assertIrq c D x _ hD hx hb hle
  | irqRiseHeld d x t hx hb => exact domainInv_assertIrq c D x D.irqClk hD hx hb hirq
  | irqRelease d x t hx hb => exact domainInv_releaseIrq c D x hD hx hb
  | irqClamp d x t hb hn => exact absurd (hnirq.symm.trans hn) (countIrq_pos D x hb).ne'
  | nmiEdge d x t v hx hb hv =>
    obtain ⟨hle, rfl⟩ := (chk_eq_some _ _ _).mp hv
    have hrise := domainInv_assertNmi c D x hD hx hb
    exact domainInv_raise c _ .nmi (domainInv_ticks c _ D.clk D.irqClk _ D.stealStart D.stealLen hrise hclk hirq hle hsteal)
      (by decide)
  | nmiRise d x t hx hb => exact domainInv_assertNmi c D x hD hx hb
  | nmiRelease d x t hx hb => exact domainInv_releaseNmi c D x t.toNat hD hx hb
  | nmiClamp d x t hb hn => exact absurd (hnnmi.symm.trans hn) (countNmi_pos D x hb).ne'
  | steal _ _ _ _ h =>
    obtain ⟨irq, nmi, first, len, rfl, hc', hi', hn', hf'⟩ := stealWrites_eq_some h
    exact domainInv_ticks c D _ irq nmi first len hD hc' (hi' hirq) (hn' hnmi) hf'
  | schedule d x t hx ht => exact domainInv_scheduleAlarm c D x _ hc hD hx (Nat.le_sub_one_of_lt ht)
  | cancel d x => exact domainInv_cancelAlarm c D x hc hD
  | advance d n hv => exact domainInv_ticks c D _ D.irqClk D.nmiClk D.stealStart D.stealLen hD hv hirq hnmi hsteal
  | rebase d => exact domainInv_rebase c D _ hD (hovf d rfl)

theorem bridgeInv_of_write {c : Config} {B E : Bridge} {i : Instr} (hB : BridgeInv c B) (h : BridgeWrite c B i E) :
    BridgeInv c E := by
  cases h with
  | ratio b r hr => exact bridgeInv_ratio c B _ hr
  | carry b n v => exact bridgeInv_carry c B v hB

/-- Loading an accepted record: every domain and every carry of the block is listed in it, and no other. -/
theorem inv_loadRecord (s : State) (r : SnapRecord) (h : Inv s) (hr : recordAccepted s.cfg r = true) : Inv (loadRecord s r) := by
  obtain ⟨hc, -, hbr, hout⟩ := h
  obtain ⟨⟨hlen, hcar⟩, -, hall⟩ := (recordAccepted_iff _ _).mp hr
  have hn : 2 ≤ s.cfg.nDom := (configLegal_bounds _ hc).2.2.1
  refine ⟨hc, fun d hd => ?_, fun b h1 hb => ?_, fun d (hd : s.cfg.nDom ≤ d.toNat) => ⟨?_, ?_⟩⟩
  · have hlt : d.toNat < r.domains.length := hlen ▸ hd
    obtain ⟨hfits, hcons⟩ := hall _ (List.getElem_mem hlt)
    rw [loadRecord_dom, List.getElem?_eq_getElem hlt]
    exact domainInv_loadDomain _ _ _ hc hfits hcons
  · rw [loadRecord_bridge _ _ _ h1]
    split
    · exact bridgeInv_carry _ _ _ (hbr b h1 hb)
    · exact hbr b h1 hb
  · rw [loadRecord_dom, List.getElem?_eq_none (hlen ▸ hd)]
    exact (hout d hd).1
  · rw [loadRecord_bridge _ _ _ (by omega), List.getElem?_eq_none (by omega)]
    exact (hout d hd).2

theorem inv_exec {s t : State} {i : Instr} (hs : Inv s) (h : exec i s = .next t) : Inv t := by
  have ⟨hc, hdom, hbr, _⟩ := hs
  cases exec_effect h with
  | unchanged r => exact inv_endWith s r hs
  | domain d E r ht hd hw =>
    have hovf : ∀ e, i.target = .domain e → 1 ≤ s.cfg.ovfSub.get e := by
      intro e he
      obtain rfl : d = e := by simpa [ht] using he
      obtain ⟨-, -, -, -, -, -, hleg, -⟩ := (configLegal_iff _).mp hc
      exact ((rebaseLegal_iff _ _).mp (hleg d hd)).2.2.1
    exact inv_setDom s d E hs hd (domainInv_of_write hc hovf (hdom d hd) hw)
  | bridge b E r ht h1 hb hw => exact inv_setBridge s b E hs h1 hb (bridgeInv_of_write (hbr b h1 hb) hw)
  | load rec r hi hr => exact inv_loadRecord s rec hs hr

/-! ### The invariant under a step -/

theorem inv_powerOn (c : Config) (hc : configLegal c = true) : Inv (State.powerOn c) := by
  refine ⟨hc, fun d _ => ?_, fun b _ _ => ?_, fun d _ => ⟨dom_powerOn c d, bridge_powerOn c d⟩⟩
  · rw [dom_powerOn]; exact domainInv_powerOn c
  · rw [bridge_powerOn]; exact bridgeInv_powerOn c

theorem inv_pulseReset (s : State) (d : DomId) (rest : List Input) (hs : Inv s) : Inv (pulseReset s d rest) := by
  unfold pulseReset
  split
  case isTrue hd =>
    have ⟨hc, hdom, _, _⟩ := hs
    exact inv_setDom s d _ hs hd (domainInv_resetDomain _ _ hc (hdom d hd))
  case isFalse => exact hs

theorem inv_step {s t : State} (hs : Inv s) (h : step s = .next t) : Inv t := by
  have hc : configLegal s.cfg = true := hs.1
  unfold step at h
  rw [if_pos hc] at h
  split at h
  case h_1 => cases h; exact hs
  case h_2 => cases h; exact inv_powerOn s.cfg hc
  case h_3 d rest _ => cases h; exact inv_pulseReset s d rest hs
  case h_4 image rest _ =>
    split at h
    case h_1 => cases h; exact hs
    case h_2 => exact inv_exec (show Inv (acceptCommand s image rest) from hs) h

/-- The inputs still to come are no part of the invariant, so presenting any of them keeps it. -/
theorem inv_of_reachable {s : State} (h : Reachable s) : Inv s := by
  induction h with
  | powerOn c hc => exact inv_powerOn c hc
  | present s ins _ ih => exact ih
  | step s t _ hs ih => exact inv_step ih hs

/-! ### R39 to R42 from the invariant -/

theorem irqPending_iff {D : Domain} (h : IrqBitMatches D) : D.pend.getLsbD 1 = true ↔ 0 < D.nirq := by
  rw [show D.pend.getLsbD 1 = decide (0 < D.nirq) from h, decide_eq_true_iff]

/-- R41 where something is scheduled. -/
theorem minTracked_scheduled {c : Config} {D : Domain} (h : MinTracked c D) (hs : ∃ t ∈ D.due, t ≠ c.inf) :
    (∀ t ∈ D.due, D.minTick ≤ t) ∧ D.due[D.minId.toNat]? = some D.minTick := by
  rcases h with ⟨-, -, hall⟩ | ⟨-, -, hheld, hle⟩
  · obtain ⟨t, ht, hne⟩ := hs
    exact absurd (hall t ht) hne
  · exact ⟨hle, hheld⟩

/-- R41 where nothing is scheduled. -/
theorem minTracked_empty {c : Config} {D : Domain} (h : MinTracked c D) (hs : ∀ t ∈ D.due, t = c.inf) :
    D.minTick = c.inf ∧ D.minId = 0xFF#8 := by
  rcases h with ⟨hid, hmin, -⟩ | ⟨-, hne, hheld, -⟩
  · exact ⟨hmin, hid⟩
  · exact absurd (hs _ (List.mem_of_getElem? hheld)) hne

/-- R42: the entries of a bridge in order, up to MAX_BATCH. -/
theorem entry_of_bridgeInv {c : Config} {B : Bridge} {n : Nat} (hc : configLegal c = true) (hB : BridgeInv c B)
    (hv : B.ratioValid = true) (hn : n ≤ c.maxBatch) :
    (B.entry n).ip.toNat = n * B.ratio.toNat / 65536 ∧ (B.entry n).fp.toNat = n * B.ratio.toNat % 65536 := by
  obtain ⟨-, hr, htbl⟩ := hB.2 hv
  obtain ⟨-, -, -, -, -, -, -, -, -, hm, -⟩ := configLegal_bounds c hc
  exact entry_of_buildTable B _ n htbl hn hm hr

/-! ### An NMI that stays pending with no source asserting it -/

/-- SET_NMI d0, s0, on at tick 1, and its release at tick 2: the edge is not withdrawn, because the tick is a later one (R106). -/
def nmiPulse : List Input :=
  [.command ⟨0x08000001#32, 1#64, 0#64⟩ .malformed, .command ⟨0x08000000#32, 2#64, 0#64⟩ .malformed]

/-- The block after power-on and `nmiPulse`. -/
def afterNmiPulse : State :=
  let D : Domain := { Domain.powerOn Config.tc1 with pend := 0x01#8, nmiClk := 1 }
  (State.reset.setDom 0#2 D).showing (okResponse 0#64 0#64)

theorem reachable_afterNmiPulse : Reachable afterNmiPulse := by
  have hpresented := Reachable.present _ nmiPulse (.powerOn Config.tc1 (by decide))
  have hasserted := Reachable.step _ _ hpresented rfl
  exact .step _ _ hasserted rfl

/-! ### Commands that change nothing -/

theorem exec_checkPending {s : State} {d : DomId} (hd : d.toNat < s.cfg.nDom) :
    exec (.checkPending d) s = .next (s.showing (okResponse (resultBits (readPend (s.dom d).pend)) 0#64)) :=
  inRange_pos ((domainOk_iff _ _).mpr hd) s _

theorem readPend_toNat (p : BitVec 8) : (readPend p).toNat = p.toNat % 64 := Nat.and_two_pow_sub_one_eq_mod p.toNat 6

theorem exec_bridgeLookup {s : State} {b : DomId} {n : Word64} (h1 : 1 ≤ b.toNat) (hb : b.toNat < s.cfg.nDom)
    (hn : n.toNat ≤ s.cfg.maxBatch) : exec (.bridgeLookup b n) s = .next (s.showing
      (if (s.bridge b).ratioValid then
        okResponse (resultBits ((s.bridge b).entry n.toNat).ip) (resultBits ((s.bridge b).entry n.toNat).fp)
       else rejectResponse .noRatio)) := by
  have hok : (bridgeOk s.cfg b && indexOk s.cfg n) = true := by simp [h1, hb, hn]
  refine (inRange_pos hok s _).trans ?_
  split <;> rfl

theorem exec_bridgeAdvance_of_noRatio {s : State} {b : DomId} {n : Word64} (h1 : 1 ≤ b.toNat) (hb : b.toNat < s.cfg.nDom)
    (hn : n.toNat < 2 ^ s.cfg.tickW) (hv : (s.bridge b).ratioValid = false) :
    exec (.bridgeAdvance b n) s = .next (s.showing (rejectResponse .noRatio)) := by
  have hok : (bridgeOk s.cfg b && tickOk s.cfg n) = true := by simp [h1, hb, hn]
  refine (inRange_pos hok s _).trans ?_
  rw [hv]; rfl

/-! ### The obligations -/

/-- Settles O11: every step is a reset, an illegal word or a command, and each keeps the invariant. -/
theorem everyStepKeepsInvariant : Obligations.EveryStepKeepsInvariant := fun _ _ => inv_step

/-- Settles O13: the invariant gives R39 to R42, and a released NMI pulse is the state that R40 does not cover. -/
theorem reachableStatesAreConsistent : Obligations.ReachableStatesAreConsistent := by
  refine ⟨fun s hs => ?_, afterNmiPulse, reachable_afterNmiPulse, rfl, rfl⟩
  obtain ⟨hc, hdom, hbr, -⟩ := inv_of_reachable hs
  refine ⟨fun d hd => ?_, fun b h1 hb hv => ⟨(s.bridge b).carry.isLt, fun n => entry_of_bridgeInv hc (hbr b h1 hb) hv⟩⟩
  obtain ⟨⟨hnirq, hnnmi⟩, hirq, -, -, -, hmin⟩ := hdom d hd
  exact ⟨hnirq, hnnmi, irqPending_iff hirq, minTracked_scheduled hmin, minTracked_empty hmin⟩

/-- Settles O44: the entry looked up is the entry of the ratio's own table. -/
theorem lookupReturnsEntry : Obligations.LookupReturnsEntry := by
  intro s b n hc h1 hb hn hv hB
  obtain ⟨hip, hfp⟩ := entry_of_bridgeInv hc hB hv hn
  rw [exec_bridgeLookup h1 hb hn, if_pos hv, resultBits_eq, resultBits_eq, hip, hfp]

/-- Settles O47: of what a command can write, only a rebase and a loaded record can lower a clock. -/
theorem clockOnlyGrows : Obligations.ClockOnlyGrows := by
  intro i s t d h hlt
  cases exec_effect h with
  | unchanged r => exact absurd hlt (Nat.lt_irrefl _)
  | bridge b E r ht h1 hb hw => exact absurd hlt (Nat.lt_irrefl _)
  | load rec r hi hr => exact .inr hi
  | domain e E r ht he hw =>
    obtain rfl : d = e := by
      by_contra hne
      rw [dom_showing, State.dom_setDom_ne _ _ _ _ hne] at hlt
      exact Nat.lt_irrefl _ hlt
    rw [dom_showing, State.dom_setDom_self] at hlt
    obtain ⟨f, rfl⟩ := (clk_le_of_write hw).resolve_left (Nat.not_le.mpr hlt)
    obtain rfl : f = d := by simpa [Instr.target] using ht
    exact .inl rfl

/-- Settles O12: `inv_powerOn`, TC1 being a legal configuration. -/
theorem invariantHoldsAtPowerOn : Obligations.InvariantHoldsAtPowerOn := ⟨inv_powerOn, inv_powerOn Config.tc1 (by decide)⟩

/-- Settles O31: the mask of bits 7:6 is the remainder by 64. -/
theorem checkPendingReturnsPendingWord : Obligations.CheckPendingReturnsPendingWord := by
  intro s d hd
  rw [exec_checkPending hd, resultBits_eq, readPend_toNat]

/-- Settles O45: both commands test `ratio_valid` before anything else. -/
theorem noRatioRejected : Obligations.NoRatioRejected := by
  intro s b n h1 hb hv
  refine ⟨fun hn => exec_bridgeAdvance_of_noRatio h1 hb hn hv, fun hn => ?_⟩
  rw [exec_bridgeLookup h1 hb hn, hv]
  rfl

end Sys2Proof.Machine

/-! ## Proofs: the ports and what a command touches (20_memory.md) -/

namespace Sys2Proof.Machine

/-! ### Commands that write no state -/

/-- No command reads the response port, and every command overwrites it (log 4). -/
theorem exec_showing (i : Instr) (s : State) (r : Response) : exec i (s.showing r) = exec i s := by
  cases i <;> rfl

/-- Out of range, the RANGE response takes the place of the command's own. -/
theorem exists_inRange_showing (ok : Bool) (s : State) (r : Response) : ∃ q, inRange ok s (s.showing r) = .next (s.showing q) := by
  cases ok
  · exact ⟨_, inRange_neg rfl s _⟩
  · exact ⟨_, inRange_pos rfl s _⟩

/-- The commands of R65 show a response and do nothing else. -/
theorem exists_exec_eq_showing {i : Instr} (h : writesNoState i = true) (s : State) : ∃ r, exec i s = .next (s.showing r) := by
  cases i with
  | nop | snapSave => exact ⟨_, rfl⟩
  | checkPending | readCounts | readSigclk | readSrc | checkIrqDelay | checkNmiDelay | readSteal | alarmNextDue | alarmRead
  | bridgeRead | clkRead => exact exists_inRange_showing _ s _
  | bridgeLookup b n =>
    simp only [exec, execBridgeLookup]
    split
    case isTrue => exact exists_inRange_showing _ s _
    case isFalse => exact exists_inRange_showing _ s _
  | setIrq | setNmi | triggerReset | ackReset | triggerTrap | ackTrap | ackNmi | triggerMonitor | ackMonitor | triggerDma | ackDma
  | steal | alarmSchedule | alarmCancel | alarmServeNext | bridgeSetRatio | bridgeAdvance | clkAdvance | preventOverflow
  | snapLoad => cases h

/-! ### The obligations -/

/-- Settles O18: of the effects a command can have, one that writes a domain or a bridge writes the one that the command names, and
the command that loads a record names none. -/
theorem commandsStayInTheirDomain : Obligations.CommandsStayInTheirDomain := by
  intro i s t h
  cases exec_effect h with
  | unchanged r => exact ⟨fun _ _ => ⟨rfl, fun _ _ => rfl⟩, fun _ _ => ⟨rfl, fun _ _ => rfl⟩⟩
  | domain d E r ht hd hw =>
    rw [ht]
    refine ⟨fun d' hd' => ?_, nofun⟩
    cases hd'
    exact ⟨rfl, fun e => State.dom_setDom_ne s d e E⟩
  | bridge b E r ht h1 hb hw =>
    rw [ht]
    refine ⟨nofun, fun b' hb' => ?_⟩
    cases hb'
    exact ⟨rfl, fun e => State.bridge_setBridge_ne s b e E⟩
  | load rec r hi hr =>
    subst hi
    exact ⟨nofun, nofun⟩

/-- Settles O19: the first answer only shows a response, and a response on the port does not change the next answer. -/
theorem readCommandsWriteNothing : Obligations.ReadCommandsWriteNothing := by
  intro i s hi
  obtain ⟨r, hr⟩ := exists_exec_eq_showing hi s
  exact ⟨r, hr, (exec_showing i s r).trans hr⟩

end Sys2Proof.Machine

/-! ## Proofs: the encoding (30_encoding.md) -/

namespace Sys2Proof

/-! ### Words that match a row of the opcode map

The lemmas `commandWord_and_…` say that the word of a command matches its row. These are their converses: a word that matches a row
is the command word of the row's opcode and of the fields that its mask leaves free. -/

/-- Besides its opcode there is nothing in a word that matches a row but what the row's mask leaves free, if the mask covers the opcode
and the reserved bits, as every mask of the map does (30_encoding.md R82). -/
theorem commandWord_of_and_eq {w m p : Word32} {op : BitVec 6} (hm : 0xFC00FFFC#32 &&& m = 0xFC00FFFC#32)
    (hp : p = commandWord op 0 0 false false) (h : w &&& m = p) :
    commandWord op (domField (w &&& ~~~m)) (idxField (w &&& ~~~m)) (f1Field (w &&& ~~~m)) (f0Field (w &&& ~~~m)) = w := by
  apply BitVec.eq_of_getLsbD_eq
  intro i hi
  have hmi := congrArg (BitVec.getLsbD · i) hm
  have hwi := congrArg (BitVec.getLsbD · i) (h.trans hp)
  simp only [BitVec.getLsbD_and, getLsbD_commandWord] at hmi hwi
  rw [getLsbD_commandWord]
  simp only [domField, idxField, f1Field, f0Field, BitVec.getLsbD_extractLsb']
  interval_cases i <;> simp_all

theorem domId_and_allOnes (d : DomId) : d &&& 3#2 = d := BitVec.and_allOnes

theorem idx_and_allOnes (x : Idx) : x &&& 255#8 = x := BitVec.and_allOnes

section Rows

variable {w p : Word32} {op : BitVec 6} (hp : p = commandWord op 0 0 false false)
include hp

theorem commandWord_of_and_allOnes (h : w &&& 0xFFFFFFFF#32 = p) : commandWord op 0 0 false false = w := by
  rw [← hp, ← h, and_allOnes]

theorem commandWord_of_and_dom (h : w &&& 0xFCFFFFFF#32 = p) : commandWord op (domField w) 0 false false = w := by
  simpa [domField, idxField, f1Field, f0Field, BitVec.extractLsb'_and, domId_and_allOnes]
    using commandWord_of_and_eq (by decide) hp h

theorem commandWord_of_and_domIdx (h : w &&& 0xFC00FFFF#32 = p) :
    commandWord op (domField w) (idxField w) false false = w := by
  simpa [domField, idxField, f1Field, f0Field, BitVec.extractLsb'_and, domId_and_allOnes, idx_and_allOnes]
    using commandWord_of_and_eq (by decide) hp h

theorem commandWord_of_and_domIdxF0 (h : w &&& 0xFC00FFFE#32 = p) :
    commandWord op (domField w) (idxField w) false (f0Field w) = w := by
  simpa [domField, idxField, f1Field, f0Field, BitVec.extractLsb'_and, domId_and_allOnes, idx_and_allOnes]
    using commandWord_of_and_eq (by decide) hp h

theorem commandWord_of_and_domF0 (h : w &&& 0xFCFFFFFE#32 = p) :
    commandWord op (domField w) 0 false (f0Field w) = w := by
  simpa [domField, idxField, f1Field, f0Field, BitVec.extractLsb'_and, domId_and_allOnes]
    using commandWord_of_and_eq (by decide) hp h

theorem commandWord_of_and_domF1F0 (h : w &&& 0xFCFFFFFC#32 = p) :
    commandWord op (domField w) 0 (f1Field w) (f0Field w) = w := by
  simpa [domField, idxField, f1Field, f0Field, BitVec.extractLsb'_and, domId_and_allOnes]
    using commandWord_of_and_eq (by decide) hp h

end Rows

theorem decodeRow_eq_ok_iff (w mask pattern : Word32) (i j : Instr) :
    decodeRow w mask pattern i = .ok j ↔ w &&& mask = pattern ∧ i = j := by
  unfold decodeRow
  split <;> simp [*]

theorem decodeRow_of_ne {w mask pattern : Word32} (i : Instr) (h : w &&& mask ≠ pattern) :
    decodeRow w mask pattern i = .error (.unusedFieldSet (opField w)) := if_neg h

/-! ### The operand words of a command -/

/-- The command with operand words `a` and `b` in the place of its own, where it has them (30_encoding.md R83). -/
def Instr.withOperands (a b : Word64) : Instr → Instr
  | .setIrq d x on _ => .setIrq d x on a
  | .setNmi d x on _ => .setNmi d x on a
  | .triggerTrap d _ => .triggerTrap d a
  | .checkIrqDelay d br ie _ => .checkIrqDelay d br ie a
  | .checkNmiDelay d br _ => .checkNmiDelay d br a
  | .steal d _ _ => .steal d a b
  | .alarmSchedule d h _ => .alarmSchedule d h a
  | .bridgeSetRatio d _ => .bridgeSetRatio d a
  | .bridgeAdvance d _ => .bridgeAdvance d a
  | .bridgeLookup d _ => .bridgeLookup d a
  | .clkAdvance d _ => .clkAdvance d a
  | i => i

theorem withOperands_self (i : Instr) : i.withOperands (operandA i) (operandB i) = i := by
  cases i <;> rfl

/-- A command carries operand word A or ignores it. -/
theorem operandA_withOperands (i : Instr) (a b : Word64) :
    operandA (i.withOperands a b) = a ∨ ∀ a', i.withOperands a' b = i.withOperands a b := by
  cases i with
  | setIrq | setNmi | triggerTrap | checkIrqDelay | checkNmiDelay | steal | alarmSchedule | bridgeSetRatio | bridgeAdvance
  | bridgeLookup | clkAdvance => exact .inl rfl
  | _ => exact .inr fun _ => rfl

/-- A command carries operand word B or ignores it; only STEAL carries it. -/
theorem operandB_withOperands (i : Instr) (a b : Word64) :
    operandB (i.withOperands a b) = b ∨ ∀ b', i.withOperands a b' = i.withOperands a b := by
  cases i with
  | steal => exact .inl rfl
  | _ => exact .inr fun _ => rfl

/-! ### Encoding and decoding -/

/-- The word of a command decodes to that command, with the operand words that stand beside it: its row is the one of its opcode, the
row's mask clears its fields, and the fields are read back. -/
theorem decode_encodeWord (i : Instr) (a b : Word64) : decode ⟨encodeWord i, a, b⟩ = .ok (i.withOperands a b) := by
  cases i
  all_goals
    simp only [decode, encodeWord, opField_commandWord, domField_commandWord, idxField_commandWord, f1Field_commandWord,
      f0Field_commandWord, BitVec.reduceToNat, Instr.withOperands, decodeRow_eq_ok_iff, and_true]
  case nop | snapSave | snapLoad => decide
  case setIrq | setNmi => exact (commandWord_and_domIdxF0 _ _ _ _).trans (by decide)
  case readSrc | alarmSchedule | alarmCancel | alarmRead => exact (commandWord_and_domIdx _ _ _).trans (by decide)
  case checkIrqDelay => exact (commandWord_and_domF1F0 _ _ _ _).trans (by decide)
  case checkNmiDelay => exact (commandWord_and_domF0 _ _ _).trans (by decide)
  all_goals exact (commandWord_and_dom _ _).trans (by decide)

/-- A word that decodes to a command is the word of that command: a row that it matches fixes every bit of it but the fields that the
command holds. The cases are the rows of the map in its order, grouped by mask; the rows left at the end use DOM alone. -/
theorem encodeWord_of_decode {c : CmdWords} {i : Instr} (h : decode c = .ok i) : encodeWord i = c.word := by
  simp only [decode] at h
  split at h
  case h_35 => cases h
  all_goals obtain ⟨hrow, rfl⟩ := (decodeRow_eq_ok_iff ..).mp h
  case h_1 | h_33 | h_34 => exact commandWord_of_and_allOnes (by decide) hrow
  case h_2 | h_3 => exact commandWord_of_and_domIdxF0 (by decide) hrow
  case h_16 | h_21 | h_22 | h_25 => exact commandWord_of_and_domIdx (by decide) hrow
  case h_17 => exact commandWord_of_and_domF1F0 (by decide) hrow
  case h_18 => exact commandWord_of_and_domF0 (by decide) hrow
  all_goals exact commandWord_of_and_dom (by decide) hrow

/-- What the decoder accepts, said without its table. -/
theorem decode_eq_ok_iff (c : CmdWords) (i : Instr) : decode c = .ok i ↔ encodeWord i = c.word ∧ i.withOperands c.a c.b = i := by
  constructor
  · intro h
    have hw := encodeWord_of_decode h
    have hi := decode_encodeWord i c.a c.b
    rw [hw, h] at hi
    exact ⟨hw, (Except.ok.inj hi).symm⟩
  · rintro ⟨hw, hi⟩
    have h := decode_encodeWord i c.a c.b
    rwa [hw, hi] at h

theorem decode_encode (i : Instr) : decode (encode i) = .ok i :=
  (decode_eq_ok_iff (encode i) i).mpr ⟨rfl, withOperands_self i⟩

theorem decode_of_encode_eq {c : CmdWords} {i : Instr} (h : encode i = c) : decode c = .ok i := h ▸ decode_encode i

end Sys2Proof

namespace Sys2Proof.Machine

/-! ### The obligations -/

/-- Settles O1: the word of a command decodes to it with the operand words beside it, and `encode` puts its own there. -/
theorem decodeOfEncode : Obligations.DecodeOfEncode := decode_encode

/-- Settles O2: a word is the word of the command it decodes to, and that command, being what its operand words make of it, carries each
of them or stays the same under another. -/
theorem encodeOfDecode : Obligations.EncodeOfDecode := by
  intro c i h
  obtain ⟨hw, hi⟩ := (decode_eq_ok_iff c i).mp h
  refine ⟨hw, ?_, ?_⟩
  · have ha := operandA_withOperands i c.a c.b
    rw [hi] at ha
    exact ha.imp_right fun same a => (decode_eq_ok_iff _ i).mpr ⟨hw, same a⟩
  · have hb := operandB_withOperands i c.a c.b
    rw [hi] at hb
    exact hb.imp_right fun same b => (decode_eq_ok_iff _ i).mpr ⟨hw, same b⟩

/-- Settles O3: five of the rows are the words that their commands encode to; of the two ILLEGAL words, the first does not match the row
of its opcode and the second has an opcode without a row. -/
theorem workedEncodingsDecode : Obligations.WorkedEncodingsDecode := by
  refine ⟨decode_of_encode_eq (by decide), decode_of_encode_eq (by decide), decode_of_encode_eq (by decide),
    decode_of_encode_eq (by decide), decode_of_encode_eq (by decide), fun a b => ?_, fun a b => ?_⟩
  · have hop : opField 0x40010000#32 = 0x10#6 := by decide
    simp only [decode, hop, BitVec.reduceToNat]
    exact (decodeRow_of_ne _ (by decide)).trans (by rw [hop])
  · have hop : opField 0x50000000#32 = 0x14#6 := by decide
    simp only [decode, hop, BitVec.reduceToNat]

end Sys2Proof.Machine

/-! ## Proofs: the interrupt lines (41_interrupt_line_set.md) -/

namespace Sys2Proof.Machine

/-! ### The line commands, case by case

One equation for each case of R101 to R106. The conditions on the source bit, the count and the signal tick are those of the rules. -/

section Lines

variable {s : State} {d : DomId} {x : Idx}

theorem exec_setIrq {on : Bool} {t : Word64} (hd : d.toNat < s.cfg.nDom) (hx : x.toNat < s.cfg.nSrc) (ht : t.toNat < 2 ^ s.cfg.tickW) :
    exec (.setIrq d x on t) s = .next (if on then setIrqOn s d x t.toNat else setIrqOff s d x) :=
  inRange_pos (by simp [hd, hx, ht]) s _

theorem exec_setNmi {on : Bool} {t : Word64} (hd : d.toNat < s.cfg.nDom) (hx : x.toNat < s.cfg.nSrc) (ht : t.toNat < 2 ^ s.cfg.tickW) :
    exec (.setNmi d x on t) s = .next (if on then setNmiOn s d x t.toNat else setNmiOff s d x t.toNat) :=
  inRange_pos (by simp [hd, hx, ht]) s _

/-- R102: `irq_clk` is recorded at every rise, or at the first one only. -/
theorem recordsIrq_iff (c : Config) (D : Domain) : recordsIrq c D = true ↔ c.irqClkPolicy = .everyRise ∨ D.nirq = 0 := by
  unfold recordsIrq
  cases c.irqClkPolicy <;> simp

/-- R105: an edge needs a released line and no edge pending. -/
theorem newNmiEdge_iff (D : Domain) : newNmiEdge D = true ↔ D.nnmi = 0 ∧ D.pend.getLsbD 0 = false := by
  simp [newNmiEdge, isPending, Kind.bit]

variable {t : Nat}

theorem setIrqOn_of_asserted (hb : irqBit ((s.dom d).srcAt x) = true) : setIrqOn s d x t = done s := by
  simp [setIrqOn, hb]

theorem setIrqOn_of_recorded (hb : irqBit ((s.dom d).srcAt x) = false) (hr : recordsIrq s.cfg (s.dom d) = true)
    (ht : sigTick (s.dom d) t ≤ s.cfg.clkMax) :
    setIrqOn s d x t = done (s.setDom d { assertIrq (s.dom d) x with irqClk := sigTick (s.dom d) t }) := by
  simp [setIrqOn, hb, hr, chk_of_le _ _ ht]

theorem setIrqOn_of_overflow (hb : irqBit ((s.dom d).srcAt x) = false) (hr : recordsIrq s.cfg (s.dom d) = true)
    (ht : s.cfg.clkMax < sigTick (s.dom d) t) : setIrqOn s d x t = faultTick s d := by
  simp [setIrqOn, hb, hr, (chk_eq_none _ _).mpr ht]

theorem setIrqOn_of_held (hb : irqBit ((s.dom d).srcAt x) = false) (hr : recordsIrq s.cfg (s.dom d) = false) :
    setIrqOn s d x t = done (s.setDom d (assertIrq (s.dom d) x)) := by
  simp [setIrqOn, hb, hr]

theorem setIrqOff_of_released (hb : irqBit ((s.dom d).srcAt x) = false) : setIrqOff s d x = done s := by
  simp [setIrqOff, hb]

theorem setIrqOff_of_counted (hb : irqBit ((s.dom d).srcAt x) = true) (hn : (s.dom d).nirq ≠ 0) :
    setIrqOff s d x = done (s.setDom d { (s.dom d).setSrc x (withIrqBit ((s.dom d).srcAt x) false) with
      nirq := (s.dom d).nirq - 1
      pend := if (s.dom d).nirq - 1 = 0 then lower (s.dom d).pend .irq else (s.dom d).pend }) := by
  simp [setIrqOff, hb, hn]

theorem setIrqOff_of_zero (hb : irqBit ((s.dom d).srcAt x) = true) (hn : (s.dom d).nirq = 0) :
    setIrqOff s d x = (s.setDom d { (s.dom d).setSrc x (withIrqBit ((s.dom d).srcAt x) false) with
      pend := lower (s.dom d).pend .irq, cerr := true }).showing
        { status := .consistency, r0 := 0#64, r1 := 0#64, fire := none, snap := none } := by
  simp [setIrqOff, hb, hn, reportConsistency_setDom]

theorem setNmiOn_of_asserted (hb : nmiBit ((s.dom d).srcAt x) = true) : setNmiOn s d x t = done s := by
  simp [setNmiOn, hb]

theorem setNmiOn_of_edge (hb : nmiBit ((s.dom d).srcAt x) = false) (he : newNmiEdge (s.dom d) = true)
    (ht : sigTick (s.dom d) t ≤ s.cfg.clkMax) :
    setNmiOn s d x t = done (s.setDom d { assertNmi (s.dom d) x with
      nmiClk := sigTick (s.dom d) t, pend := raise (s.dom d).pend .nmi }) := by
  simp [setNmiOn, hb, he, chk_of_le _ _ ht]

theorem setNmiOn_of_overflow (hb : nmiBit ((s.dom d).srcAt x) = false) (he : newNmiEdge (s.dom d) = true)
    (ht : s.cfg.clkMax < sigTick (s.dom d) t) : setNmiOn s d x t = faultTick s d := by
  simp [setNmiOn, hb, he, (chk_eq_none _ _).mpr ht]

theorem setNmiOn_of_no_edge (hb : nmiBit ((s.dom d).srcAt x) = false) (he : newNmiEdge (s.dom d) = false) :
    setNmiOn s d x t = done (s.setDom d (assertNmi (s.dom d) x)) := by
  simp [setNmiOn, hb, he]

theorem setNmiOff_of_released (hb : nmiBit ((s.dom d).srcAt x) = false) : setNmiOff s d x t = done s := by
  simp [setNmiOff, hb]

theorem setNmiOff_of_counted (hb : nmiBit ((s.dom d).srcAt x) = true) (hn : (s.dom d).nnmi ≠ 0) :
    setNmiOff s d x t = done (s.setDom d { (s.dom d).setSrc x (withNmiBit ((s.dom d).srcAt x) false) with
      nnmi := (s.dom d).nnmi - 1, pend := pendAfterRelease (s.dom d) ((s.dom d).nnmi - 1) t }) := by
  simp [setNmiOff, hb, hn]

theorem setNmiOff_of_zero (hb : nmiBit ((s.dom d).srcAt x) = true) (hn : (s.dom d).nnmi = 0) :
    setNmiOff s d x t = (s.setDom d { (s.dom d).setSrc x (withNmiBit ((s.dom d).srcAt x) false) with
      pend := pendAfterRelease (s.dom d) 0 t, cerr := true }).showing
        { status := .consistency, r0 := 0#64, r1 := 0#64, fire := none, snap := none } := by
  simp [setNmiOff, hb, hn, reportConsistency_setDom]

end Lines

/-- R106, with the bits of the pending word written out. -/
theorem pendAfterRelease_eq (D : Domain) (n t : Nat) : pendAfterRelease D n t =
    if n = 0 ∧ D.pend.getLsbD 0 = true ∧ t = D.nmiClk then D.pend &&& 0xFE#8 else D.pend := rfl

/-- R106: a release leaves the pending word as it was, or it is the last one, in the edge's own tick, and withdraws the edge. -/
theorem pendAfterRelease_cases (D : Domain) (n t : Nat) : pendAfterRelease D n t = D.pend
    ∨ (n = 0 ∧ t = D.nmiClk ∧ pendAfterRelease D n t = lower D.pend .nmi) := by
  unfold pendAfterRelease
  split
  case isTrue h =>
    obtain ⟨hn, -, ht⟩ := h
    exact .inr ⟨hn, ht, rfl⟩
  case isFalse => exact .inl rfl

/-! ### What a command can do to the NMI edge -/

/-- What a command can do to the NMI edge of domain `d`, which has the state `D` before it and `E` after it: keep the pending bit, or
clear or set it as R105, R106 and R114 say. -/
inductive NmiOutcome (d : DomId) (D E : Domain) : Instr → Prop where
  | kept (i : Instr) (h : isPending E.pend .nmi = isPending D.pend .nmi) : NmiOutcome d D E i
  | acknowledged (h : isPending E.pend .nmi = false) : NmiOutcome d D E (.ackNmi d)
  | withdrawn (x : Idx) (u : Word64) (h : isPending E.pend .nmi = false) (hu : u.toNat = D.nmiClk) (hn : E.nnmi = 0) :
      NmiOutcome d D E (.setNmi d x false u)
  | edge (x : Idx) (u : Word64) (h : isPending E.pend .nmi = true) (hD : D.nnmi = 0) (hE : E.nnmi = 1) :
      NmiOutcome d D E (.setNmi d x true u)

section NmiOutcomes

variable {s t : State} {i : Instr} {d : DomId} {x : Idx} {u : Word64} {E : Domain} {r : Response}

/-- Of a command that writes one domain, only that write matters. -/
theorem nmiOutcome_setDom (h : NmiOutcome d (s.dom d) E i) : NmiOutcome d (s.dom d) (((s.setDom d E).showing r).dom d) i := by
  rwa [dom_showing, State.dom_setDom_self]

theorem nmiOutcome_raiseKind {k : Kind} (hk : .nmi ≠ k) : NmiOutcome d (s.dom d) (((raiseKind s d k).showing r).dom d) i :=
  nmiOutcome_setDom (.kept i (isPending_raise_ne _ _ _ hk))

theorem nmiOutcome_lowerKind {k : Kind} (hk : .nmi ≠ k) : NmiOutcome d (s.dom d) (((lowerKind s d k).showing r).dom d) i :=
  nmiOutcome_setDom (.kept i (isPending_lower_ne _ _ _ hk))

theorem nmiOutcome_faultTick : NmiOutcome d (s.dom d) ((faultTick s d).dom d) i := nmiOutcome_setDom (.kept i rfl)

/-- A command that answers RANGE changes nothing, so only its own rule matters. -/
theorem nmiOutcome_inRange {ok : Bool} {own : State} (h : inRange ok s own = .next t)
    (ho : NmiOutcome d (s.dom d) (own.dom d) i) : NmiOutcome d (s.dom d) (t.dom d) i := by
  rcases (inRange_eq_next ok s own t).mp h with ⟨-, rfl⟩ | ⟨-, rfl⟩
  · exact ho
  · exact .kept i rfl

theorem nmiOutcome_setIrqOn : NmiOutcome d (s.dom d) ((setIrqOn s d x u.toNat).dom d) i := by
  have hkept : isPending (raise (s.dom d).pend .irq) .nmi = isPending (s.dom d).pend .nmi := isPending_raise_ne _ _ _ (by decide)
  cases hb : irqBit ((s.dom d).srcAt x)
  case true => rw [setIrqOn_of_asserted hb]; exact .kept i rfl
  case false =>
    cases hr : recordsIrq s.cfg (s.dom d)
    case false => rw [setIrqOn_of_held hb hr]; exact nmiOutcome_setDom (.kept i hkept)
    case true =>
      rcases Nat.lt_or_ge s.cfg.clkMax (sigTick (s.dom d) u.toNat) with ht | ht
      · rw [setIrqOn_of_overflow hb hr ht]; exact nmiOutcome_faultTick
      · rw [setIrqOn_of_recorded hb hr ht]; exact nmiOutcome_setDom (.kept i hkept)

theorem nmiOutcome_setIrqOff : NmiOutcome d (s.dom d) ((setIrqOff s d x).dom d) i := by
  have hkept : isPending (lower (s.dom d).pend .irq) .nmi = isPending (s.dom d).pend .nmi := isPending_lower_ne _ _ _ (by decide)
  cases hb : irqBit ((s.dom d).srcAt x)
  case false => rw [setIrqOff_of_released hb]; exact .kept i rfl
  case true =>
    by_cases hn : (s.dom d).nirq = 0
    · rw [setIrqOff_of_zero hb hn]; exact nmiOutcome_setDom (.kept i hkept)
    · rw [setIrqOff_of_counted hb hn]
      refine nmiOutcome_setDom (.kept i ?_)
      dsimp only
      split
      case isTrue => exact hkept
      case isFalse => rfl

theorem nmiOutcome_setNmiOn : NmiOutcome d (s.dom d) ((setNmiOn s d x u.toNat).dom d) (.setNmi d x true u) := by
  cases hb : nmiBit ((s.dom d).srcAt x)
  case true => rw [setNmiOn_of_asserted hb]; exact .kept _ rfl
  case false =>
    cases he : newNmiEdge (s.dom d)
    case false => rw [setNmiOn_of_no_edge hb he]; exact nmiOutcome_setDom (.kept _ rfl)
    case true =>
      have hn : (s.dom d).nnmi = 0 := ((newNmiEdge_iff _).mp he).1
      rcases Nat.lt_or_ge s.cfg.clkMax (sigTick (s.dom d) u.toNat) with ht | ht
      · rw [setNmiOn_of_overflow hb he ht]; exact nmiOutcome_faultTick
      · rw [setNmiOn_of_edge hb he ht]
        exact nmiOutcome_setDom (.edge x u (isPending_raise_self _ _) hn (congrArg (· + 1) hn))

/-- A release that leaves `n` sources asserting NMI. -/
theorem nmiOutcome_release {D : Domain} {n : Nat} (hp : E.pend = pendAfterRelease D n u.toNat) (hn : E.nnmi = n) :
    NmiOutcome d D E (.setNmi d x false u) := by
  rcases pendAfterRelease_cases D n u.toNat with hkept | ⟨rfl, hu, hlow⟩
  · exact .kept _ (by rw [hp, hkept])
  · exact .withdrawn x u (by rw [hp, hlow, isPending_lower_self]) hu hn

theorem nmiOutcome_setNmiOff : NmiOutcome d (s.dom d) ((setNmiOff s d x u.toNat).dom d) (.setNmi d x false u) := by
  cases hb : nmiBit ((s.dom d).srcAt x)
  case false => rw [setNmiOff_of_released hb]; exact .kept _ rfl
  case true =>
    by_cases hn : (s.dom d).nnmi = 0
    · rw [setNmiOff_of_zero hb hn]; exact nmiOutcome_setDom (nmiOutcome_release rfl hn)
    · rw [setNmiOff_of_counted hb hn]; exact nmiOutcome_setDom (nmiOutcome_release rfl rfl)

theorem nmiOutcome_stealCycles {start count : Nat} : NmiOutcome d (s.dom d) ((stealCycles s d start count).dom d) i := by
  unfold stealCycles
  split
  case isTrue => exact .kept i rfl
  case isFalse =>
    split
    case h_1 => exact nmiOutcome_faultTick
    case h_2 E hE =>
      obtain ⟨_, _, _, _, rfl, -⟩ := stealWrites_eq_some hE
      exact nmiOutcome_setDom (.kept i rfl)

theorem nmiOutcome_serveNext : NmiOutcome d (s.dom d) ((serveNext s d).dom d) i := by
  dsimp only [serveNext]
  split
  case isTrue => exact nmiOutcome_setDom (.kept i rfl)
  case isFalse =>
    split
    case isTrue => exact .kept i rfl
    case isFalse => exact .kept i rfl

/-- The alarm table is apart from the pending word. -/
theorem rescan_pend (c : Config) (D : Domain) : (rescan c D).pend = D.pend := by rw [rescan_frame]

theorem scheduleAlarm_pend (c : Config) (D : Domain) (h : Idx) (v : Nat) : (scheduleAlarm c D h v).pend = D.pend := by
  unfold scheduleAlarm
  split
  case isTrue => rfl
  case isFalse =>
    split
    case isTrue => exact rescan_pend c _
    case isFalse => rfl

theorem cancelAlarm_pend (c : Config) (D : Domain) (h : Idx) : (cancelAlarm c D h).pend = D.pend := by
  unfold cancelAlarm
  split
  case isTrue => exact rescan_pend c _
  case isFalse => rfl

/-- The one case analysis of the NMI edge law: what each command does to the edge of the domain it names. -/
theorem nmiOutcome_of_exec (h : exec i s = .next t) (ht : i.target = .domain d) : NmiOutcome d (s.dom d) (t.dom d) i := by
  cases i with
  | nop | snapSave | snapLoad | bridgeSetRatio | bridgeAdvance | bridgeLookup | bridgeRead => cases ht
  | checkPending | readCounts | readSigclk | readSrc | checkIrqDelay | checkNmiDelay | readSteal | alarmNextDue | alarmRead
  | clkRead => exact nmiOutcome_inRange h (.kept _ rfl)
  | triggerReset | triggerMonitor | triggerDma => cases ht; exact nmiOutcome_inRange h (nmiOutcome_raiseKind (by decide))
  | ackReset | ackTrap | ackMonitor | ackDma => cases ht; exact nmiOutcome_inRange h (nmiOutcome_lowerKind (by decide))
  | triggerTrap => cases ht; exact nmiOutcome_inRange h (nmiOutcome_setDom (.kept _ (isPending_raise_ne _ _ _ (by decide))))
  | ackNmi => cases ht; exact nmiOutcome_inRange h (nmiOutcome_setDom (.acknowledged (isPending_lower_self _ _)))
  | setIrq _ x on u =>
    cases ht
    refine nmiOutcome_inRange h ?_
    cases on
    case false => exact nmiOutcome_setIrqOff
    case true => exact nmiOutcome_setIrqOn
  | setNmi _ x on u =>
    cases ht
    refine nmiOutcome_inRange h ?_
    cases on
    case false => exact nmiOutcome_setNmiOff
    case true => exact nmiOutcome_setNmiOn
  | steal => cases ht; exact nmiOutcome_inRange h nmiOutcome_stealCycles
  | alarmSchedule =>
    cases ht
    exact nmiOutcome_inRange h (nmiOutcome_setDom (.kept _ (by rw [scheduleAlarm_pend])))
  | alarmCancel =>
    cases ht
    exact nmiOutcome_inRange h (nmiOutcome_setDom (.kept _ (by rw [cancelAlarm_pend])))
  | alarmServeNext => cases ht; exact nmiOutcome_inRange h nmiOutcome_serveNext
  | clkAdvance =>
    cases ht
    refine nmiOutcome_inRange h ?_
    split
    case h_1 => exact nmiOutcome_faultTick
    case h_2 => exact nmiOutcome_setDom (.kept _ rfl)
  | preventOverflow =>
    cases ht
    refine nmiOutcome_inRange h ?_
    split
    case isTrue => exact .kept _ rfl
    case isFalse => exact nmiOutcome_setDom (.kept _ rfl)

/-- A domain is written by the commands that name it and by SNAP_LOAD alone. -/
theorem dom_eq_of_exec (h : exec i s = .next t) (ht : i.target ≠ .domain d) (hl : i ≠ .snapLoad) : t.dom d = s.dom d := by
  cases exec_effect h with
  | unchanged | bridge => rfl
  | domain e E r hte => exact State.dom_setDom_ne s e d E fun hde => ht (hde ▸ hte)
  | load rec r hi => exact absurd hi hl

end NmiOutcomes

/-! ### What a STEAL leaves behind -/

/-- A steal that is accepted ends the window where the steal ends, and leaves the sources and their counts alone. -/
theorem window_of_stealWrites {c : Config} {D E : Domain} {start count : Nat} (h : stealWrites c D start count = some E) :
    stealEnd E = start + count ∧ start + count ≤ c.clkMax ∧ E.src = D.src ∧ E.nirq = D.nirq := by
  unfold stealWrites at h
  split at h
  case h_1 hfin =>
    cases h
    obtain ⟨hfin, -⟩ := (chk_eq_some _ _ _).mp hfin
    exact ⟨mergedSteal_end D start count, mergedSteal_end D start count ▸ hfin, rfl, rfl⟩
  case h_2 => cases h

/-- Under ALWAYS a steal that is accepted shifts the IRQ signal tick (R221). -/
theorem irqClk_of_stealWrites {c : Config} {D E : Domain} {start count : Nat} (h : stealWrites c D start count = some E)
    (hp : c.stealShiftPolicy = .always) : E.irqClk = D.irqClk + count - 1 := by
  unfold stealWrites at h
  split at h
  case h_1 hirq _ _ =>
    cases h
    rw [chkSignal, shiftsSignal, hp, if_pos rfl] at hirq
    exact ((chk_eq_some _ _ _).mp hirq).2.symm
  case h_2 => cases h

section Steals

variable {s t : State} {d : DomId}

theorem stealCycles_of_some {start count : Nat} {E : Domain} (hn : count ≠ 0)
    (hE : stealWrites s.cfg (s.dom d) start count = some E) : stealCycles s d start count = done (s.setDom d E) := by
  rw [stealCycles, if_neg hn, hE]

theorem stealCycles_of_none {start count : Nat} (hn : count ≠ 0) (hE : stealWrites s.cfg (s.dom d) start count = none) :
    stealCycles s d start count = faultTick s d := by
  rw [stealCycles, if_neg hn, hE]

/-- A steal of some ticks that ends with OK was in range, and its writes were accepted. -/
theorem stealWrites_of_ok {start count : Word64} {r : Response} (h : exec (.steal d start count) s = .next t)
    (hr : t.resp = some r) (hok : r.status = .ok) (hn : 1 ≤ count.toNat) : d.toNat < s.cfg.nDom
      ∧ ∃ E, stealWrites s.cfg (s.dom d) start.toNat count.toNat = some E ∧ t = (s.setDom d E).showing (okResponse 0#64 0#64) := by
  have hn : count.toNat ≠ 0 := Nat.ne_of_gt hn
  rcases (inRange_eq_next _ s _ t).mp h with ⟨hrange, rfl⟩ | ⟨-, rfl⟩
  · simp only [Bool.and_eq_true, domainOk_iff] at hrange
    obtain ⟨⟨hd, -⟩, -⟩ := hrange
    cases hE : stealWrites s.cfg (s.dom d) start.toNat count.toNat with
    | some E => exact ⟨hd, E, rfl, stealCycles_of_some hn hE⟩
    | none =>
      rw [operandNat_eq, operandNat_eq, stealCycles_of_none hn hE] at hr
      cases hr
      cases hok
  · cases hr
    cases hok

end Steals

/-! ### Queries -/

theorem verdict_decide (p : Prop) [Decidable p] : verdict (decide p) = if p then 1#64 else 0#64 := by
  by_cases hp : p <;> simp [verdict, hp]

/-- R112, R113: the delay runs out at the signal tick plus the delay, plus 1 with BR. -/
theorem verdict_delayElapsed (c : Config) (sig : Nat) (br : Bool) (t : Nat) : verdict (delayElapsed c sig br t) =
    if sig + c.detectDelay + (if br then 1 else 0) ≤ t then 1#64 else 0#64 :=
  verdict_decide _

section Queries

variable {s : State} {d : DomId} {br : Bool} {t : Word64}

theorem exec_checkIrqDelay {ie : Bool} (hd : d.toNat < s.cfg.nDom) (ht : t.toNat < 2 ^ s.cfg.tickW) :
    exec (.checkIrqDelay d br ie t) s =
      .next (s.showing (okResponse (verdict (!ie && delayElapsed s.cfg (s.dom d).irqClk br t.toNat)) 0#64)) :=
  inRange_pos (by simp [hd, ht]) s _

theorem exec_checkNmiDelay (hd : d.toNat < s.cfg.nDom) (ht : t.toNat < 2 ^ s.cfg.tickW) :
    exec (.checkNmiDelay d br t) s = .next (s.showing (okResponse (verdict (delayElapsed s.cfg (s.dom d).nmiClk br t.toNat)) 0#64)) :=
  inRange_pos (by simp [hd, ht]) s _

/-- Without IE the verdict compares `t` with the signal tick and the delay. -/
theorem exec_checkIrqDelay_verdict (hd : d.toNat < s.cfg.nDom) (ht : t.toNat < 2 ^ s.cfg.tickW) :
    exec (.checkIrqDelay d br false t) s = .next (s.showing (okResponse
      (if (s.dom d).irqClk + s.cfg.detectDelay + (if br then 1 else 0) ≤ t.toNat then 1#64 else 0#64) 0#64)) := by
  rw [exec_checkIrqDelay hd ht, Bool.not_false, Bool.true_and, verdict_delayElapsed]

end Queries

theorem srcAt_of_getElem? {D : Domain} {x : Idx} {v : BitVec 2} (h : D.src[x.toNat]? = some v) : D.srcAt x = v := by
  rw [Domain.srcAt, List.getD_eq_getElem?_getD, h, Option.getD_some]

theorem dueAt_of_getElem? {c : Config} {D : Domain} {x : Idx} {u : Nat} (h : D.due[x.toNat]? = some u) : D.dueAt c x = u := by
  rw [Domain.dueAt, List.getD_eq_getElem?_getD, h, Option.getD_some]

/-! ### The obligations -/

/-- Settles O21: R102 records the tick, or `chk` faults, or the line is held; the conditions are those of `recordsIrq` and `chk`.
The statement writes `assertIrq` and `sigTick` out. -/
theorem setIrqAssertion : Obligations.SetIrqAssertion := by
  intro s d x t hd hx ht hb
  have hexec := exec_setIrq (on := true) hd hx ht
  refine ⟨fun hr hv => ?_, fun hr hv => ?_, fun hp hn => ?_⟩
  · exact hexec.trans (congrArg _ (setIrqOn_of_recorded hb ((recordsIrq_iff _ _).mpr hr) hv))
  · exact hexec.trans (congrArg _ (setIrqOn_of_overflow hb ((recordsIrq_iff _ _).mpr hr) hv))
  · have hr : recordsIrq s.cfg (s.dom d) = false := by
      rw [Bool.eq_false_iff, ne_eq, recordsIrq_iff, hp]
      simp [hn]
    exact hexec.trans (congrArg _ (setIrqOn_of_held hb hr))

/-- Settles O23: the clamps of R103; in a reachable state the counts are the popcounts, so an asserting source is counted. -/
theorem negativeCountClamped : Obligations.NegativeCountClamped := by
  refine ⟨fun s d x t hd hx ht => ⟨fun hb hn => ?_, fun hb hn => ?_⟩, fun s d x hs hd _ => ?_⟩
  · exact (exec_setIrq hd hx ht).trans (congrArg _ (setIrqOff_of_zero hb hn))
  · refine (exec_setNmi hd hx ht).trans (congrArg _ ((setNmiOff_of_zero hb hn).trans ?_))
    rw [pendAfterRelease_eq]
    simp only [true_and]
    rfl
  · obtain ⟨-, hdom, -⟩ := inv_of_reachable hs
    obtain ⟨⟨hnirq, hnnmi⟩, -⟩ := hdom d hd
    exact ⟨fun hb => hnirq ▸ (countIrq_pos _ x hb).ne', fun hb => hnnmi ▸ (countNmi_pos _ x hb).ne'⟩

/-- Settles O24: an edge is recorded, or `chk` faults, or R105 makes none; the conditions are those of `newNmiEdge` and `chk`.
The statement writes `assertNmi` and `sigTick` out. -/
theorem setNmiAssertion : Obligations.SetNmiAssertion := by
  intro s d x t hd hx ht hb
  have hexec := exec_setNmi (on := true) hd hx ht
  refine ⟨fun hn hp hv => ?_, fun hn hp hv => ?_, fun hheld => ?_⟩
  · exact hexec.trans (congrArg _ (setNmiOn_of_edge hb ((newNmiEdge_iff _).mpr ⟨hn, hp⟩) hv))
  · exact hexec.trans (congrArg _ (setNmiOn_of_overflow hb ((newNmiEdge_iff _).mpr ⟨hn, hp⟩) hv))
  · have he : newNmiEdge (s.dom d) = false := by
      rw [Bool.eq_false_iff, ne_eq, newNmiEdge_iff, not_and_or, Bool.not_eq_false]
      exact hheld
    exact hexec.trans (congrArg _ (setNmiOn_of_no_edge hb he))

/-- Settles O26: a command that does not name the domain and loads no record leaves its bit; of one that does, `NmiOutcome` says which
changes of the bit there are. -/
theorem nmiEdgeLaw : Obligations.NmiEdgeLaw := by
  intro i s t d h
  by_cases hl : i = .snapLoad
  · exact ⟨fun _ _ => .inr (.inl hl), fun _ _ => .inl hl⟩
  have hout : NmiOutcome d (s.dom d) (t.dom d) i := by
    by_cases ht : i.target = .domain d
    · exact nmiOutcome_of_exec h ht
    · exact .kept i (by rw [dom_eq_of_exec h ht hl])
  cases hout with
  | kept _ hsame =>
    exact ⟨fun hset hclear => absurd (hclear.symm.trans (hsame.trans hset)) nofun,
      fun hclear hset => absurd (hset.symm.trans (hsame.trans hclear)) nofun⟩
  | acknowledged hclear => exact ⟨fun _ _ => .inl rfl, fun _ hset => absurd (hset.symm.trans hclear) nofun⟩
  | withdrawn x u hclear hu hn =>
    exact ⟨fun _ _ => .inr (.inr ⟨x, u, rfl, hu, hn⟩), fun _ hset => absurd (hset.symm.trans hclear) nofun⟩
  | edge x u hset hD hE =>
    exact ⟨fun _ hclear => absurd (hset.symm.trans hclear) nofun, fun _ _ => .inr ⟨x, u, rfl, hD, hE⟩⟩

/-- Settles O35: the accepted steal leaves the shifted signal tick, which the verdict reads, and the end of its window, to whose last
tick `sigTick` moves a rise. -/
theorem stolenCyclesDelayDispatch : Obligations.StolenCyclesDelayDispatch := by
  intro s t d start count r h hr hok hn
  obtain ⟨hd, E, hE, ht⟩ := stealWrites_of_ok h hr hok hn
  obtain ⟨hend, hmax, hsrc, hnirq⟩ := window_of_stealWrites hE
  have hdom : t.dom d = E := by rw [ht, dom_showing, State.dom_setDom_self]
  have hcfg : t.cfg = s.cfg := by rw [ht, showing_cfg, State.setDom_cfg]
  rw [← hcfg] at hd hmax ⊢
  refine ⟨fun hp br u hu => ?_, fun hrec x u hx hu hb hlt => ?_⟩
  · have hirq : (t.dom d).irqClk = (s.dom d).irqClk + (count.toNat - 1) := by
      rw [hdom, irqClk_of_stealWrites hE (hcfg ▸ hp)]
      omega
    rw [← hirq]
    exact exec_checkIrqDelay_verdict hd hu
  · have hsig : sigTick (t.dom d) u.toNat = start.toNat + count.toNat - 1 := by rw [sigTick, hdom, hend, if_pos hlt]
    have hbit : irqBit ((t.dom d).srcAt x) = false := by rwa [hdom, Domain.srcAt, hsrc]
    have hrecords : recordsIrq t.cfg (t.dom d) = true := by rwa [recordsIrq_iff, hdom, hnirq]
    have hfits : sigTick (t.dom d) u.toNat ≤ t.cfg.clkMax := hsig ▸ (Nat.sub_le _ 1).trans hmax
    refine ⟨_, (exec_setIrq (on := true) hd hx hu).trans (congrArg _ (setIrqOn_of_recorded hbit hrecords hfits)), ?_⟩
    rw [done_eq_showing, dom_showing, State.dom_setDom_self]
    exact hsig

/-- Settles O20: R101, for a line that is asserted and one that is released. -/
theorem settingTheSameLevelChangesNothing : Obligations.SettingTheSameLevelChangesNothing := by
  intro s d x on t hd hx ht
  refine ⟨fun hb => (exec_setIrq hd hx ht).trans (congrArg _ ?_), fun hb => (exec_setNmi hd hx ht).trans (congrArg _ ?_)⟩
  · cases on
    case false => exact setIrqOff_of_released hb
    case true => exact setIrqOn_of_asserted hb
  · cases on
    case false => exact setNmiOff_of_released hb
    case true => exact setNmiOn_of_asserted hb

/-- Settles O22: the count before the release is 1 where the count after it is 0. -/
theorem setIrqRelease : Obligations.SetIrqRelease := by
  intro s d x t hd hx ht hb hn
  have hlast : (s.dom d).nirq - 1 = 0 ↔ (s.dom d).nirq = 1 := by omega
  refine (exec_setIrq hd hx ht).trans (congrArg _ ((setIrqOff_of_counted hb hn).trans ?_))
  simp only [hlast]
  rfl

/-- Settles O25: as O22, with R106 in place of the IRQ bit. -/
theorem setNmiRelease : Obligations.SetNmiRelease := by
  intro s d x t hd hx ht hb hn
  have hlast : (s.dom d).nnmi - 1 = 0 ↔ (s.dom d).nnmi = 1 := by omega
  refine (exec_setNmi hd hx ht).trans (congrArg _ ((setNmiOff_of_counted hb hn).trans ?_))
  simp only [pendAfterRelease_eq, hlast]
  rfl

/-- Settles O28: in range each request runs its own rule, and the masks are those of R27. -/
theorem requestsSetTheirBit : Obligations.RequestsSetTheirBit := by
  intro s d hd
  have hok : domainOk s.cfg d = true := (domainOk_iff _ _).mpr hd
  rw [← raise_reset, ← raise_monitor, ← raise_dma]
  exact ⟨inRange_pos hok s _, inRange_pos hok s _, inRange_pos hok s _⟩

/-- Settles O29: in range each acknowledgement runs its own rule, and the masks are those of R27. -/
theorem acknowledgementsClearTheirBit : Obligations.AcknowledgementsClearTheirBit := by
  intro s d hd
  have hok : domainOk s.cfg d = true := (domainOk_iff _ _).mpr hd
  rw [← lower_reset, ← lower_nmi, ← lower_monitor, ← lower_dma]
  exact ⟨inRange_pos hok s _, inRange_pos hok s _, inRange_pos hok s _, inRange_pos hok s _⟩

/-- Settles O30: the token is the low half of an operand below 2^32. -/
theorem trapTokenReturned : Obligations.TrapTokenReturned := by
  intro s d hd
  have hok : domainOk s.cfg d = true := (domainOk_iff _ _).mpr hd
  rw [← raise_trap, ← lower_trap, ← resultBits_eq]
  refine ⟨fun tok htok => ?_, inRange_pos hok s _⟩
  rw [← low32_eq]
  exact inRange_pos (Bool.and_eq_true_iff.mpr ⟨hok, (wordOk_iff tok).mpr htok⟩) s _

/-- Settles O32: with IE the verdict is 0 whatever the delay; otherwise it is that of the delay. -/
theorem delayVerdicts : Obligations.DelayVerdicts := by
  intro s d br t hd ht
  refine ⟨exec_checkIrqDelay (ie := true) hd ht, exec_checkIrqDelay_verdict hd ht, ?_⟩
  rw [exec_checkNmiDelay hd ht, verdict_delayElapsed]

/-- Settles O33: in range each read answers the element that its rule names. -/
theorem stateReadsReturnState : Obligations.StateReadsReturnState := by
  intro s d hd
  have hok : domainOk s.cfg d = true := (domainOk_iff _ _).mpr hd
  refine ⟨inRange_pos hok s _, inRange_pos hok s _, fun x v hx hv => ?source, inRange_pos hok s _, fun x u hx hu => ?due,
    inRange_pos hok s _, fun h1 => ?bridge⟩
  case source =>
    rw [← resultBits_eq, ← srcAt_of_getElem? hv]
    exact inRange_pos (by simp [hok, hx]) s _
  case due =>
    rw [← dueAt_of_getElem? (c := s.cfg) hu]
    exact inRange_pos (by simp [hok, hx]) s _
  case bridge =>
    rw [← resultBits_eq, ← resultBits_eq]
    exact inRange_pos (by simp [h1, hd]) s _

end Sys2Proof.Machine

/-! ## Proofs: the alarm queue (42_alarm_queue.md) -/

namespace Sys2Proof.Machine

/-! ### A rescan -/

/-- MIN_ID is wide enough for the least holder in a table of at most 255 entries. -/
theorem toNat_ofNat_leastHolder {due : List Nat} {m : Nat} (hm : m ∈ due) (hlen : due.length ≤ 255) :
    (BitVec.ofNat 8 (leastHolder due m)).toNat = leastHolder due m := by
  obtain ⟨hlt, -⟩ := leastHolder_spec due m hm
  rw [BitVec.toNat_ofNat]
  exact Nat.mod_eq_of_lt (by omega)

/-! ### Scheduling and cancelling -/

/-- No minimum up to INF is above a tick at INF, so R161 leaves the two cases of R162. -/
theorem scheduleAlarm_inf {c : Config} {D : Domain} (h : Idx) (hmin : D.minTick ≤ c.inf) :
    scheduleAlarm c D h c.inf = cancelAlarm c D h := by
  unfold scheduleAlarm
  rw [if_neg (Nat.not_lt.mpr hmin)]
  rfl

section Queue

variable {s : State} {d : DomId} {h : Idx}

theorem exec_alarmSchedule {t : Word64} (hd : d.toNat < s.cfg.nDom) (hh : h.toNat < s.cfg.nAlarm) (ht : t.toNat < 2 ^ s.cfg.tickW) :
    exec (.alarmSchedule d h t) s =
      .next ((s.setDom d (scheduleAlarm s.cfg (s.dom d) h t.toNat)).showing (okResponse 0#64 0#64)) :=
  inRange_pos (by simp [hd, hh, ht]) s _

theorem exec_alarmCancel (hd : d.toNat < s.cfg.nDom) (hh : h.toNat < s.cfg.nAlarm) :
    exec (.alarmCancel d h) s = .next ((s.setDom d (cancelAlarm s.cfg (s.dom d) h)).showing (okResponse 0#64 0#64)) :=
  inRange_pos (by simp [hd, hh]) s _

/-! ### The head of the queue -/

theorem exec_alarmNextDue (hd : d.toNat < s.cfg.nDom) : exec (.alarmNextDue d) s =
    .next (s.showing (okResponse (BitVec.ofNat 64 (s.dom d).minTick) (BitVec.ofNat 64 (s.dom d).minId.toNat))) := by
  rw [← resultBits_eq]
  exact inRange_pos ((domainOk_iff _ _).mpr hd) s _

theorem exec_alarmServeNext (hd : d.toNat < s.cfg.nDom) : exec (.alarmServeNext d) s = .next (serveNext s d) :=
  inRange_pos ((domainOk_iff _ _).mpr hd) s _

theorem serveNext_of_empty (hid : (s.dom d).minId = noHandler) :
    serveNext s d = reportConsistency s d (resultBits noHandler) 0#64 := by
  simp [serveNext, hid]

theorem serveNext_of_early (hid : (s.dom d).minId ≠ noHandler) (ht : (s.dom d).clk < (s.dom d).minTick) :
    serveNext s d = reject s .notDue := by
  simp [serveNext, hid, ht]

theorem serveNext_of_due (hid : (s.dom d).minId ≠ noHandler) (ht : (s.dom d).minTick ≤ (s.dom d).clk) :
    serveNext s d = s.showing
      { status := .ok, r0 := resultBits (s.dom d).minId, r1 := resultNat ((s.dom d).clk - (s.dom d).minTick)
        fire := some ⟨d, (s.dom d).minId, resultNat ((s.dom d).clk - (s.dom d).minTick)⟩, snap := none } := by
  simp [serveNext, hid, Nat.not_lt.mpr ht, endWith_eq_showing]

end Queue

/-- R41: in a consistent queue no due tick is below the tracked minimum, whether or not anything is scheduled. -/
theorem minTracked_le {c : Config} {D : Domain} (h : MinTracked c D) : ∀ t ∈ D.due, D.minTick ≤ t := by
  rcases h with ⟨-, hmin, hall⟩ | ⟨-, -, -, hle⟩
  · exact fun t ht => Nat.le_of_eq (hmin.trans (hall t ht).symm)
  · exact hle

theorem minTracked_of_inv {s : State} {d : DomId} (hs : Inv s) (hd : d.toNat < s.cfg.nDom) : MinTracked s.cfg (s.dom d) := by
  obtain ⟨-, hdom, -⟩ := hs
  obtain ⟨-, -, -, -, -, hmin⟩ := hdom d hd
  exact hmin

/-! ### The obligations -/

/-- Settles O36: a table with entries has a least one, and `leastHolder_spec` says which handler is recorded for it. -/
theorem rescanFindsLeast : Obligations.RescanFindsLeast := by
  intro c D hne hlen
  obtain ⟨m, hmin, hmem, hle⟩ := exists_least D.due hne
  refine ⟨rescan_frame c D, m, hmem, hle, fun hinf => ?cancelled, fun hlive => ?scheduled⟩
  case cancelled =>
    rw [rescan_of_min c D m hmin, if_pos hinf]
    exact ⟨rfl, rfl⟩
  case scheduled =>
    obtain ⟨-, hheld, hfirst⟩ := leastHolder_spec D.due m hmem
    rw [rescan_of_min c D m hmin, if_neg hlive]
    dsimp only
    rw [toNat_ofNat_leastHolder hmem hlen]
    exact ⟨rfl, hheld, hfirst⟩

/-- Settles O38: INF is a tick of TICK_W bits, and both commands write the same queue. -/
theorem scheduleAtInfCancels : Obligations.ScheduleAtInfCancels := by
  intro s d h t hd hh hmin ht
  have hcancel := exec_alarmCancel hd hh
  have hfits : t.toNat < 2 ^ s.cfg.tickW := ht ▸ Nat.sub_one_lt_of_lt (Nat.two_pow_pos s.cfg.tickW)
  refine ⟨⟨_, hcancel⟩, ?_⟩
  rw [exec_alarmSchedule hd hh hfits, hcancel, ht, scheduleAlarm_inf h hmin]

/-- Settles O39: the invariant tracks the minimum, whether some entry is scheduled or none is. -/
theorem nextDueIsTrueMinimum : Obligations.NextDueIsTrueMinimum := by
  intro s d hd
  refine ⟨exec_alarmNextDue hd, fun hs h u hu => ?_, fun hs => minTracked_empty (minTracked_of_inv hs hd)⟩
  have htracked := minTracked_of_inv hs hd
  have hmem := List.mem_of_getElem? hu
  refine ⟨minTracked_le htracked u hmem, fun hlive => ?_⟩
  obtain ⟨-, hheld⟩ := minTracked_scheduled htracked ⟨u, hmem, hlive⟩
  exact hheld

/-- Settles O37: in range each command runs its own rule; the statement writes `scheduleAlarm` and `cancelAlarm` out. -/
theorem scheduleAndCancel : Obligations.ScheduleAndCancel := by
  intro s d h hd hh
  exact ⟨fun t ht => exec_alarmSchedule hd hh ht, exec_alarmCancel hd hh⟩

/-- Settles O40: the three cases of R164; a FIRE changes the response port alone, which no command reads, so it is answered again. -/
theorem serveNextFiresTheHead : Obligations.ServeNextFiresTheHead := by
  intro s d hd D off t
  refine ⟨fun hid => ?empty, fun hid ht => ?early, fun hid ht => ?due⟩
  case empty => rw [exec_alarmServeNext hd, serveNext_of_empty hid]; rfl
  case early => rw [exec_alarmServeNext hd, serveNext_of_early hid ht, reject_eq_showing]
  case due =>
    have hfire : exec (.alarmServeNext d) s = .next t := by
      rw [exec_alarmServeNext hd, serveNext_of_due hid ht, resultBits_eq]
      rfl
    exact ⟨hfire, (exec_showing _ s _).trans hfire⟩

end Sys2Proof.Machine

/-! ## Proofs: the clock domain bridge (43_clock_domain_bridge.md) -/

namespace Sys2Proof.Machine

/-! ### Setting the ratio -/

theorem toNat_low32 {a : Word64} (ha : a.toNat < 2 ^ 32) : (low32 a).toNat = a.toNat := by
  rw [low32_eq, BitVec.toNat_ofNat, Nat.mod_eq_of_lt ha]

/-- The ratios that R190 refuses: zero, and the words with the sign bit set. -/
theorem toInt_low32_nonpos_iff {a : Word64} (ha : a.toNat < 2 ^ 32) :
    (low32 a).toInt ≤ 0 ↔ a.toNat = 0 ∨ 2 ^ 31 ≤ a.toNat := by
  rw [BitVec.toInt_eq_toNat_cond, toNat_low32 ha]
  split <;> omega

theorem exec_bridgeSetRatio {s : State} {b : DomId} {a : Word64} (h1 : 1 ≤ b.toNat) (hb : b.toNat < s.cfg.nDom)
    (ha : a.toNat < 2 ^ 32) : exec (.bridgeSetRatio b a) s = .next
      (if (low32 a).toInt ≤ 0 then s.showing (rejectResponse .configRejected)
       else (s.setBridge b { s.bridge b with
              ratioValid := true, ratio := low32 a, tbl := buildTable s.cfg.maxBatch (low32 a) }).showing (okResponse 0#64 0#64)) :=
  inRange_pos (Bool.and_eq_true_iff.mpr ⟨by simp [h1, hb], (wordOk_iff a).mpr ha⟩) s _

/-! ### The closed form of R192 -/

/-- `n * r + c0`: the number that R192 divides by 65536. -/
def Bridge.dividend (B : Bridge) (n : Nat) : Nat := n * B.ratio.toNat + B.carry.toNat

/-- The bridge after `n` ticks: R192 leaves the remainder as the carry. -/
def Bridge.afterTicks (B : Bridge) (n : Nat) : Bridge := { B with carry := BitVec.ofNat 16 (B.dividend n % 65536) }

@[simp] theorem Bridge.afterTicks_ratio (B : Bridge) (n : Nat) : (B.afterTicks n).ratio = B.ratio := rfl

theorem Bridge.afterTicks_carry_toNat (B : Bridge) (n : Nat) : (B.afterTicks n).carry.toNat = B.dividend n % 65536 := by
  simp [Bridge.afterTicks]

theorem Bridge.dividend_zero (B : Bridge) : B.dividend 0 = B.carry.toNat := by simp [Bridge.dividend]

@[simp] theorem Bridge.dividend_zero_div (B : Bridge) : B.dividend 0 / 65536 = 0 := by
  rw [B.dividend_zero, Nat.div_eq_of_lt B.carry.isLt]

@[simp] theorem Bridge.afterTicks_zero (B : Bridge) : B.afterTicks 0 = B := by
  have hcarry : BitVec.ofNat 16 (B.dividend 0 % 65536) = B.carry := by
    rw [B.dividend_zero, Nat.mod_eq_of_lt B.carry.isLt, BitVec.ofNat_toNat, BitVec.setWidth_eq]
  rw [Bridge.afterTicks, hcarry]

theorem Bridge.dividend_afterTicks (B : Bridge) (n m : Nat) :
    (B.afterTicks n).dividend m = m * B.ratio.toNat + B.dividend n % 65536 := by
  rw [Bridge.dividend, B.afterTicks_carry_toNat, B.afterTicks_ratio]

/-- Splitting a count moves the whole driven ticks of the first part into its result and the rest into the carry. -/
theorem Bridge.dividend_add (B : Bridge) (n m : Nat) :
    B.dividend (n + m) = 65536 * (B.dividend n / 65536) + (B.afterTicks n).dividend m := by
  have hsplit : B.dividend (n + m) = B.dividend n + m * B.ratio.toNat := by unfold Bridge.dividend; ring
  have hdiv := Nat.div_add_mod (B.dividend n) 65536
  rw [B.dividend_afterTicks, hsplit]
  omega

theorem Bridge.dividend_add_div (B : Bridge) (n m : Nat) :
    B.dividend (n + m) / 65536 = B.dividend n / 65536 + (B.afterTicks n).dividend m / 65536 := by
  rw [B.dividend_add, Nat.mul_add_div (by decide)]

theorem Bridge.afterTicks_add (B : Bridge) (n m : Nat) : B.afterTicks (n + m) = (B.afterTicks n).afterTicks m := by
  rw [Bridge.afterTicks, B.dividend_add, Nat.mul_add_mod]
  rfl

/-- A count of TICK_W bits, at most 48, and a ratio of 31 bits leave room for the result in 64 bits. -/
theorem dividend_div_lt {c : Config} {B : Bridge} {n : Nat} (hc : configLegal c = true) (hB : BridgeInv c B)
    (hv : B.ratioValid = true) (hn : n < 2 ^ c.tickW) : B.dividend n / 65536 < 2 ^ 64 := by
  obtain ⟨-, hr, -⟩ := hB.2 hv
  obtain ⟨-, hw, -⟩ := configLegal_bounds c hc
  have hn48 : n < 2 ^ 48 := hn.trans_le (Nat.pow_le_pow_right (by decide) hw)
  have hmul : n * B.ratio.toNat ≤ 2 ^ 48 * 2 ^ 31 := Nat.mul_le_mul hn48.le hr.le
  have hcarry := B.carry.isLt
  unfold Bridge.dividend
  omega

/-- The loop's invariant at its end: total and carry are quotient and remainder of the dividend, whatever MAX_BATCH is. -/
theorem advanceLoop_eq {c : Config} {B : Bridge} (hc : configLegal c = true) (hB : BridgeInv c B) (hv : B.ratioValid = true)
    (n : Nat) : advanceLoop B c.maxBatch n n 0 B.carry.toNat = (B.dividend n / 65536, B.dividend n % 65536) := by
  obtain ⟨-, hr, htbl⟩ := hB.2 hv
  obtain ⟨-, -, -, -, -, -, -, -, hm1, hm, -⟩ := configLegal_bounds c hc
  obtain ⟨hsum, hlt⟩ := advanceLoop_spec B c.maxBatch htbl hm1 hm hr n n 0 B.carry.toNat le_rfl B.carry.isLt
  have hq : B.dividend n = n * B.ratio.toNat + B.carry.toNat := rfl
  exact Prod.ext (by dsimp only; omega) (by dsimp only; omega)

section Advance

variable {s : State} {b : DomId}

theorem exec_bridgeAdvance {n : Word64} (hc : configLegal s.cfg = true) (h1 : 1 ≤ b.toNat) (hb : b.toNat < s.cfg.nDom)
    (hn : n.toNat < 2 ^ s.cfg.tickW) (hv : (s.bridge b).ratioValid = true) (hB : BridgeInv s.cfg (s.bridge b)) :
    exec (.bridgeAdvance b n) s = .next ((s.setBridge b ((s.bridge b).afterTicks n.toNat)).showing
      (okResponse (BitVec.ofNat 64 ((s.bridge b).dividend n.toNat / 65536))
        (BitVec.ofNat 64 ((s.bridge b).dividend n.toNat % 65536)))) := by
  have hok : (bridgeOk s.cfg b && tickOk s.cfg n) = true := by simp [h1, hb, hn]
  refine (inRange_pos hok s _).trans ?_
  rw [if_pos hv]
  dsimp only
  rw [operandNat_eq, advanceLoop_eq hc hB hv]
  rfl

/-! ### A sequence of advances -/

theorem lastR0_showing_ok {q : Nat} (hq : q < 2 ^ 64) (r1 : Word64) :
    lastR0 (s.showing (okResponse (BitVec.ofNat 64 q) r1)) = q :=
  (BitVec.toNat_ofNat q 64).trans (Nat.mod_eq_of_lt hq)

theorem totalTicks_cons (n : Word64) (ns : List Word64) : totalTicks (n :: ns) = n.toNat + totalTicks ns := by
  simp [totalTicks]

theorem advanceAll_cons {n : Word64} {ns : List Word64} {t u : State} {m : Nat} (hn : exec (.bridgeAdvance b n) s = .next t)
    (hns : advanceAll b ns t = some (m, u)) : advanceAll b (n :: ns) s = some (lastR0 t + m, u) := by
  simp only [advanceAll, hn, hns]

/-- R195 by induction on the counts: each advance leaves a bridge with the same ratio and table, and `Bridge.dividend_add` carries
the remainder over to the next. -/
theorem advanceAll_spec (ns : List Word64) : ∀ s : State, configLegal s.cfg = true → 1 ≤ b.toNat → b.toNat < s.cfg.nDom →
    (∀ n ∈ ns, n.toNat < 2 ^ s.cfg.tickW) → (s.bridge b).ratioValid = true → BridgeInv s.cfg (s.bridge b) →
    ∃ t, advanceAll b ns s = some ((s.bridge b).dividend (totalTicks ns) / 65536, t)
      ∧ t.bridge b = (s.bridge b).afterTicks (totalTicks ns)
      ∧ t.domains = s.domains ∧ (∀ e, e ≠ b → t.bridge e = s.bridge e) ∧ t.cfg = s.cfg := by
  induction ns with
  | nil =>
    intro s _ _ _ _ _ _
    have hzero : totalTicks [] = 0 := rfl
    exact ⟨s, by rw [hzero, Bridge.dividend_zero_div]; rfl, by rw [hzero, Bridge.afterTicks_zero], rfl, fun _ _ => rfl, rfl⟩
  | cons n ns ih =>
    intro s hc h1 hb hns hv hB
    obtain ⟨hn, hrest⟩ := List.forall_mem_cons.mp hns
    have hstep := exec_bridgeAdvance hc h1 hb hn hv hB
    have hR0 := dividend_div_lt hc hB hv hn
    generalize BitVec.ofNat 64 ((s.bridge b).dividend n.toNat % 65536) = r1 at hstep
    set s' := s.setBridge b ((s.bridge b).afterTicks n.toNat)
    have hself : s'.bridge b = (s.bridge b).afterTicks n.toNat := State.bridge_setBridge_self s b _ h1
    obtain ⟨t, hall, hbridge, hdom, hother, hcfg⟩ := ih (s'.showing (okResponse _ r1)) hc h1 hb hrest
      (by rw [bridge_showing, hself]; exact hv) (by rw [bridge_showing, hself]; exact bridgeInv_carry _ _ _ hB)
    rw [bridge_showing, hself] at hall hbridge
    rw [totalTicks_cons, Bridge.dividend_add_div, Bridge.afterTicks_add]
    refine ⟨t, ?_, hbridge, hdom, fun e he => ?_, hcfg⟩
    · rw [advanceAll_cons hstep hall, lastR0_showing_ok hR0]
    · exact (hother e he).trans (State.bridge_setBridge_ne s b e _ he)

end Advance

/-! ### The obligations -/

/-- Settles O42: the loop ends at quotient and remainder of the dividend. -/
theorem advanceClosedForm : Obligations.AdvanceClosedForm := by
  intro s b n hc h1 hb hn hv hB
  exact ⟨exec_bridgeAdvance hc h1 hb hn hv hB, dividend_div_lt hc hB hv hn⟩

/-- Settles O43: `advanceAll_spec`, whose dividend and last bridge the statement writes out. -/
theorem conversionFidelity : Obligations.ConversionFidelity :=
  fun ns s _ => advanceAll_spec ns s

/-- Settles O41: the sign test of R190 splits the 32-bit words, and the low half of such an operand is the operand. -/
theorem setRatioBuildsTable : Obligations.SetRatioBuildsTable := by
  intro s b a h1 hb ha
  have hsign := toInt_low32_nonpos_iff ha
  rw [exec_bridgeSetRatio h1 hb ha]
  refine ⟨fun hpos hlt => ?stored, fun hbad => ?refused⟩
  case stored =>
    have hnot : ¬ (low32 a).toInt ≤ 0 := by rw [hsign]; omega
    rw [if_neg hnot, buildTable, toNat_low32 ha, low32_eq]
    rfl
  case refused => rw [if_pos (hsign.mpr hbad)]

end Sys2Proof.Machine

/-! ## Proofs: the cycle stealer and the overflow duty (44_cycle_stealer.md; 70_reset_and_hazards.md R351) -/

namespace Sys2Proof.Machine

/-! ### What a STEAL writes, and when it faults -/

/-- R221's rule for one signal tick: where the policy shifts it, it moves with the clock but for one tick. -/
def stolenSignal (c : Config) (D : Domain) (k : Kind) (sig start count : Nat) : Nat :=
  if shiftsSignal c D k sig start then sig + count - 1 else sig

/-- The domain `D` after a steal of `count` ticks from `start` that does not fault (R221). -/
def afterSteal (c : Config) (D : Domain) (start count : Nat) : Domain :=
  { D with
    clk := D.clk + count
    irqClk := stolenSignal c D .irq D.irqClk start count
    nmiClk := stolenSignal c D .nmi D.nmiClk start count
    stealStart := (mergedSteal D start count).1
    stealLen := (mergedSteal D start count).2 }

/-- No `chk` of R221 faults: the clock, each signal tick that is shifted and the end of the window stay at or below CLK_MAX. -/
structure StealFits (c : Config) (D : Domain) (start count : Nat) : Prop where
  clk : D.clk + count ≤ c.clkMax
  irq : shiftsSignal c D .irq D.irqClk start = true → D.irqClk + count - 1 ≤ c.clkMax
  nmi : shiftsSignal c D .nmi D.nmiClk start = true → D.nmiClk + count - 1 ≤ c.clkMax
  window : start + count ≤ c.clkMax

theorem shiftsSignal_eq (c : Config) (D : Domain) (k : Kind) (sig start : Nat) : shiftsSignal c D k sig start =
    (decide (c.stealShiftPolicy = .always) || (D.pend.getLsbD k.bit && decide (start < sig + c.detectDelay))) := by
  unfold shiftsSignal windowOpen isPending
  cases c.stealShiftPolicy <;> rfl

theorem stolenSignal_le (c : Config) (D : Domain) (k : Kind) (sig start count : Nat) :
    stolenSignal c D k sig start count ≤ sig + count := by
  unfold stolenSignal
  split <;> omega

theorem chkSignal_of_le {c : Config} {D : Domain} {k : Kind} {sig start count : Nat}
    (h : shiftsSignal c D k sig start = true → sig + count - 1 ≤ c.clkMax) :
    chkSignal c D k sig start count = some (stolenSignal c D k sig start count) := by
  unfold chkSignal stolenSignal
  split
  case isTrue hs => exact chk_of_le c _ (h hs)
  case isFalse => rfl

theorem le_of_chkSignal_shifted {c : Config} {D : Domain} {k : Kind} {sig start count v : Nat}
    (h : chkSignal c D k sig start count = some v) (hs : shiftsSignal c D k sig start = true) : sig + count - 1 ≤ c.clkMax := by
  rw [chkSignal, if_pos hs] at h
  exact ((chk_eq_some _ _ _).mp h).1

theorem stealWrites_of_fits {c : Config} {D : Domain} {start count : Nat} (h : StealFits c D start count) :
    stealWrites c D start count = some (afterSteal c D start count) := by
  rw [stealWrites, chk_of_le c _ h.clk, chkSignal_of_le h.irq, chkSignal_of_le h.nmi, mergedSteal_end, chk_of_le c _ h.window]
  rfl

theorem fits_of_stealWrites {c : Config} {D E : Domain} {start count : Nat} (h : stealWrites c D start count = some E) :
    StealFits c D start count := by
  have ⟨_, hwindow, _⟩ := window_of_stealWrites h
  obtain ⟨_, _, _, _, -, hclk, -⟩ := stealWrites_eq_some h
  unfold stealWrites at h
  split at h
  case h_1 hirq hnmi _ => exact ⟨hclk, le_of_chkSignal_shifted hirq, le_of_chkSignal_shifted hnmi, hwindow⟩
  case h_2 => cases h

/-- STEAL's writes, said once: they are made exactly where every `chk` passes. -/
theorem stealWrites_eq_some_iff {c : Config} {D E : Domain} {start count : Nat} :
    stealWrites c D start count = some E ↔ StealFits c D start count ∧ afterSteal c D start count = E := by
  refine ⟨fun h => ?_, fun ⟨hfits, hE⟩ => hE ▸ stealWrites_of_fits hfits⟩
  have hfits := fits_of_stealWrites h
  exact ⟨hfits, Option.some.inj ((stealWrites_of_fits hfits).symm.trans h)⟩

theorem stealWrites_eq_none_iff {c : Config} {D : Domain} {start count : Nat} :
    stealWrites c D start count = none ↔ ¬ StealFits c D start count := by
  simp [Option.eq_none_iff_forall_ne_some, stealWrites_eq_some_iff]

/-- The record after a steal, field by field as R221 writes it. -/
theorem mergedSteal_eq (D : Domain) (start count : Nat) : mergedSteal D start count =
    (if start = D.stealStart + D.stealLen then D.stealStart else start,
      if start = D.stealStart + D.stealLen then D.stealLen + count else count) := by
  unfold mergedSteal stealEnd
  split <;> rfl

theorem exec_steal {s : State} {d : DomId} {start count : Word64} (hd : d.toNat < s.cfg.nDom)
    (hs : start.toNat < 2 ^ s.cfg.tickW) (hc : count.toNat < 2 ^ s.cfg.tickW) :
    exec (.steal d start count) s = .next (stealCycles s d start.toNat count.toNat) :=
  inRange_pos (by simp [hd, hs, hc]) s _

theorem stealCycles_zero (s : State) (d : DomId) (start : Nat) : stealCycles s d start 0 = done s := rfl

/-! ### The obligation on STEAL -/

/-- Settles O34: the statement writes out `afterSteal` and the four clauses of `StealFits`, with the end of the window as start plus
length. -/
theorem stealAdvancesClockAndShifts : Obligations.StealAdvancesClockAndShifts := by
  intro s d start count hd hs hc D n shiftIrq shiftNmi merges newStart newLen
  have hexec := exec_steal hd hs hc
  have hirq : shiftsSignal s.cfg D .irq D.irqClk start.toNat = shiftIrq := shiftsSignal_eq ..
  have hnmi : shiftsSignal s.cfg D .nmi D.nmiClk start.toNat = shiftNmi := shiftsSignal_eq ..
  have hrecord : mergedSteal D start.toNat n = (newStart, newLen) := by
    simp only [mergedSteal_eq, newStart, newLen, merges, decide_eq_true_eq]
  have hend : newStart + newLen = start.toNat + n := by
    have hsum := mergedSteal_end D start.toNat n
    rwa [hrecord] at hsum
  refine ⟨fun hn => ?none, fun hn h1 h2 h3 h4 => ?writes, fun hn hover => ?faults⟩
  case none => rw [hexec, show count.toNat = 0 from hn, stealCycles_zero, done_eq_showing]
  case writes =>
    have hfits : StealFits s.cfg D start.toNat n := ⟨h1, hirq ▸ h2, hnmi ▸ h3, hend ▸ h4⟩
    rw [hexec, stealCycles_of_some hn (stealWrites_of_fits hfits), done_eq_showing]
    rw [afterSteal, stolenSignal, stolenSignal, hirq, hnmi, hrecord]
  case faults =>
    have hnot : ¬ StealFits s.cfg D start.toNat n := by
      rintro ⟨h1, h2, h3, h4⟩
      rw [hirq] at h2
      rw [hnmi] at h3
      rw [hend] at hover
      rcases hover with h | ⟨hb, h⟩ | ⟨hb, h⟩ | h
      · exact Nat.not_le.mpr h h1
      · exact Nat.not_le.mpr h (h2 hb)
      · exact Nat.not_le.mpr h (h3 hb)
      · exact Nat.not_le.mpr h h4
    rw [hexec, stealCycles_of_none hn (stealWrites_eq_none_iff.mpr hnot), faultTick_eq_showing]

/-! ### Every command completes -/

theorem exists_exec_eq_next (i : Instr) (s : State) : ∃ t, exec i s = .next t := by
  cases i <;> exact ⟨_, rfl⟩

theorem exists_resp_of_exec {i : Instr} {s t : State} (h : exec i s = .next t) : ∃ r, t.resp = some r := by
  cases exec_effect h with
  | unchanged r | domain _ _ r | bridge _ _ r | load _ r => exact ⟨r, rfl⟩

/-! ### When a command ends TICK_OVERFLOW -/

/-- The checks whose failure ends a command of a domain with TICK_OVERFLOW: R102 and R105 of a recorded signal tick, R221, R240. -/
inductive TickFault (c : Config) (D : Domain) : Instr → Prop where
  | irq (d : DomId) (x : Idx) (t : Word64) (h : c.clkMax < sigTick D t.toNat) : TickFault c D (.setIrq d x true t)
  | nmi (d : DomId) (x : Idx) (t : Word64) (h : c.clkMax < sigTick D t.toNat) : TickFault c D (.setNmi d x true t)
  | steal (d : DomId) (start count : Word64) (h : ¬ StealFits c D start.toNat count.toNat) : TickFault c D (.steal d start count)
  | advance (d : DomId) (n : Word64) (h : c.clkMax < D.clk + n.toNat) : TickFault c D (.clkAdvance d n)

/-- The state `t` shows TICK_OVERFLOW on the response port. -/
def EndsTickOverflow (t : State) : Prop := ∃ r, t.resp = some r ∧ r.status = .tickOverflow

section TickFaults

variable {s t : State} {i : Instr} {d : DomId} {x : Idx}

theorem not_endsTickOverflow_showing {r : Response} (h : r.status ≠ .tickOverflow) : ¬ EndsTickOverflow (s.showing r) := by
  rintro ⟨q, hq, hst⟩
  cases hq
  exact h hst

theorem not_endsTickOverflow_done : ¬ EndsTickOverflow (done s) := not_endsTickOverflow_showing nofun

/-- A command that ends TICK_OVERFLOW was in range, so its own rule ended so. -/
theorem endsTickOverflow_of_inRange {ok : Bool} {own : State} (h : inRange ok s own = .next t) (ht : EndsTickOverflow t) :
    EndsTickOverflow own := by
  rcases (inRange_eq_next ok s own t).mp h with ⟨-, rfl⟩ | ⟨-, rfl⟩
  · exact ht
  · exact absurd ht (not_endsTickOverflow_showing nofun)

theorem sigTick_of_setIrqOn_overflow {u : Nat} (h : EndsTickOverflow (setIrqOn s d x u)) :
    s.cfg.clkMax < sigTick (s.dom d) u := by
  by_contra hle
  cases hb : irqBit ((s.dom d).srcAt x)
  case true => exact not_endsTickOverflow_done (setIrqOn_of_asserted hb ▸ h)
  case false =>
    cases hr : recordsIrq s.cfg (s.dom d)
    case true => exact not_endsTickOverflow_done (setIrqOn_of_recorded hb hr (Nat.not_lt.mp hle) ▸ h)
    case false => exact not_endsTickOverflow_done (setIrqOn_of_held hb hr ▸ h)

theorem sigTick_of_setNmiOn_overflow {u : Nat} (h : EndsTickOverflow (setNmiOn s d x u)) :
    s.cfg.clkMax < sigTick (s.dom d) u := by
  by_contra hle
  cases hb : nmiBit ((s.dom d).srcAt x)
  case true => exact not_endsTickOverflow_done (setNmiOn_of_asserted hb ▸ h)
  case false =>
    cases he : newNmiEdge (s.dom d)
    case true => exact not_endsTickOverflow_done (setNmiOn_of_edge hb he (Nat.not_lt.mp hle) ▸ h)
    case false => exact not_endsTickOverflow_done (setNmiOn_of_no_edge hb he ▸ h)

theorem not_endsTickOverflow_setIrqOff : ¬ EndsTickOverflow (setIrqOff s d x) := by
  dsimp only [setIrqOff]
  split
  case isTrue =>
    split
    case isTrue => exact not_endsTickOverflow_showing nofun
    case isFalse => exact not_endsTickOverflow_showing nofun
  case isFalse => exact not_endsTickOverflow_showing nofun

theorem not_endsTickOverflow_setNmiOff {u : Nat} : ¬ EndsTickOverflow (setNmiOff s d x u) := by
  dsimp only [setNmiOff]
  split
  case isTrue =>
    split
    case isTrue => exact not_endsTickOverflow_showing nofun
    case isFalse => exact not_endsTickOverflow_showing nofun
  case isFalse => exact not_endsTickOverflow_showing nofun

theorem not_endsTickOverflow_serveNext : ¬ EndsTickOverflow (serveNext s d) := by
  dsimp only [serveNext]
  split
  case isTrue => exact not_endsTickOverflow_showing nofun
  case isFalse =>
    split
    case isTrue => exact not_endsTickOverflow_showing nofun
    case isFalse => exact not_endsTickOverflow_showing nofun

theorem not_fits_of_stealCycles_overflow {start count : Nat} (h : EndsTickOverflow (stealCycles s d start count)) :
    ¬ StealFits s.cfg (s.dom d) start count := by
  intro hfits
  by_cases hn : count = 0
  · subst hn
    exact not_endsTickOverflow_done h
  · rw [stealCycles_of_some hn (stealWrites_of_fits hfits)] at h
    exact not_endsTickOverflow_done h

/-- The one case analysis of TICK_OVERFLOW: a command of a domain that ends so has failed a check on a tick of that domain. -/
theorem tickFault_of_exec (h : exec i s = .next t) (ht : i.target = .domain d) (hover : EndsTickOverflow t) :
    TickFault s.cfg (s.dom d) i := by
  cases i with
  | nop | snapSave | snapLoad | bridgeSetRatio | bridgeAdvance | bridgeLookup | bridgeRead => cases ht
  | checkPending | readCounts | readSigclk | readSrc | checkIrqDelay | checkNmiDelay | readSteal | alarmNextDue | alarmRead
  | clkRead | triggerReset | triggerMonitor | triggerDma | triggerTrap | ackReset | ackTrap | ackMonitor | ackDma | ackNmi
  | alarmSchedule | alarmCancel => exact absurd (endsTickOverflow_of_inRange h hover) (not_endsTickOverflow_showing (by nofun))
  | alarmServeNext => exact absurd (endsTickOverflow_of_inRange h hover) not_endsTickOverflow_serveNext
  | setIrq _ x on u =>
    cases ht
    have hown := endsTickOverflow_of_inRange h hover
    cases on
    case false => exact absurd hown not_endsTickOverflow_setIrqOff
    case true => exact .irq d x u (sigTick_of_setIrqOn_overflow hown)
  | setNmi _ x on u =>
    cases ht
    have hown := endsTickOverflow_of_inRange h hover
    cases on
    case false => exact absurd hown not_endsTickOverflow_setNmiOff
    case true => exact .nmi d x u (sigTick_of_setNmiOn_overflow hown)
  | steal _ start count =>
    cases ht
    exact .steal d start count (not_fits_of_stealCycles_overflow (endsTickOverflow_of_inRange h hover))
  | clkAdvance _ n =>
    cases ht
    have hown := endsTickOverflow_of_inRange h hover
    split at hown
    case h_1 hfail => exact .advance d n ((chk_eq_none _ _).mp hfail)
    case h_2 => exact absurd hown (not_endsTickOverflow_showing nofun)
  | preventOverflow _ =>
    have hown := endsTickOverflow_of_inRange h hover
    split at hown
    case isTrue => exact absurd hown (not_endsTickOverflow_showing nofun)
    case isFalse => exact absurd hown (not_endsTickOverflow_showing nofun)

end TickFaults

/-! ### The overflow duty under a command (R351)

Two facts carry the proof: no write of a command that keeps the duty moves a tick more than G away from the clock
(`withinDuty_of_write`), and no tick that such a command checks is above CLK_MAX (`not_tickFault_of_duty`). -/

section Duty

variable {c : Config} {d : DomId} {g used : Nat} {D : Domain}

/-- A write that moves the clock by `n`, the signal ticks by at most `n` and no due tick spends `n` of the growth. -/
theorem withinDuty_of_growth {E : Domain} {n : Nat} (hD : WithinDuty c d g used D) (hclk : E.clk = D.clk + n)
    (hirq : E.irqClk ≤ D.irqClk + n) (hnmi : E.nmiClk ≤ D.nmiClk + n) (hdue : E.due = D.due) (hend : stealEnd E ≤ D.clk + n + g) :
    WithinDuty c d g (used + n) E := by
  obtain ⟨hclkD, ⟨hirqD, hnmiD, hdueD⟩, -⟩ := hD
  rw [WithinDuty, TicksNearClock, hclk, hdue]
  exact ⟨by omega, ⟨by omega, by omega, fun t ht => (hdueD t ht).imp_right fun hle => by omega⟩, hend⟩

/-- The window of a steal that starts at most G after the clock ends at most G after the clock it leaves. -/
theorem withinDuty_afterSteal {start count : Nat} (hD : WithinDuty c d g used D) (hs : start ≤ D.clk + g) :
    WithinDuty c d g (used + count) (afterSteal c D start count) := by
  have hend : stealEnd (afterSteal c D start count) = start + count := mergedSteal_end D start count
  exact withinDuty_of_growth hD rfl (stolenSignal_le ..) (stolenSignal_le ..) rfl (by omega)

theorem withinDuty_setDue {x : Idx} {t : Nat} (hD : WithinDuty c d g used D) (ht : t = c.inf ∨ t ≤ D.clk + g) :
    WithinDuty c d g used (D.setDue x t) := by
  obtain ⟨hclk, hnear, hend⟩ := hD
  exact ⟨hclk, ticksNear_setDue hnear x t ht, hend⟩

theorem withinDuty_scheduleAlarm {x : Idx} {t : Nat} (hD : WithinDuty c d g used D) (ht : t = c.inf ∨ t ≤ D.clk + g) :
    WithinDuty c d g used (scheduleAlarm c D x t) := by
  have hset := withinDuty_setDue (x := x) hD ht
  unfold scheduleAlarm
  split
  case isTrue => exact hset
  case isFalse =>
    split
    case isTrue => exact withinDuty_rescan hset
    case isFalse => exact hset

theorem withinDuty_cancelAlarm {x : Idx} (hD : WithinDuty c d g used D) : WithinDuty c d g used (cancelAlarm c D x) := by
  have hset := withinDuty_setDue (x := x) hD (.inl rfl)
  unfold cancelAlarm
  split
  case isTrue => exact withinDuty_rescan hset
  case isFalse => exact hset

/-- A command that keeps the duty writes only ticks near the clock. -/
theorem withinDuty_of_write {E : Domain} {i : Instr} (hw : DomainWrite c D i E) (ht : i.target = .domain d)
    (hp : i ≠ .preventOverflow d) (hticks : ticksWithin c d (D.clk + g) i = true) (hD : WithinDuty c d g used D) :
    WithinDuty c d g (used + clockGrowth d i) E := by
  have ⟨hclk, ⟨hirq, hnmi, hdue⟩, hend⟩ := withinDuty_mono hD (Nat.le_add_right used (clockGrowth d i))
  cases hw with
  | fault | emptyQueue | raise | lower | trap | irqRiseHeld | irqRelease | irqClamp | nmiRise | nmiRelease | nmiClamp =>
    exact ⟨hclk, ⟨hirq, hnmi, hdue⟩, hend⟩
  | irqRise _ x t v _ _ hv =>
    cases ht
    have hle : t.toNat ≤ D.clk + g := by simpa [ticksWithin] using hticks
    obtain ⟨-, rfl⟩ := (chk_eq_some _ _ _).mp hv
    exact ⟨hclk, ⟨sigTick_near hend hle, hnmi, hdue⟩, hend⟩
  | nmiEdge _ x t v _ _ hv =>
    cases ht
    have hle : t.toNat ≤ D.clk + g := by simpa [ticksWithin] using hticks
    obtain ⟨-, rfl⟩ := (chk_eq_some _ _ _).mp hv
    exact ⟨hclk, ⟨hirq, sigTick_near hend hle, hdue⟩, hend⟩
  | steal _ start count _ hE =>
    cases ht
    obtain ⟨-, rfl⟩ := stealWrites_eq_some_iff.mp hE
    rw [clockGrowth, if_pos rfl]
    exact withinDuty_afterSteal hD (by simpa [ticksWithin] using hticks)
  | schedule _ x t =>
    cases ht
    exact withinDuty_scheduleAlarm hD (by simpa [ticksWithin] using hticks)
  | cancel => exact withinDuty_cancelAlarm hD
  | advance _ n =>
    cases ht
    have hend' : stealEnd D ≤ D.clk + n.toNat + g := by omega
    rw [clockGrowth, if_pos rfl]
    exact withinDuty_of_growth hD rfl (Nat.le_add_right ..) (Nat.le_add_right ..) rfl hend'
  | rebase => cases ht; exact absurd rfl hp

/-- No tick that a command of the domain checks is above HWM[d] + 2 G. -/
theorem not_tickFault_of_duty {i : Instr} (ht : i.target = .domain d) (hmax : c.hwm.get d + 2 * g ≤ c.clkMax)
    (hticks : ticksWithin c d (D.clk + g) i = true) (hgrow : used + clockGrowth d i ≤ g) (hD : WithinDuty c d g used D) :
    ¬ TickFault c D i := by
  obtain ⟨hclk, ⟨hirq, hnmi, -⟩, hend⟩ := hD
  rintro (⟨_, x, t, h⟩ | ⟨_, x, t, h⟩ | ⟨_, start, count, h⟩ | ⟨_, n, h⟩)
  · cases ht
    have hsig : sigTick D t.toNat ≤ D.clk + g := sigTick_near hend (by simpa [ticksWithin] using hticks)
    omega
  · cases ht
    have hsig : sigTick D t.toNat ≤ D.clk + g := sigTick_near hend (by simpa [ticksWithin] using hticks)
    omega
  · cases ht
    have hstart : start.toNat ≤ D.clk + g := by simpa [ticksWithin] using hticks
    rw [clockGrowth, if_pos rfl] at hgrow
    exact h ⟨by omega, fun _ => by omega, fun _ => by omega, by omega⟩
  · cases ht
    rw [clockGrowth, if_pos rfl] at hgrow
    omega

/-! ### The overflow duty under a rebase -/

/-- Flooring at zero leaves a tick near the clock, which a rebase moves by the same amount. -/
theorem ticksNear_rebase (a : Nat) (h : TicksNearClock c g D) : TicksNearClock c g (rebase c D a) := by
  obtain ⟨hirq, hnmi, hdue⟩ := h
  simp only [TicksNearClock, rebase, satSub_eq]
  refine ⟨by omega, by omega, fun t ht => ?_⟩
  obtain ⟨u, hu, rfl⟩ := List.mem_map.mp ht
  unfold rebaseDue
  split
  case isTrue hinf => exact .inl hinf
  case isFalse hlive =>
    have hle := (hdue u hu).resolve_left hlive
    rw [satSub_eq]
    exact .inr (by omega)

/-- The end of the steal window stays near the clock where its start is not floored, and where its length is no further ahead than that
(log 16). -/
theorem stealEnd_rebase_near {a : Nat} (hend : stealEnd D ≤ D.clk + g) (hlen : D.stealLen + a ≤ D.clk + g) :
    stealEnd (rebase c D a) ≤ (rebase c D a).clk + g := by
  simp only [stealEnd, rebase, satSub_eq] at hend ⊢
  omega

end Duty

section Rebase

variable {s : State} {d : DomId}

theorem exec_preventOverflow_of_le (hd : d.toNat < s.cfg.nDom) (h : (s.dom d).clk ≤ s.cfg.hwm.get d) :
    exec (.preventOverflow d) s = .next (s.showing (okResponse 0#64 0#64)) := by
  refine (inRange_pos ((domainOk_iff _ _).mpr hd) s _).trans ?_
  rw [if_pos h]
  rfl

theorem exec_preventOverflow_of_lt (hd : d.toNat < s.cfg.nDom) (h : s.cfg.hwm.get d < (s.dom d).clk) :
    exec (.preventOverflow d) s = .next ((s.setDom d (rebase s.cfg (s.dom d) (s.cfg.ovfSub.get d))).showing
      (okResponse (resultNat (s.cfg.ovfSub.get d)) 0#64)) := by
  refine (inRange_pos ((domainOk_iff _ _).mpr hd) s _).trans ?_
  rw [if_neg (Nat.not_le.mpr h)]
  rfl

end Rebase

/-- A command other than SNAP_LOAD, of the domain or not, keeps the duty's bounds on a domain. -/
theorem withinDuty_of_exec {i : Instr} {s t : State} {d : DomId} {g used : Nat} (h : exec i s = .next t) (hl : i ≠ .snapLoad)
    (hp : i ≠ .preventOverflow d) (hticks : ticksWithin s.cfg d ((s.dom d).clk + g) i = true)
    (hD : WithinDuty s.cfg d g used (s.dom d)) : WithinDuty s.cfg d g (used + clockGrowth d i) (t.dom d) := by
  have hkept := withinDuty_mono hD (Nat.le_add_right used (clockGrowth d i))
  by_cases ht : i.target = .domain d
  case neg =>
    rw [dom_eq_of_exec h ht hl]
    exact hkept
  case pos =>
    cases exec_effect h with
    | unchanged | bridge => exact hkept
    | load _ _ hi => exact absurd hi hl
    | domain e E r hte hd hw =>
      obtain rfl : e = d := by simpa [hte] using ht
      rw [dom_showing, State.dom_setDom_self]
      exact withinDuty_of_write hw ht hp hticks hD

/-- PREVENT_OVERFLOW brings the clock to the mark and keeps the ticks near it, and with the premise of log 16 all the bounds. -/
theorem exec_preventOverflow_duty {s : State} {d : DomId} {g used : Nat} (hd : d.toNat < s.cfg.nDom) (hg : g ≤ s.cfg.ovfSub.get d)
    (hu : used ≤ g) (hD : WithinDuty s.cfg d g used (s.dom d)) :
    ∃ t, exec (.preventOverflow d) s = .next t ∧ (t.dom d).clk ≤ s.cfg.hwm.get d ∧ TicksNearClock s.cfg g (t.dom d)
      ∧ ((s.dom d).clk ≤ s.cfg.hwm.get d ∨ (s.dom d).stealLen + s.cfg.ovfSub.get d ≤ (s.dom d).clk + g →
          WithinDuty s.cfg d g 0 (t.dom d)) := by
  obtain ⟨hclk, hnear, hend⟩ := hD
  rcases Nat.lt_or_ge (s.cfg.hwm.get d) (s.dom d).clk with habove | hbelow
  · have hmark : (rebase s.cfg (s.dom d) (s.cfg.ovfSub.get d)).clk ≤ s.cfg.hwm.get d := by
      simp only [rebase]
      omega
    have hnear' := ticksNear_rebase (s.cfg.ovfSub.get d) hnear
    refine ⟨_, exec_preventOverflow_of_lt hd habove, ?_⟩
    rw [dom_showing, State.dom_setDom_self]
    exact ⟨hmark, hnear', fun hlen =>
      ⟨hmark, hnear', stealEnd_rebase_near hend (hlen.resolve_left (Nat.not_le.mpr habove))⟩⟩
  · exact ⟨_, exec_preventOverflow_of_le hd hbelow, hbelow, hnear, fun _ => ⟨hbelow, hnear, hend⟩⟩

/-- Settles O51: `tickFault_of_exec` with `not_tickFault_of_duty` excludes the status, `withinDuty_of_exec` keeps the bounds. -/
theorem overflowDutySuffices : Obligations.OverflowDutySuffices := by
  intro s d g used hd hg hu hmax hD D top
  refine ⟨?bounds, fun i hl hp hticks hgrow => ?command, exec_preventOverflow_duty hd hg hu hD⟩
  case bounds =>
    obtain ⟨hclk, ⟨hirq, hnmi, hdue⟩, -⟩ := hD
    have hclk' : D.clk ≤ s.cfg.hwm.get d + g := hclk.trans (Nat.add_le_add_left hu _)
    have hnear (t : Nat) (ht : t ≤ D.clk + g) : t ≤ top := by omega
    exact ⟨hclk', hnear _ hirq, hnear _ hnmi, fun t ht => (hdue t ht).imp_right (hnear t), hnear⟩
  case command =>
    obtain ⟨t, h⟩ := exists_exec_eq_next i s
    obtain ⟨r, hr⟩ := exists_resp_of_exec h
    refine ⟨t, r, h, hr, fun ht hst => ?_, withinDuty_of_exec h hl hp hticks hD⟩
    exact not_tickFault_of_duty ht hmax hticks hgrow hD (tickFault_of_exec h ht ⟨r, hr, hst⟩)

end Sys2Proof.Machine

/-! ## Proofs: the clock and overflow prevention (45_clock_and_overflow.md) -/

namespace Sys2Proof.Machine

/-! ### What CLK_ADVANCE writes -/

section Advance

variable {s : State} {d : DomId} {n : Word64}

theorem exec_clkAdvance_of_le (hd : d.toNat < s.cfg.nDom) (hn : n.toNat < 2 ^ s.cfg.tickW)
    (h : (s.dom d).clk + n.toNat ≤ s.cfg.clkMax) :
    exec (.clkAdvance d n) s =
      .next ((s.setDom d { s.dom d with clk := (s.dom d).clk + n.toNat }).showing (okResponse 0#64 0#64)) := by
  refine (inRange_pos (by simp [hd, hn]) s _).trans ?_
  rw [operandNat_eq, chk_of_le _ _ h]
  rfl

theorem exec_clkAdvance_of_lt (hd : d.toNat < s.cfg.nDom) (hn : n.toNat < 2 ^ s.cfg.tickW)
    (h : s.cfg.clkMax < (s.dom d).clk + n.toNat) :
    exec (.clkAdvance d n) s =
      .next ((s.setDom d { s.dom d with fault := true }).showing (rejectResponse .tickOverflow)) := by
  refine (inRange_pos (by simp [hd, hn]) s _).trans ?_
  rw [operandNat_eq, (chk_eq_none _ _).mpr h]
  rfl

end Advance

/-! ### What a rebase writes -/

section RebaseWrites

variable {c : Config} {D : Domain} {a : Nat}

theorem rebaseDue_eq (c : Config) (a t : Nat) : rebaseDue c a t = if t = c.inf then c.inf else t - a := by
  unfold rebaseDue
  split
  case isTrue h => exact h
  case isFalse => exact satSub_eq t a

theorem rebaseDue_of_live {t : Nat} (h : t ≠ c.inf) : rebaseDue c a t = t - a := by rw [rebaseDue_eq, if_neg h]

/-- The writes of R242 with each floored subtraction as the subtraction of natural numbers. -/
theorem rebase_eq (c : Config) (D : Domain) (a : Nat) : rebase c D a =
    { D with clk := D.clk - a, due := D.due.map (fun t => if t = c.inf then c.inf else t - a)
             minTick := if D.minId = 0xFF#8 then D.minTick else D.minTick - a
             irqClk := D.irqClk - a, nmiClk := D.nmiClk - a, stealStart := D.stealStart - a } := by
  rw [rebase, funext (rebaseDue_eq c a)]
  simp only [satSub_eq]
  rfl

@[simp] theorem rebase_clk : (rebase c D a).clk = D.clk - a := rfl
@[simp] theorem rebase_irqClk : (rebase c D a).irqClk = D.irqClk - a := satSub_eq ..
@[simp] theorem rebase_nmiClk : (rebase c D a).nmiClk = D.nmiClk - a := satSub_eq ..
@[simp] theorem rebase_stealStart : (rebase c D a).stealStart = D.stealStart - a := satSub_eq ..

/-- A live due tick keeps its handler's place in the table. -/
theorem rebase_due_getElem?_of_live {h u : Nat} (hu : D.due[h]? = some u) (hlive : u ≠ c.inf) :
    (rebase c D a).due[h]? = some (u - a) := by
  rw [show (rebase c D a).due = D.due.map (rebaseDue c a) from rfl, List.getElem?_map, hu, Option.map_some,
    rebaseDue_of_live hlive]

theorem stealEnd_rebase (h : a ≤ D.stealStart) : stealEnd (rebase c D a) = stealEnd D - a :=
  calc (rebase c D a).stealStart + D.stealLen
    _ = D.stealStart - a + D.stealLen := by rw [rebase_stealStart]
    _ = D.stealStart + D.stealLen - a := (Nat.sub_add_comm h).symm

/-- The common step of R244: ticks that are moved by one amount, and not floored, keep their distance. -/
theorem sub_distance_eq {m n : Nat} (hm : a ≤ m) (hn : a ≤ n) : ((m - a : Nat) : Int) - (n - a : Nat) = m - n := by omega

theorem delayElapsed_sub {sig u : Nat} (br : Bool) (hsig : a ≤ sig) (hu : a ≤ u) :
    delayElapsed c (sig - a) br (u - a) = delayElapsed c sig br u := by
  unfold delayElapsed
  exact decide_eq_decide.mpr (by omega)

end RebaseWrites

/-- R242's remark that no floor is needed: a clock above the mark is above OVF_SUB[d], which R8 keeps at or below the mark. -/
theorem ovfSub_lt_clk_of_inv {s : State} {d : DomId} (hs : Inv s) (hd : d.toNat < s.cfg.nDom) (h : s.cfg.hwm.get d < (s.dom d).clk) :
    s.cfg.ovfSub.get d < (s.dom d).clk := by
  obtain ⟨hlegal, -⟩ := hs
  obtain ⟨-, -, -, -, -, -, hrebase, -⟩ := (configLegal_iff s.cfg).mp hlegal
  obtain ⟨-, -, -, hle⟩ := (rebaseLegal_iff s.cfg d).mp (hrebase d hd)
  exact hle.trans_lt h

/-! ### The obligations on the clock -/

/-- Settles O50: the rebased clock, ticks and steal window are all `OVF_SUB[d]` lower, so every difference of two of them stands. -/
theorem rebaseKeepsRelativeTime : Obligations.RebaseKeepsRelativeTime := by
  intro s d hs hd h D a
  have hclk : a ≤ D.clk := (ovfSub_lt_clk_of_inv hs hd h).le
  refine ⟨_, exec_preventOverflow_of_lt hd h, ?_⟩
  simp only [dom_showing, State.dom_setDom_self, showing_cfg, State.setDom_cfg, rebase_clk, rebase_irqClk, rebase_nmiClk,
    rebase_stealStart]
  refine ⟨Int.ofNat_sub hclk, fun x u hu hlive hau => ?due, fun hirq => ?irq, fun hnmi => ?nmi, fun hsteal => ?steal⟩
  case due => exact ⟨u - a, rebase_due_getElem?_of_live hu hlive, sub_distance_eq hclk hau⟩
  case irq => exact ⟨sub_distance_eq hclk hirq, fun br _ hau => delayElapsed_sub br hirq hau⟩
  case nmi => exact ⟨sub_distance_eq hclk hnmi, fun br _ hau => delayElapsed_sub br hnmi hau⟩
  case steal =>
    refine ⟨sub_distance_eq hclk hsteal, fun u hau => ?_⟩
    rw [stealEnd_rebase hsteal]
    exact Nat.sub_lt_sub_iff_right hau

/-- Settles O46: `chk` admits the sum or faults. -/
theorem clockAdvances : Obligations.ClockAdvances :=
  fun _ _ _ hd hn => ⟨exec_clkAdvance_of_le hd hn, exec_clkAdvance_of_lt hd hn⟩

/-- Settles O48: the writes are those of `rebase`, written out by `rebase_eq`. -/
theorem preventOverflowRebases : Obligations.PreventOverflowRebases := by
  intro s d hd h D a
  rw [exec_preventOverflow_of_lt hd h, rebase_eq]
  rfl

/-- Settles O49: the statement is the lower case of PREVENT_OVERFLOW. -/
theorem preventOverflowBelowMark : Obligations.PreventOverflowBelowMark :=
  fun _ _ hd h => exec_preventOverflow_of_le hd h

end Sys2Proof.Machine

/-! ## Proofs: snapshots and control (46_snapshot_and_control.md) -/

namespace Sys2Proof

theorem PerBridge.ext_get {α : Type} {p q : PerBridge α} (z : α) (h : ∀ b : DomId, 1 ≤ b.toNat → p.get z b = q.get z b) : p = q := by
  cases p; cases q
  congr
  · exact h 1#2 (by decide)
  · exact h 2#2 (by decide)
  · exact h 3#2 (by decide)

/-- The one row of OP 0 is NOP's, and it leaves no field free. -/
theorem decode_of_opField_zero {c : CmdWords} (h : opField c.word = 0x00#6) :
    decode c = if c.word = 0#32 then .ok .nop else .error (.unusedFieldSet 0x00#6) := by
  simp only [decode, h, BitVec.reduceToNat, decodeRow, and_allOnes]

namespace Machine

/-! ### NOP and the illegal words -/

theorem exec_nop (s : State) : exec .nop s = .next (s.showing (okResponse 0#64 0#64)) := rfl

theorem step_of_decode_error {s : State} {c : CmdWords} {image : SnapImage} {rest : List Input} {e : DecodeError}
    (hc : configLegal s.cfg = true) (hin : s.inputs = .command c image :: rest) (hd : decode c = .error e) :
    step s = .next ((acceptCommand s image rest).showing (rejectResponse .illegal)) := by
  simp [step, hc, hin, hd, illegalWord, reject_eq_showing]

/-! ### The checks of a record -/

/-- Where a parameter fits its header field, the check of the field is a check of the number. -/
theorem eq_header8_iff {v : Nat} {x : BitVec 8} (hv : v < 256) : x = header8 v ↔ x.toNat = v := by
  rw [← BitVec.toNat_inj, header8_toNat v hv]

/-- The consistency checks of R263, in its own terms. -/
theorem domainConsistent_iff (c : Config) (rd : SnapDomain) : domainConsistent c rd = true ↔
    rd.nirq = countIrq rd.src ∧ rd.nnmi = countNmi rd.src ∧ (rd.pend.getLsbD 1 = true ↔ 0 < rd.nirq) ∧ rd.pend &&& 0xC0#8 = 0#8
      ∧ rd.clk ≤ c.clkMax ∧ rd.irqClk ≤ c.clkMax ∧ rd.nmiClk ≤ c.clkMax := by
  have hirq : (isPending rd.pend .irq == decide (0 < rd.nirq)) = true ↔ (rd.pend.getLsbD 1 = true ↔ 0 < rd.nirq) := by
    rw [beq_iff_eq, Bool.eq_iff_iff, decide_eq_true_iff]
    rfl
  simp only [domainConsistent, Bool.and_eq_true, decide_eq_true_eq, hirq, and_assoc]

/-! ### The two commands -/

theorem exec_snapSave (s : State) : exec .snapSave s =
    .next (s.showing { status := .ok, r0 := 0#64, r1 := 0#64, fire := none, snap := some (snapshot s) }) := rfl

section Load

variable {s : State} {r : SnapRecord}

theorem exec_snapLoad_of_malformed (h : s.snapIn = .malformed) :
    exec .snapLoad s = .next (s.showing (rejectResponse .snapshotRejected)) := by
  simp [exec, execSnapLoad, h, reject_eq_showing]

theorem exec_snapLoad_of_refused (h : s.snapIn = .record r) (hr : recordAccepted s.cfg r = false) :
    exec .snapLoad s = .next (s.showing (rejectResponse .snapshotRejected)) := by
  simp [exec, execSnapLoad, h, hr, reject_eq_showing]

theorem exec_snapLoad_of_accepted (h : s.snapIn = .record r) (hr : recordAccepted s.cfg r = true) :
    exec .snapLoad s = .next ((loadRecord s r).showing (okResponse 0#64 0#64)) := by
  simp [exec, execSnapLoad, h, hr, done_eq_showing]

/-! ### What a load writes -/

theorem loadRecord_dom_of_listed {d : DomId} {rd : SnapDomain} (h : r.domains[d.toNat]? = some rd) :
    (loadRecord s r).dom d = loadDomain s.cfg (s.dom d) rd := by
  rw [loadRecord_dom, h]

theorem loadRecord_dom_of_unlisted {d : DomId} (h : r.domains.length ≤ d.toNat) : (loadRecord s r).dom d = s.dom d := by
  rw [loadRecord_dom, List.getElem?_eq_none h]

theorem loadRecord_bridge_of_listed {b : DomId} {v : BitVec 16} (h1 : 1 ≤ b.toNat) (h : r.carries[b.toNat - 1]? = some v) :
    (loadRecord s r).bridge b = { s.bridge b with carry := v } := by
  rw [loadRecord_bridge _ _ _ h1, h]

theorem loadRecord_bridge_of_unlisted {b : DomId} (h1 : 1 ≤ b.toNat) (h : r.carries.length ≤ b.toNat - 1) :
    (loadRecord s r).bridge b = s.bridge b := by
  rw [loadRecord_bridge _ _ _ h1, List.getElem?_eq_none h]

end Load

/-! ### Loading the saved record -/

/-- The saved fields of a domain in order pass the checks of R263. -/
theorem domainConsistent_snapDomain {c : Config} {D : Domain} (h : DomainInv c D) : domainConsistent c (snapDomain D) = true := by
  obtain ⟨⟨hnirq, hnnmi⟩, hirq, hres, ⟨hclk, hirqClk, hnmiClk, -⟩, -, -⟩ := h
  rw [domainConsistent_iff]
  dsimp only [snapDomain]
  rw [readPend_of_reserved _ hres]
  exact ⟨hnirq, hnnmi, irqPending_iff hirq, hres, hclk, hirqClk, hnmiClk⟩

/-- The block accepts the record that it saves, with N_SRC = 256 too: both sides of that check are the same free value (log 9). -/
theorem recordAccepted_snapshot {s : State} (hs : Inv s) : recordAccepted s.cfg (snapshot s) = true := by
  obtain ⟨hc, hdom, -, -⟩ := hs
  obtain ⟨-, -, -, hn, -⟩ := configLegal_bounds _ hc
  refine (recordAccepted_iff _ _).mpr ⟨snapshot_lengths s, ⟨rfl, rfl, rfl, rfl, rfl⟩, fun rd hrd => ?_⟩
  obtain ⟨d, hd, rfl⟩ := mem_snapshot_domains s hn rd hrd
  obtain ⟨-, -, -, -, hsized, -⟩ := hdom d hd
  exact ⟨hsized, domainConsistent_snapDomain (hdom d hd)⟩

theorem loadDomain_snapDomain {c : Config} {D : Domain} (h : PendReserved D) :
    loadDomain c D (snapDomain D) = rescan c { D with stealStart := 0, stealLen := 0 } := by
  simp only [loadDomain, snapDomain, readPend_of_reserved _ h]

section MinTick

variable {c : Config} {D E : Domain}

/-- The tracked minimum of a table, unlike its handler, is fixed by the table. -/
theorem minTick_le_of_due_eq (hD : MinTracked c D) (hE : MinTracked c E) (h : E.due = D.due) : D.minTick ≤ E.minTick := by
  rcases hE with ⟨-, hinf, hall⟩ | ⟨-, -, hheld, -⟩
  · obtain ⟨hD', -⟩ := minTracked_empty hD (h ▸ hall)
    exact (hD'.trans hinf.symm).le
  · exact minTracked_le hD _ (h ▸ List.mem_of_getElem? hheld)

theorem minTick_eq_of_due_eq (hD : MinTracked c D) (hE : MinTracked c E) (h : E.due = D.due) : E.minTick = D.minTick :=
  Nat.le_antisymm (minTick_le_of_due_eq hE hD h.symm) (minTick_le_of_due_eq hD hE h)

/-- Which handler is tracked, from the tracked minimum: one that holds it, or NONE where it is INF. -/
theorem minId_of_minTracked (h : MinTracked c D) :
    (D.minTick ≠ c.inf → D.due[D.minId.toNat]? = some D.minTick) ∧ (D.minTick = c.inf → D.minId = noHandler) := by
  rcases h with ⟨hid, hinf, -⟩ | ⟨-, hlive, hheld, -⟩
  · exact ⟨fun hlive => absurd hinf hlive, fun _ => hid⟩
  · exact ⟨fun _ => hheld, fun hinf => absurd hinf hlive⟩

end MinTick

/-- The carry is all that a load writes to a bridge, and it is the bridge's own. -/
theorem loadSnapshot_bridges (s : State) : (loadRecord s (snapshot s)).bridges = s.bridges := by
  refine PerBridge.ext_get Bridge.powerOn fun b h1 => ?_
  by_cases hb : b.toNat < s.cfg.nDom
  · exact loadRecord_bridge_of_listed h1 (snapshot_carry s b h1 hb)
  · obtain ⟨-, hlen⟩ := snapshot_lengths s
    exact loadRecord_bridge_of_unlisted h1 (by omega)

section Restored

variable {s : State} {d : DomId}

theorem loadSnapshot_dom_eq_rescan (hs : Inv s) (hd : d.toNat < s.cfg.nDom) :
    (loadRecord s (snapshot s)).dom d = rescan s.cfg { s.dom d with stealStart := 0, stealLen := 0 } := by
  obtain ⟨-, hdom, -, -⟩ := hs
  obtain ⟨-, -, hres, -, -, -⟩ := hdom d hd
  rw [loadRecord_dom_of_listed (snapshot_domain s d hd), loadDomain_snapDomain hres]

theorem minTracked_loadSnapshot (hs : Inv s) (hd : d.toNat < s.cfg.nDom) :
    MinTracked s.cfg ((loadRecord s (snapshot s)).dom d) :=
  minTracked_of_inv (inv_loadRecord s _ hs (recordAccepted_snapshot hs)) hd

/-- Every field of a domain but the steal record and the tracked handler comes back: the record holds the others, and the rescan finds
the same minimum in the same table. -/
theorem loadSnapshot_dom (hs : Inv s) (hd : d.toNat < s.cfg.nDom) : (loadRecord s (snapshot s)).dom d =
    { s.dom d with minId := ((loadRecord s (snapshot s)).dom d).minId, stealStart := 0, stealLen := 0 } := by
  have hrescan := loadSnapshot_dom_eq_rescan hs hd
  have hdue : ((loadRecord s (snapshot s)).dom d).due = (s.dom d).due := by rw [hrescan, rescan_frame]
  have hmin := minTick_eq_of_due_eq (minTracked_of_inv hs hd) (minTracked_loadSnapshot hs hd) hdue
  rw [hrescan] at hmin ⊢
  exact (rescan_frame _ _).trans (by rw [hmin])

/-- SNAP_LOAD as R264 runs it: the response that SNAP_SAVE left on the port and the image now presented are no part of what comes back. -/
theorem exists_exec_snapLoad_snapshot (hs : Inv s) (r : Response) :
    ∃ u, exec .snapLoad { s.showing r with snapIn := .record (snapshot s) } = .next u ∧ u.resp = some (okResponse 0#64 0#64)
      ∧ u.cfg = s.cfg ∧ u.bridges = s.bridges ∧ ∀ d : DomId, d.toNat < s.cfg.nDom →
        u.dom d = { s.dom d with minId := (u.dom d).minId, stealStart := 0, stealLen := 0 } ∧ MinTracked s.cfg (u.dom d) :=
  ⟨_, exec_snapLoad_of_accepted rfl (recordAccepted_snapshot hs), rfl, rfl, loadSnapshot_bridges s,
    fun _ hd => ⟨loadSnapshot_dom hs hd, minTracked_loadSnapshot hs hd⟩⟩

end Restored

/-! ### Reading a bridge back -/

theorem exec_bridgeRead {s : State} {b : DomId} (h1 : 1 ≤ b.toNat) (hb : b.toNat < s.cfg.nDom) : exec (.bridgeRead b) s =
    .next (s.showing (okResponse (resultBits (s.bridge b).ratio) (resultBits (s.bridge b).carry))) :=
  inRange_pos ((bridgeOk_iff _ _).mpr ⟨h1, hb⟩) s _

/-! ### The obligations -/

/-- Settles O53: `snapshot` is the record, and every parameter of a legal configuration but N_SRC = 256 fits its header field. -/
theorem snapSavePutsOutRecord : Obligations.SnapSavePutsOutRecord := by
  intro s hc
  obtain ⟨-, htickW, -, hnDom, -, -, -, hnAlarm, -⟩ := configLegal_bounds _ hc
  obtain ⟨hdoms, hcarries⟩ := snapshot_lengths s
  exact ⟨snapshot s, exec_snapSave s, rfl, header8_toNat _ (by omega), header8_toNat _, header8_toNat _ (by omega),
    header8_toNat _ (by omega), hdoms, hcarries, snapshot_domain s, snapshot_carry s⟩

/-- Settles O54: an accepted record passes every check, and each clause of the statement fails one. -/
theorem snapLoadRefusesBadImages : Obligations.SnapLoadRefusesBadImages := by
  intro s
  refine ⟨exec_snapLoad_of_malformed, fun r hr hbad => exec_snapLoad_of_refused hr (Bool.eq_false_iff.mpr fun hacc => ?_)⟩
  obtain ⟨⟨hdoms, hcarries⟩, ⟨hversion, hnDom, hnSrc, hnAlarm, htickW⟩, hall⟩ := (recordAccepted_iff _ _).mp hacc
  rcases hbad with h | h | ⟨rd, hrd, h⟩ | h | ⟨hfits, h⟩ | ⟨hfits, h⟩ | ⟨hfits, h⟩ | ⟨hfits, h⟩ | ⟨rd, hrd, h⟩
  · exact h hdoms
  · exact h hcarries
  · obtain ⟨⟨hsrc, hdue, hinf⟩, -⟩ := hall rd hrd
    rcases h with h | h | ⟨t, ht, h⟩
    · exact h hsrc
    · exact h hdue
    · exact h.not_ge (hinf t ht)
  · exact h hversion
  · exact h ((eq_header8_iff hfits).mp hnDom)
  · exact h ((eq_header8_iff hfits).mp hnSrc)
  · exact h ((eq_header8_iff hfits).mp hnAlarm)
  · exact h ((eq_header8_iff hfits).mp htickW)
  · obtain ⟨-, hcons⟩ := hall rd hrd
    obtain ⟨hnirq, hnnmi, hirq, hres, hclk, hirqClk, hnmiClk⟩ := (domainConsistent_iff _ _).mp hcons
    rcases h with h | h | h | h | h | h | h
    exacts [h hnirq, h hnnmi, h hirq, h hres, h.not_ge hclk, h.not_ge hirqClk, h.not_ge hnmiClk]

/-- Settles O55: the record is accepted, and a domain or bridge is loaded exactly where the record lists it. -/
theorem snapLoadWritesRecord : Obligations.SnapLoadWritesRecord := by
  intro s r hc hr hdoms hcarries hversion hnDom hnSrc hnSrcWide hnAlarm htickW hall
  obtain ⟨-, htickWle, hnDomge, hnDomle, -, hnSrcle, -, hnAlarmle, -⟩ := configLegal_bounds _ hc
  have hsrcField : r.nSrc = header8 s.cfg.nSrc := by
    rcases hnSrcle.lt_or_eq with hlt | heq
    · exact (eq_header8_iff hlt).mpr (hnSrc hlt)
    · rw [heq, header8_oversize]; exact hnSrcWide heq
  have hacc : recordAccepted s.cfg r = true := by
    refine (recordAccepted_iff _ _).mpr ⟨⟨hdoms, hcarries⟩, ⟨hversion, (eq_header8_iff (by omega)).mpr hnDom, hsrcField,
      (eq_header8_iff (by omega)).mpr hnAlarm, (eq_header8_iff (by omega)).mpr htickW⟩, fun rd hrd => ?_⟩
    obtain ⟨hsrc, hdue, hinf, hcons⟩ := hall rd hrd
    exact ⟨⟨hsrc, hdue, hinf⟩, (domainConsistent_iff _ _).mpr hcons⟩
  exact ⟨_, exec_snapLoad_of_accepted hr hacc, rfl, rfl, rfl, rfl, fun d rd hrd => loadRecord_dom_of_listed hrd,
    fun d hd => ⟨loadRecord_dom_of_unlisted (by omega), loadRecord_bridge_of_unlisted (by omega) (by omega)⟩,
    fun b v h1 hv => loadRecord_bridge_of_listed h1 hv⟩

/-- Settles O56: the block accepts its own record and gets every domain and bridge back; the handler is fixed by the tracked minimum as
far as R264 says, and the three observations read only what comes back. -/
theorem snapshotRoundTrip : Obligations.SnapshotRoundTrip := by
  intro s hs
  obtain ⟨u, hload, hresp, hcfg, hbridges, hdom⟩ := exists_exec_snapLoad_snapshot hs _
  refine ⟨_, u, snapshot s, exec_snapSave s, rfl, hload, hresp, fun d hd => ?domain, hbridges, hcfg, fun d hd => ?observations⟩
  case domain =>
    obtain ⟨hback, hmin⟩ := hdom d hd
    have hid := minId_of_minTracked hmin
    rw [hback] at hid
    exact ⟨hback, hid⟩
  case observations =>
    obtain ⟨hback, -⟩ := hdom d hd
    have hd' : d.toNat < u.cfg.nDom := hcfg ▸ hd
    have hpending := exec_checkPending hd'
    have hnextDue := exec_alarmNextDue hd'
    rw [hback] at hpending hnextDue
    have hbridge : u.bridge d = s.bridge d := congrArg (PerBridge.get · Bridge.powerOn d) hbridges
    exact ⟨⟨_, exec_checkPending hd, hpending⟩, ⟨_, _, _, exec_alarmNextDue hd, hnextDue⟩,
      fun h1 => ⟨_, _, exec_bridgeRead h1 hd, hbridge ▸ exec_bridgeRead h1 hd'⟩⟩

/-- Settles O52: of the words with OP 0, the word 0 decodes to NOP and every other to nothing. -/
theorem nopDoesNothing : Obligations.NopDoesNothing := by
  refine ⟨exec_nop, fun s c image rest hc hin hop => ?_⟩
  have hdecode := decode_of_opField_zero hop
  split
  case isTrue h =>
    rw [if_pos h] at hdecode
    exact step_of_decode_ok hc hin hdecode
  case isFalse h =>
    rw [if_neg h] at hdecode
    exact step_of_decode_error hc hin hdecode

end Machine

end Sys2Proof

/-! ## Proofs: the status codes and the order of events (60_exceptions.md) -/

namespace Sys2Proof.Machine

/-! ### The step: idle, illegal words, resets -/

theorem step_of_idle {s : State} (hc : configLegal s.cfg = true) (hin : s.inputs = []) : step s = .next s := by
  simp [step, hc, hin]

theorem step_of_por {s : State} {rest : List Input} (hc : configLegal s.cfg = true) (hin : s.inputs = .por :: rest) :
    step s = .next (powerOnReset s rest) := by
  simp [step, hc, hin]

theorem step_of_rst {s : State} {d : DomId} {rest : List Input} (hc : configLegal s.cfg = true)
    (hin : s.inputs = .rst d :: rest) : step s = .next (pulseReset s d rest) := by
  simp [step, hc, hin]

theorem powerOnReset_cfg (s : State) (rest : List Input) : (powerOnReset s rest).cfg = s.cfg := rfl

theorem powerOnReset_inputs (s : State) (rest : List Input) : (powerOnReset s rest).inputs = rest := rfl

theorem pulseReset_cfg (s : State) (d : DomId) (rest : List Input) : (pulseReset s d rest).cfg = s.cfg := by
  unfold pulseReset
  split <;> rfl

theorem pulseReset_inputs (s : State) (d : DomId) (rest : List Input) : (pulseReset s d rest).inputs = rest := by
  unfold pulseReset
  split <;> rfl

/-- No command changes the parameters or takes an input from the queue. -/
theorem cfg_inputs_of_exec {i : Instr} {s t : State} (h : exec i s = .next t) : t.cfg = s.cfg ∧ t.inputs = s.inputs := by
  cases exec_effect h with
  | unchanged | domain | bridge | load => exact ⟨rfl, rfl⟩

/-- A step takes one input, where there is one, and leaves the parameters as they are. -/
theorem exists_step_eq_next {s : State} (hc : configLegal s.cfg = true) :
    ∃ t, step s = .next t ∧ t.cfg = s.cfg ∧ t.inputs = s.inputs.tail := by
  cases hin : s.inputs with
  | nil => exact ⟨s, step_of_idle hc hin, rfl, hin⟩
  | cons input rest =>
    cases input with
    | por => exact ⟨_, step_of_por hc hin, powerOnReset_cfg s rest, powerOnReset_inputs s rest⟩
    | rst d => exact ⟨_, step_of_rst hc hin, pulseReset_cfg s d rest, pulseReset_inputs s d rest⟩
    | command c image =>
      cases hd : decode c with
      | error e => exact ⟨_, step_of_decode_error hc hin hd, rfl, rfl⟩
      | ok i =>
        obtain ⟨t, ht⟩ := exists_exec_eq_next i (acceptCommand s image rest)
        exact ⟨t, (step_of_decode_ok hc hin hd).trans ht, cfg_inputs_of_exec ht⟩

/-! ### Legal words (R303) -/

open Laws.WordMatchesRow in
/-- The word of every command matches its row, by the family `WordMatchesRow`. -/
theorem legalWord_encodeWord (i : Instr) : legalWord (encodeWord i) = true := by
  cases i
  exacts [nop, setIrq _ _ _ _, setNmi _ _ _ _, triggerReset _, ackReset _, triggerTrap _ _, ackTrap _, checkPending _, ackNmi _,
    triggerMonitor _, ackMonitor _, triggerDma _, ackDma _, readCounts _, readSigclk _, readSrc _ _, checkIrqDelay _ _ _ _,
    checkNmiDelay _ _ _, steal _ _ _, readSteal _, alarmSchedule _ _ _, alarmCancel _ _, alarmNextDue _, alarmServeNext _,
    alarmRead _ _, bridgeSetRatio _ _, bridgeAdvance _ _, bridgeLookup _ _, bridgeRead _, clkAdvance _ _, clkRead _,
    preventOverflow _, snapSave, snapLoad]

/-- Each row of the opcode map is a row of the decoder. -/
theorem exists_decode_of_row (c : CmdWords) : ∀ r ∈ opcodeMap, opField c.word = r.op → c.word &&& r.mask = r.pattern →
    ∃ i, decode c = .ok i := by
  simp only [opcodeMap, List.cons_append, List.nil_append, List.forall_mem_cons, List.not_mem_nil, false_implies, implies_true,
    and_true]
  and_intros
  all_goals
    intro hop hrow
    simp only [decode, hop, BitVec.reduceToNat]
    exact ⟨_, (decodeRow_eq_ok_iff ..).mpr ⟨hrow, rfl⟩⟩

theorem exists_decode_iff_legalWord (c : CmdWords) : (∃ i, decode c = .ok i) ↔ legalWord c.word = true := by
  constructor
  · rintro ⟨i, hi⟩
    exact encodeWord_of_decode hi ▸ legalWord_encodeWord i
  · intro h
    obtain ⟨r, hr, hmatch⟩ := List.any_eq_true.mp h
    simp only [Bool.and_eq_true, decide_eq_true_eq] at hmatch
    obtain ⟨hop, hrow⟩ := hmatch
    exact exists_decode_of_row c r hr hop hrow

theorem exists_decode_error_of_not_legal {c : CmdWords} (h : legalWord c.word = false) : ∃ e, decode c = .error e := by
  cases hd : decode c with
  | error e => exact ⟨e, rfl⟩
  | ok i => exact absurd ((exists_decode_iff_legalWord c).mp ⟨i, hd⟩) (by simp [h])

theorem step_of_illegal_word {s : State} {c : CmdWords} {image : SnapImage} {rest : List Input}
    (hc : configLegal s.cfg = true) (hin : s.inputs = .command c image :: rest) (h : legalWord c.word = false) :
    step s = .next ((acceptCommand s image rest).showing (rejectResponse .illegal)) := by
  obtain ⟨e, he⟩ := exists_decode_error_of_not_legal h
  exact step_of_decode_error hc hin he

/-! ### The checks of R304

`exec` tests each command's fields and operands for itself; these lemmas tie those tests to `Instr.wellFormed`. -/

section RangeChecks

variable {c : Config} {i : Instr}

theorem wellFormed_of_target (hx : i.idxInRange c = true) (ho : i.operandsInRange c = true) :
    i.wellFormed c = i.target.inRange c := by
  simp [Instr.wellFormed, hx, ho]

theorem wellFormed_of_idx (ho : i.operandsInRange c = true) : i.wellFormed c = (i.target.inRange c && i.idxInRange c) := by
  simp [Instr.wellFormed, ho]

theorem wellFormed_of_operands (hx : i.idxInRange c = true) :
    i.wellFormed c = (i.target.inRange c && i.operandsInRange c) := by
  simp [Instr.wellFormed, hx]

theorem wellFormed_steal (d : DomId) (start count : Word64) :
    (Instr.steal d start count).wellFormed c = (domainOk c d && tickOk c start && tickOk c count) := by
  rw [wellFormed_of_operands rfl, Bool.and_assoc]
  rfl

end RangeChecks

/-! ### What leaves the sticky bits alone -/

/-- Every `cerr` and every `fault` (10_state.md R37, R38) of `u` is that of `s`. -/
def KeepsSticky (s u : State) : Prop := ∀ e, (u.dom e).cerr = (s.dom e).cerr ∧ (u.dom e).fault = (s.dom e).fault

section Sticky

variable {s : State} {d : DomId} {E : Domain}

theorem keepsSticky_refl (s : State) : KeepsSticky s s := fun _ => ⟨rfl, rfl⟩

theorem keepsSticky_setDom (hc : E.cerr = (s.dom d).cerr) (hf : E.fault = (s.dom d).fault) : KeepsSticky s (s.setDom d E) := by
  intro e
  by_cases he : e = d
  · subst he
    rw [State.dom_setDom_self]
    exact ⟨hc, hf⟩
  · rw [State.dom_setDom_ne s d e E he]
    exact ⟨rfl, rfl⟩

theorem rescan_sticky (c : Config) (D : Domain) : (rescan c D).cerr = D.cerr ∧ (rescan c D).fault = D.fault := by
  rw [rescan_frame]
  exact ⟨rfl, rfl⟩

theorem scheduleAlarm_sticky (c : Config) (D : Domain) (h : Idx) (v : Nat) :
    (scheduleAlarm c D h v).cerr = D.cerr ∧ (scheduleAlarm c D h v).fault = D.fault := by
  unfold scheduleAlarm
  split
  case isTrue => exact ⟨rfl, rfl⟩
  case isFalse =>
    split
    case isTrue => exact rescan_sticky c _
    case isFalse => exact ⟨rfl, rfl⟩

theorem cancelAlarm_sticky (c : Config) (D : Domain) (h : Idx) :
    (cancelAlarm c D h).cerr = D.cerr ∧ (cancelAlarm c D h).fault = D.fault := by
  unfold cancelAlarm
  split
  case isTrue => exact rescan_sticky c _
  case isFalse => exact ⟨rfl, rfl⟩

theorem keepsSticky_loadRecord (s : State) (r : SnapRecord) : KeepsSticky s (loadRecord s r) := by
  intro e
  rw [loadRecord_dom]
  split
  case h_1 => exact rescan_sticky _ _
  case h_2 => exact ⟨rfl, rfl⟩

end Sticky

/-! ### How a command ends

`commandEnd_of_exec` is the one case analysis over the commands that the statements on status codes rest on. -/

/-- The ends of a command's own rule: OK, CONSISTENCY and TICK_OVERFLOW with the sticky bits of R301, and the rejects other than RANGE.
Each code is one that R306 lists for the command. -/
inductive OwnEnd (s : State) (i : Instr) : State → Prop where
  | ok (u : State) (r : Response) (hr : r.status = .ok) (hu : KeepsSticky s u) : OwnEnd s i (u.showing r)
  | consistency (d : DomId) (E : Domain) (r0 r1 : Word64) (ht : i.target = .domain d) (hst : .consistency ∈ statusesOf i)
      (hc : E.cerr = true) (hf : E.fault = (s.dom d).fault) :
      OwnEnd s i ((s.setDom d E).showing { status := .consistency, r0 := r0, r1 := r1, fire := none, snap := none })
  | tickOverflow (d : DomId) (ht : i.target = .domain d) (hst : .tickOverflow ∈ statusesOf i) : OwnEnd s i (faultTick s d)
  | rejected (st : Status) (hown : st ∈ [.notDue, .noRatio, .configRejected, .snapshotRejected]) (hst : st ∈ statusesOf i) :
      OwnEnd s i (s.showing (rejectResponse st))

/-- The ends of a command: the check of R304 comes before the command's own rule. -/
inductive CommandEnd (s : State) (i : Instr) : State → Prop where
  | outOfRange (h : i.wellFormed s.cfg = false) : CommandEnd s i (s.showing (rejectResponse .range))
  | own (t : State) (h : i.wellFormed s.cfg = true) (ht : OwnEnd s i t) : CommandEnd s i t

section Ends

variable {s t : State} {i : Instr} {d : DomId} {x : Idx} {u : Word64} {E : Domain} {r : Response}

/-- An end with OK that writes no state. -/
theorem ownEnd_shown (hr : r.status = .ok) : OwnEnd s i (s.showing r) := .ok s r hr (keepsSticky_refl s)

/-- An end with OK that writes one domain. -/
theorem ownEnd_wrote (hr : r.status = .ok) (hE : E.cerr = (s.dom d).cerr ∧ E.fault = (s.dom d).fault) :
    OwnEnd s i ((s.setDom d E).showing r) := .ok _ r hr (keepsSticky_setDom hE.1 hE.2)

theorem commandEnd_of_inRange {ok : Bool} {own : State} (h : inRange ok s own = .next t) (hok : i.wellFormed s.cfg = ok)
    (ho : OwnEnd s i own) : CommandEnd s i t := by
  subst hok
  rcases (inRange_eq_next _ s own t).mp h with ⟨hwf, rfl⟩ | ⟨hwf, rfl⟩
  · exact .own _ hwf ho
  · exact .outOfRange hwf

theorem ownEnd_setIrqOn : OwnEnd s (.setIrq d x true u) (setIrqOn s d x u.toNat) := by
  cases hb : irqBit ((s.dom d).srcAt x)
  case true => rw [setIrqOn_of_asserted hb]; exact ownEnd_shown rfl
  case false =>
    cases hr : recordsIrq s.cfg (s.dom d)
    case false => rw [setIrqOn_of_held hb hr]; exact ownEnd_wrote rfl ⟨rfl, rfl⟩
    case true =>
      rcases Nat.lt_or_ge s.cfg.clkMax (sigTick (s.dom d) u.toNat) with ht | ht
      · rw [setIrqOn_of_overflow hb hr ht]; exact .tickOverflow d rfl (by simp [statusesOf])
      · rw [setIrqOn_of_recorded hb hr ht]; exact ownEnd_wrote rfl ⟨rfl, rfl⟩

theorem ownEnd_setIrqOff : OwnEnd s (.setIrq d x false u) (setIrqOff s d x) := by
  cases hb : irqBit ((s.dom d).srcAt x)
  case false => rw [setIrqOff_of_released hb]; exact ownEnd_shown rfl
  case true =>
    by_cases hn : (s.dom d).nirq = 0
    · rw [setIrqOff_of_zero hb hn]; exact .consistency d _ _ _ rfl (by simp [statusesOf]) rfl rfl
    · rw [setIrqOff_of_counted hb hn]; exact ownEnd_wrote rfl ⟨rfl, rfl⟩

theorem ownEnd_setNmiOn : OwnEnd s (.setNmi d x true u) (setNmiOn s d x u.toNat) := by
  cases hb : nmiBit ((s.dom d).srcAt x)
  case true => rw [setNmiOn_of_asserted hb]; exact ownEnd_shown rfl
  case false =>
    cases he : newNmiEdge (s.dom d)
    case false => rw [setNmiOn_of_no_edge hb he]; exact ownEnd_wrote rfl ⟨rfl, rfl⟩
    case true =>
      rcases Nat.lt_or_ge s.cfg.clkMax (sigTick (s.dom d) u.toNat) with ht | ht
      · rw [setNmiOn_of_overflow hb he ht]; exact .tickOverflow d rfl (by simp [statusesOf])
      · rw [setNmiOn_of_edge hb he ht]; exact ownEnd_wrote rfl ⟨rfl, rfl⟩

theorem ownEnd_setNmiOff : OwnEnd s (.setNmi d x false u) (setNmiOff s d x u.toNat) := by
  cases hb : nmiBit ((s.dom d).srcAt x)
  case false => rw [setNmiOff_of_released hb]; exact ownEnd_shown rfl
  case true =>
    by_cases hn : (s.dom d).nnmi = 0
    · rw [setNmiOff_of_zero hb hn]; exact .consistency d _ _ _ rfl (by simp [statusesOf]) rfl rfl
    · rw [setNmiOff_of_counted hb hn]; exact ownEnd_wrote rfl ⟨rfl, rfl⟩

theorem ownEnd_stealCycles {start count : Word64} :
    OwnEnd s (.steal d start count) (stealCycles s d start.toNat count.toNat) := by
  by_cases hn : count.toNat = 0
  · rw [hn, stealCycles_zero]; exact ownEnd_shown rfl
  · cases hE : stealWrites s.cfg (s.dom d) start.toNat count.toNat with
    | none => rw [stealCycles_of_none hn hE]; exact .tickOverflow d rfl (by simp [statusesOf])
    | some E =>
      obtain ⟨-, rfl⟩ := stealWrites_eq_some_iff.mp hE
      rw [stealCycles_of_some hn hE]; exact ownEnd_wrote rfl ⟨rfl, rfl⟩

theorem ownEnd_serveNext : OwnEnd s (.alarmServeNext d) (serveNext s d) := by
  by_cases hid : (s.dom d).minId = noHandler
  · rw [serveNext_of_empty hid]; exact .consistency d _ _ _ rfl (by simp [statusesOf]) rfl rfl
  · rcases Nat.lt_or_ge (s.dom d).clk (s.dom d).minTick with ht | ht
    · rw [serveNext_of_early hid ht]; exact .rejected _ (by simp) (by simp [statusesOf])
    · rw [serveNext_of_due hid ht]; exact ownEnd_shown rfl

/-- Whatever a command answers is one of its ends: RANGE where a check of R304 fails, else an end of its own rule. -/
theorem commandEnd_of_exec (h : exec i s = .next t) : CommandEnd s i t := by
  cases i with
  | nop | snapSave => cases h; exact .own _ rfl (ownEnd_shown rfl)
  | checkPending | readCounts | readSigclk | readSteal | alarmNextDue | bridgeRead | clkRead =>
    exact commandEnd_of_inRange h (wellFormed_of_target rfl rfl) (ownEnd_shown rfl)
  | readSrc | alarmRead => exact commandEnd_of_inRange h (wellFormed_of_idx rfl) (ownEnd_shown rfl)
  | checkIrqDelay | checkNmiDelay => exact commandEnd_of_inRange h (wellFormed_of_operands rfl) (ownEnd_shown rfl)
  | triggerReset | triggerMonitor | triggerDma | ackReset | ackTrap | ackNmi | ackMonitor | ackDma =>
    exact commandEnd_of_inRange h (wellFormed_of_target rfl rfl) (ownEnd_wrote rfl ⟨rfl, rfl⟩)
  | triggerTrap => exact commandEnd_of_inRange h (wellFormed_of_operands rfl) (ownEnd_wrote rfl ⟨rfl, rfl⟩)
  | setIrq d x on u =>
    refine commandEnd_of_inRange h rfl ?_
    cases on
    case false => exact ownEnd_setIrqOff
    case true => exact ownEnd_setIrqOn
  | setNmi d x on u =>
    refine commandEnd_of_inRange h rfl ?_
    cases on
    case false => exact ownEnd_setNmiOff
    case true => exact ownEnd_setNmiOn
  | steal d start count => exact commandEnd_of_inRange h (wellFormed_steal d start count) ownEnd_stealCycles
  | alarmSchedule => exact commandEnd_of_inRange h rfl (ownEnd_wrote rfl (scheduleAlarm_sticky ..))
  | alarmCancel => exact commandEnd_of_inRange h (wellFormed_of_idx rfl) (ownEnd_wrote rfl (cancelAlarm_sticky ..))
  | alarmServeNext => exact commandEnd_of_inRange h (wellFormed_of_target rfl rfl) ownEnd_serveNext
  | bridgeSetRatio =>
    refine commandEnd_of_inRange h (wellFormed_of_operands rfl) ?_
    split
    case isTrue => exact .rejected .configRejected (by simp) (by simp [statusesOf])
    case isFalse => exact .ok _ _ rfl (keepsSticky_refl s)
  | bridgeAdvance =>
    refine commandEnd_of_inRange h (wellFormed_of_operands rfl) ?_
    split
    case isTrue => exact .ok _ _ rfl (keepsSticky_refl s)
    case isFalse => exact .rejected .noRatio (by simp) (by simp [statusesOf])
  | bridgeLookup =>
    refine commandEnd_of_inRange h (wellFormed_of_operands rfl) ?_
    split
    case isTrue => exact ownEnd_shown rfl
    case isFalse => exact .rejected .noRatio (by simp) (by simp [statusesOf])
  | clkAdvance d n =>
    refine commandEnd_of_inRange h (wellFormed_of_operands rfl) ?_
    split
    case h_1 => exact .tickOverflow d rfl (by simp [statusesOf])
    case h_2 => exact ownEnd_wrote rfl ⟨rfl, rfl⟩
  | preventOverflow =>
    refine commandEnd_of_inRange h (wellFormed_of_target rfl rfl) ?_
    split
    case isTrue => exact ownEnd_shown rfl
    case isFalse => exact ownEnd_wrote rfl ⟨rfl, rfl⟩
  | snapLoad =>
    cases h
    refine .own _ rfl ?_
    split
    case h_1 => exact .rejected .snapshotRejected (by simp) (by simp [statusesOf])
    case h_2 rec _ =>
      split
      case isTrue => exact .ok _ _ rfl (keepsSticky_loadRecord s rec)
      case isFalse => exact .rejected .snapshotRejected (by simp) (by simp [statusesOf])

/-! ### What the ends say -/

theorem ok_mem_statusesOf (i : Instr) : .ok ∈ statusesOf i := by
  cases i <;> exact List.mem_cons_self

/-- The commands for which R306 does not list RANGE have nothing to be out of range. -/
theorem range_mem_statusesOf {c : Config} (h : i.wellFormed c = false) : .range ∈ statusesOf i := by
  cases i
  case nop | snapSave | snapLoad => cases h
  all_goals simp [statusesOf]

theorem status_ne_range_of_ownEnd (h : OwnEnd s i t) (hr : t.resp = some r) : r.status ≠ .range := by
  cases h with
  | ok u q hq => cases hr; rw [hq]; decide
  | consistency | tickOverflow => cases hr; nofun
  | rejected st hown => cases hr; rintro rfl; exact absurd hown (by decide)

theorem status_mem_of_exec (h : exec i s = .next t) (hr : t.resp = some r) : r.status ∈ statusesOf i := by
  cases commandEnd_of_exec h with
  | outOfRange hwf => cases hr; exact range_mem_statusesOf hwf
  | own _ _ hend =>
    cases hend with
    | ok u q hq => cases hr; exact hq ▸ ok_mem_statusesOf i
    | consistency _ _ _ _ _ hst | tickOverflow _ _ hst | rejected _ _ hst => cases hr; exact hst

end Ends

/-! ### Two NMI commands at one tick (R311) -/

/-- A tick at or after the end of the steal window is recorded as it is (R104). -/
theorem sigTick_of_stealEnd_le {D : Domain} {u : Nat} (h : stealEnd D ≤ u) : sigTick D u = u := if_neg (Nat.not_lt.mpr h)

/-- The domain `D` after an NMI edge from source `x` recorded at tick `u` (R105). -/
def afterNmiEdge (D : Domain) (x : Idx) (u : Nat) : Domain :=
  { assertNmi D x with nmiClk := u, pend := raise D.pend .nmi }

theorem nmiBit_afterNmiEdge {D : Domain} {x : Idx} (h : x.toNat < D.src.length) (u : Nat) :
    nmiBit ((afterNmiEdge D x u).srcAt x) = true := by
  have hread : (afterNmiEdge D x u).srcAt x = withNmiBit (D.srcAt x) true := srcAt_of_getElem? (List.getElem?_set_self h)
  rw [hread, nmiBit_withNmiBit]

/-- The last release, in the tick of the edge, leaves no edge pending (R106). -/
theorem isPending_pendAfterRelease_last (D : Domain) : isPending (pendAfterRelease D 0 D.nmiClk) .nmi = false := by
  unfold pendAfterRelease
  split
  case isTrue => exact isPending_lower_self _ _
  case isFalse h => simpa using h

section NmiOrder

variable {s : State} {d : DomId} {x : Idx} {t : Word64}

theorem exec_setNmi_of_edge (hd : d.toNat < s.cfg.nDom) (hx : x.toNat < s.cfg.nSrc) (ht : t.toNat < 2 ^ s.cfg.tickW)
    (hmax : t.toNat ≤ s.cfg.clkMax) (hb : nmiBit ((s.dom d).srcAt x) = false) (he : newNmiEdge (s.dom d) = true)
    (hwin : stealEnd (s.dom d) ≤ t.toNat) :
    exec (.setNmi d x true t) s = .next ((s.setDom d (afterNmiEdge (s.dom d) x t.toNat)).showing (okResponse 0#64 0#64)) := by
  have hsig := sigTick_of_stealEnd_le hwin
  refine (exec_setNmi (on := true) hd hx ht).trans (congrArg _ ?_)
  rw [if_pos rfl, setNmiOn_of_edge hb he (hsig.symm ▸ hmax), hsig]
  rfl

/-- The source that made an edge as the only one, released in the edge's own tick. -/
theorem exists_exec_setNmi_withdrawn {D : Domain} (hd : d.toNat < s.cfg.nDom) (hx : x.toNat < s.cfg.nSrc)
    (ht : t.toNat < 2 ^ s.cfg.tickW) (hD : s.dom d = afterNmiEdge D x t.toNat) (hlisted : x.toNat < D.src.length)
    (hn : D.nnmi = 0) : ∃ v, exec (.setNmi d x false t) s = .next v ∧ isPending (v.dom d).pend .nmi = false := by
  have hb : nmiBit ((s.dom d).srcAt x) = true := hD ▸ nmiBit_afterNmiEdge hlisted _
  have hcount : (s.dom d).nnmi = 1 := by rw [hD]; exact congrArg (· + 1) hn
  have hclk : (s.dom d).nmiClk = t.toNat := by rw [hD]; rfl
  refine ⟨_, (exec_setNmi (on := false) hd hx ht).trans (congrArg _ (setNmiOff_of_counted hb (by omega))), ?_⟩
  rw [done_eq_showing, dom_showing, State.dom_setDom_self, hcount, ← hclk]
  exact isPending_pendAfterRelease_last _

end NmiOrder

/-! ### The obligations -/

/-- Settles O6: the empty queue is the first case of the step. -/
theorem idleHoldsState : Obligations.IdleHoldsState := fun _ => step_of_idle

/-- Settles O4: the decoder has the rows of the opcode map and no others, and a word it refuses is rejected in the state that
accepted it. -/
theorem illegalWordsRejected : Obligations.IllegalWordsRejected :=
  ⟨exists_decode_iff_legalWord, fun _ _ _ _ => step_of_illegal_word⟩

/-- Settles O7: every command answers a next state, and a step keeps the parameters, so that its state is one in which any next command
runs by its own rule. -/
theorem noStatusStopsTheBlock : Obligations.NoStatusStopsTheBlock := by
  refine ⟨fun i s => ?_, fun s hc => ?_⟩
  · obtain ⟨t, ht⟩ := exists_exec_eq_next i s
    obtain ⟨r, hr⟩ := exists_resp_of_exec ht
    exact ⟨t, r, ht, hr, cfg_inputs_of_exec ht⟩
  · obtain ⟨t, ht, hcfg, hinputs⟩ := exists_step_eq_next hc
    have hc' : configLegal t.cfg = true := hcfg ▸ hc
    exact ⟨t, ht, hcfg, hinputs, fun c image rest hin =>
      ⟨fun i => step_of_decode_ok hc' hin, fun e => step_of_decode_error hc' hin⟩⟩

/-- Settles O14: the check of R304 decides between RANGE and the command's own rule, no end of which is RANGE. -/
theorem outOfRangeRejected : Obligations.OutOfRangeRejected := by
  intro i s
  obtain ⟨t, ht⟩ := exists_exec_eq_next i s
  obtain ⟨r, hr⟩ := exists_resp_of_exec ht
  cases commandEnd_of_exec ht with
  | outOfRange hwf => exact ⟨fun _ => ht, fun hwf' => absurd (hwf.symm.trans hwf') nofun⟩
  | own _ hwf hend =>
    exact ⟨fun hwf' => absurd (hwf.symm.trans hwf') nofun, fun _ => ⟨t, r, ht, hr, status_ne_range_of_ownEnd hend hr⟩⟩

/-- Settles O15: each end of a command carries one of the codes that R306 lists for it. -/
theorem statusesOfEachCommand : Obligations.StatusesOfEachCommand := by
  intro s c image rest hc hin
  cases hd : decode c with
  | error e => exact ⟨_, _, step_of_decode_error hc hin hd, rfl, nofun, fun _ _ => rfl⟩
  | ok i =>
    obtain ⟨t, ht⟩ := exists_exec_eq_next i (acceptCommand s image rest)
    obtain ⟨r, hr⟩ := exists_resp_of_exec ht
    refine ⟨t, r, (step_of_decode_ok hc hin hd).trans ht, hr, fun j hj => ?_, nofun⟩
    cases hj
    exact status_mem_of_exec ht hr

/-- Settles O16: the ends of a command, one by one, and the reject of an illegal word. -/
theorem stickyBitsAndRejects : Obligations.StickyBitsAndRejects := by
  refine ⟨fun i s t r h hr => ?_, fun _ _ _ _ => step_of_illegal_word⟩
  cases commandEnd_of_exec h with
  | outOfRange => cases hr; exact ⟨nofun, nofun, fun _ _ => keepsSticky_refl s, fun _ => rfl⟩
  | own _ _ hend =>
    cases hend with
    | ok u q hq hu =>
      cases hr
      rw [hq]
      exact ⟨nofun, nofun, fun _ _ => hu, fun hmem => absurd hmem (by simp)⟩
    | consistency d E r0 r1 ht _ hcerr hfault =>
      cases hr
      refine ⟨fun _ => ⟨d, ht, ?_, ?_, fun e => State.dom_setDom_ne s d e E⟩, nofun, fun hne => absurd rfl hne,
        fun hmem => absurd hmem (by simp)⟩
      · rw [dom_showing, State.dom_setDom_self, hcerr]
      · rw [dom_showing, State.dom_setDom_self, hfault]
    | tickOverflow d ht =>
      cases hr
      refine ⟨nofun, fun _ => ⟨d, ht, ?_, ?_, fun e => State.dom_setDom_ne s d e _⟩, fun _ hne => absurd rfl hne,
        fun hmem => absurd hmem (by simp)⟩
      · rw [faultTick_eq_showing, dom_showing, State.dom_setDom_self]
      · rw [faultTick_eq_showing, dom_showing, State.dom_setDom_self]
    | rejected st hown =>
      cases hr
      refine ⟨?_, ?_, fun _ _ => keepsSticky_refl s, fun _ => rfl⟩
      · rintro rfl; exact absurd hown (by decide)
      · rintro rfl; exact absurd hown (by decide)

/-- Settles O17: of the ends of a command `faultTick` alone shows TICK_OVERFLOW, and `TickFault` names the four commands. -/
theorem tickOverflowWritesFaultAlone : Obligations.TickOverflowWritesFaultAlone := by
  intro i s t r h hr hst
  cases commandEnd_of_exec h with
  | outOfRange => cases hr; cases hst
  | own _ _ hend =>
    cases hend with
    | ok u q hq => cases hr; rw [hq] at hst; cases hst
    | consistency => cases hr; cases hst
    | rejected st hown => cases hr; cases hst; exact absurd hown (by decide)
    | tickOverflow d ht =>
      refine ⟨d, faultTick_eq_showing s d, ?_⟩
      rcases tickFault_of_exec h ht ⟨r, hr, hst⟩ with ⟨_, x, u⟩ | ⟨_, x, u⟩ | ⟨_, u, n⟩ | ⟨_, n⟩
      · cases ht; exact .inl ⟨x, u, rfl⟩
      · cases ht; exact .inr (.inl ⟨x, u, rfl⟩)
      · cases ht; exact .inr (.inr (.inl ⟨u, n, rfl⟩))
      · cases ht; exact .inr (.inr (.inr ⟨n, rfl⟩))

/-- Settles O27: on makes the edge and off withdraws it; off changes nothing and on then makes it. -/
theorem nmiOrderAtOneTick : Obligations.NmiOrderAtOneTick := by
  intro s d x t hd hx hlisted hmax ht hb hn hp hwin
  have hedge := exec_setNmi_of_edge hd hx ht hmax hb ((newNmiEdge_iff _).mpr ⟨hn, hp⟩) hwin
  have hdom : (s.setDom d (afterNmiEdge (s.dom d) x t.toNat)).dom d = afterNmiEdge (s.dom d) x t.toNat :=
    State.dom_setDom_self s d _
  refine ⟨?onOff, ?offOn⟩
  case onOff =>
    obtain ⟨v, hoff, hclear⟩ := exists_exec_setNmi_withdrawn
      (s := (s.setDom d (afterNmiEdge (s.dom d) x t.toNat)).showing (okResponse 0#64 0#64)) hd hx ht hdom hlisted hn
    exact ⟨_, v, hedge, hoff, hclear⟩
  case offOn =>
    have hoff : exec (.setNmi d x false t) s = .next (s.showing (okResponse 0#64 0#64)) :=
      (exec_setNmi (on := false) hd hx ht).trans (congrArg _ (setNmiOff_of_released hb))
    refine ⟨_, _, hoff, (exec_showing _ s _).trans hedge, ?_⟩
    rw [dom_showing, hdom]
    exact ⟨isPending_raise_self _ _, rfl⟩

end Sys2Proof.Machine

/-! ## Proofs: the resets (70_reset_and_hazards.md R340 to R345) -/

namespace Sys2Proof.Machine

/-! ### The state after `por` -/

theorem powerOnReset_dom (s : State) (rest : List Input) (d : DomId) : (powerOnReset s rest).dom d = Domain.powerOn s.cfg :=
  dom_powerOn s.cfg d

theorem powerOnReset_bridge (s : State) (rest : List Input) (b : DomId) : (powerOnReset s rest).bridge b = Bridge.powerOn :=
  bridge_powerOn s.cfg b

theorem powerOn_src_getElem? {c : Config} {n : Nat} (h : n < c.nSrc) : (Domain.powerOn c).src[n]? = some 0#2 :=
  List.getElem?_replicate_of_lt h

theorem powerOn_due_getElem? {c : Config} {n : Nat} (h : n < c.nAlarm) : (Domain.powerOn c).due[n]? = some c.inf :=
  List.getElem?_replicate_of_lt h

/-- The empty table of power-on reads as (0, 0) at every index (log 7). -/
theorem powerOn_entry (n : Nat) : Bridge.powerOn.entry n = ⟨0#32, 0#16⟩ := rfl

/-! ### A domain after its RESET -/

section ResetDomain

variable (c : Config) (D : Domain)

/-- RESET clears the sources as power-on does. -/
theorem resetDomain_src : (resetDomain c D).src = (Domain.powerOn c).src := rfl

/-- Under CANCEL the alarm table and its minimum are those of power-on (R342). -/
theorem resetDomain_queue_of_cancel {c : Config} (h : c.resetAlarmPolicy = .cancel) :
    (resetDomain c D).due = (Domain.powerOn c).due ∧ (resetDomain c D).minTick = c.inf
      ∧ (resetDomain c D).minId = noHandler := by
  simp [resetDomain, Domain.powerOn, h]

/-- Under KEEP the alarm table and its minimum are those from before the reset (R342). -/
theorem resetDomain_queue_of_keep {c : Config} (h : c.resetAlarmPolicy = .keep) :
    (resetDomain c D).due = D.due ∧ (resetDomain c D).minTick = D.minTick ∧ (resetDomain c D).minId = D.minId := by
  simp [resetDomain, h]

/-- No kind but MONITOR is pending after a RESET (R343). -/
theorem isPending_pendAfterReset_ne (p : BitVec 8) {k : Kind} (h : k ≠ .monitor) : isPending (pendAfterReset p) k = false := by
  cases k with
  | monitor => exact absurd rfl h
  | nmi | irq | reset | trap | dma => simp [isPending, pendAfterReset, Kind.bit]

/-- R39 right after a RESET, whatever the domain held before. -/
theorem countsMatch_resetDomain : CountsMatch (resetDomain c D) := (domainInv_powerOn c).1

/-- R40 right after a RESET, whatever the domain held before: no source asserts IRQ, and IRQ is not pending. -/
theorem irqBitMatches_resetDomain : IrqBitMatches (resetDomain c D) := isPending_pendAfterReset_ne D.pend (by decide)

end ResetDomain

/-! ### The state after `rst[d]` -/

theorem pulseReset_dom_self {s : State} {d : DomId} (hd : d.toNat < s.cfg.nDom) (rest : List Input) :
    (pulseReset s d rest).dom d = resetDomain s.cfg (s.dom d) := by
  rw [pulseReset, if_pos hd]
  exact State.dom_setDom_self s d _

theorem pulseReset_dom_ne (s : State) (rest : List Input) {d e : DomId} (h : e ≠ d) : (pulseReset s d rest).dom e = s.dom e := by
  unfold pulseReset
  split
  · exact State.dom_setDom_ne s d e _ h
  · rfl

theorem pulseReset_bridges (s : State) (d : DomId) (rest : List Input) : (pulseReset s d rest).bridges = s.bridges := by
  unfold pulseReset
  split <;> rfl

/-! ### The obligations -/

/-- Settles O9: after `por` every domain is `Domain.powerOn` and every bridge `Bridge.powerOn`, whose elements R345 lists. -/
theorem powerOnResetSetsEverything : Obligations.PowerOnResetSetsEverything := by
  intro s rest hc hin
  refine ⟨_, step_of_por hc hin, powerOnReset_cfg s rest, fun d _ => ?domains, fun b _ _ => ?bridges⟩
  case domains =>
    rw [powerOnReset_dom]
    exact ⟨rfl, rfl, rfl, rfl, rfl, rfl, rfl, rfl, rfl, fun _ => powerOn_src_getElem?, fun _ => powerOn_due_getElem?,
      rfl, rfl, rfl, rfl⟩
  case bridges =>
    rw [powerOnReset_bridge]
    exact ⟨rfl, rfl, rfl, fun n _ => powerOn_entry n⟩

/-- Settles O10: `rst[d]` replaces domain d by `resetDomain` of it, which treats the alarm table by the policy, and writes no other
part of the block. -/
theorem resetOfOneDomain : Obligations.ResetOfOneDomain := by
  intro s d rest hc hin hd
  refine ⟨_, step_of_rst hc hin, pulseReset_cfg s d rest, ?_⟩
  rw [pulseReset_dom_self hd, resetDomain_src]
  refine ⟨rfl, rfl, rfl, rfl, rfl, fun hpolicy => ?cancel, resetDomain_queue_of_keep _, rfl, fun _ => powerOn_src_getElem?,
    rfl, rfl, rfl, countsMatch_resetDomain _ _, irqBitMatches_resetDomain _ _, rfl, rfl,
    fun _ => pulseReset_dom_ne s rest, pulseReset_bridges s d rest⟩
  case cancel =>
    obtain ⟨hdue, hmin, hid⟩ := resetDomain_queue_of_cancel (s.dom d) hpolicy
    rw [hdue]
    exact ⟨fun _ => powerOn_due_getElem?, List.length_replicate, hmin, hid⟩

end Sys2Proof.Machine
